-- ==== Sys2Proof/Word.lean ====
section
/-! DEFINITION. The word types of the block (00_scope.md R15): bytes, half-words and words as bit vectors. -/

namespace Sys2Proof

/-- A byte: one bus transfer, one buffer cell, the byte operand of an operation word (R13, R15: `u8`). -/
abbrev Byte := BitVec 8

/-- An unsigned 16-bit value (R15: `u16`): the retry budget, `SEQ.cnt`, `SEQ.idx`. -/
abbrev Half := BitVec 16

/-- An unsigned 32-bit value (R15: `u32`): the operation word, the three host registers, a host value. -/
abbrev Word := BitVec 32

end Sys2Proof
end

