-- ==== Sys2Proof/Config.lean ====
section
/-! DEFINITION. What an implementation fixes (00_scope.md R9 to R14, 10_state.md R53) and the free values the spec leaves
open (93_implementation_defined.md). A value the spec leaves open is an `opaque` constant: nothing can evaluate it. -/

namespace Sys2Proof

/-- An event of the bus trace (R20): chip-select asserted, chip-select deasserted, one tick of delay, or one byte
exchange with the wire byte `m` sent and the wire byte `s` received. -/
inductive Event where
  /-- `CS+` -/
  | csOn
  /-- `CS-` -/
  | csOff
  /-- `D` -/
  | delay
  /-- `X(m, s)` -/
  | xfer (m s : Byte)
  deriving DecidableEq, Repr

/-- The chip-specific parameters that the operations read (R10, R11, R12; P1 to P7 of 93_implementation_defined.md).
They are configuration: State carries one value of this type and no step writes it (R53). -/
structure Params where
  /-- `P_DW`, the data-write indicator (R11, OPEN). -/
  dataWrite : Byte
  /-- `P_SR`, the status-read indicator (R11, OPEN). -/
  statusRead : Byte
  /-- `P_DR`, the data-read indicator (R11, OPEN). -/
  dataRead : Byte
  /-- `P_READY`, the ready status value (R11, OPEN). -/
  ready : Byte
  /-- `P_FW_OPCODE`, the firmware-version command opcode (R12, OPEN). -/
  fwOpcode : Byte
  /-- `P_FW_BUDGET`, the retry budget of GET_FW (R12, OPEN). -/
  fwBudget : Half
  /-- `P_TFI`, the host-to-chip direction byte (R10; 0x01 on this hardware, never hard-wired: C8). -/
  tfi : Byte
  deriving DecidableEq, Repr

/-- The value of `P_TFI` that R10 gives this hardware (0x01) beside the reference values of R11 and R12.
PRESUMED (the spec takes them from general knowledge, and the budget is its own choice; log entry 1). -/
def Params.reference : Params where
  dataWrite := 0x01
  statusRead := 0x02
  dataRead := 0x03
  ready := 0x01
  fwOpcode := 0x02
  fwBudget := 100
  tfi := 0x01

namespace Config

/-- The preamble byte (R9, R53). -/
def preamble : Byte := 0x00

/-- The two bytes of the start code (R9, R53). -/
def start0 : Byte := 0x00

/-- The second byte of the start code (R9, R53). -/
def start1 : Byte := 0xFF

/-- The postamble byte (R9, R53). -/
def postamble : Byte := 0x00

/-- The acknowledgment frame (R9, R53). -/
def ack : Vector Byte 6 := #v[0x00, 0x00, 0xFF, 0x00, 0xFF, 0x00]

/-- `P_READ_FILL` (R13, R133): the placeholder put on the wire, as it stands, while a byte is read. -/
def readFill : Byte := 0x00

/-- `MAX_CMD_LEN` (R13, R108). -/
def maxCmdLen : Nat := 254

/-- `MAX_RD_LEN` (R13, R108). -/
def maxRdLen : Nat := 255

/-- `FW_RSP_LEN` (R13, R224). -/
def fwRspLen : Nat := 12

/-- `P_TICK` in nanoseconds, nominal (R13, R259): no rule depends on it. -/
def tickNanoseconds : Nat := 1000000

/-- `P_CS_ACTIVE_LOW` (R14, OPEN): the physical polarity of chip-select. -/
opaque csActiveLow : Bool

/-- `P_SPI_MODE` (R14, OPEN): clock polarity and phase. No rule depends on it. -/
opaque spiMode : BitVec 2

/-- `P_SCK_HZ` (R14, OPEN): the bit clock rate. No rule depends on it. -/
opaque sckHz : Nat

/-- `BASE` (R14, R70, OPEN): the platform address of the host window. -/
opaque base : Word

/-- FREE VALUE. The unconstrained peer oracle (R262, U3, U4): the wire byte the peer answers, given how many resets the
block has seen (a reset of the block does not reset the peer, R292), the trace so far and the wire byte sent (log entry 12). -/
opaque peer : Nat → List Event → Byte → Byte

/-- FREE VALUE. The k-th draw of an unspecified byte (R55, R81; U1, U2; log entries 10 and 11). -/
opaque freeByte : Nat → Byte

/-- FREE VALUE. The k-th draw of a choice: whether a read of RESULT while BUSY = 1 returns the register or 0 (R81, U5;
log entry 11). -/
opaque freeChoice : Nat → Bool

/-- FREE VALUE. What a host-local name holds that the host program has not assigned (R110 gives it no value;
log entry 9). -/
opaque unassigned : Nat → Word

/-- FREE VALUE. What a host bit slice `v[hi:lo]` gives where it names no bits of a 32-bit value, `hi < lo` or `hi > 31`
(R15 and R110 give it no value; log entry 26). -/
opaque unstatedSlice : Word → Nat → Nat → Word

end Config

end Sys2Proof
end

