-- ==== Sys2Proof/Syntax.lean ====
section
/-! DEFINITION. The nine operations (00_scope.md R6, 30_encoding.md R101), one constructor per row of spec/opcode_table.json. -/

namespace Sys2Proof

/-- The operation set (R6): exactly nine operations, with the operands the "fields used" column of R101 gives each.
The data byte `v` is bits (R107); the length `n` and the budget `b` are counts, whose encodable range
`Instr.wf` checks (R109). -/
inductive Instr where
  /-- BITREV v (R136): bit-order transform of one byte, no bus activity. -/
  | bitrev (v : Byte)
  /-- XFER_WR v (R138): one raw byte sent. -/
  | xferWr (v : Byte)
  /-- XFER_RD (R140): one raw byte received. -/
  | xferRd
  /-- WRITE_CMD n (R165): send CMD_BUF[0..n-1] as one command frame. -/
  | writeCmd (n : Nat)
  /-- READ_DATA n (R168): read n raw bytes into RSP_BUF[0..n-1]. -/
  | readData (n : Nat)
  /-- WAIT_READY b (R194): poll the ready status at most b times. -/
  | waitReady (b : Nat)
  /-- CHECK_ACK (R197): read six bytes and compare them with the ACK frame. -/
  | checkAck
  /-- EXECUTE n, b (R222): the four-gate exchange with CMD_BUF[0..n-1] and budget b. -/
  | execute (n b : Nat)
  /-- GET_FW (R226): the exchange with the firmware-version command, then a 12-byte read. -/
  | getFw
  deriving DecidableEq, Repr

/-- The mnemonic of each operation as R101 and R109 spell it. -/
def Instr.mnemonic : Instr → String
  | .bitrev _ => "BITREV"
  | .xferWr _ => "XFER_WR"
  | .xferRd => "XFER_RD"
  | .writeCmd _ => "WRITE_CMD"
  | .readData _ => "READ_DATA"
  | .waitReady _ => "WAIT_READY"
  | .checkAck => "CHECK_ACK"
  | .execute _ _ => "EXECUTE"
  | .getFw => "GET_FW"

end Sys2Proof
end

