-- ==== Sys2Proof/Machine/State.lean ====
section
/-! DEFINITION. The state of the block, of the agents around it (00_scope.md R5) and its value after reset
(10_state.md R30 to R55). Plain data throughout. INVENTORY.md's State section lists every field with its rule. -/

namespace Sys2Proof.Machine

/-- The completion codes of STATUS.CODE (R38, R250). Codes 5 to 15 are never produced, so they are not here. -/
inductive Code where
  | ok
  | timeout
  | nack
  | illegalOp
  | argErr
  deriving DecidableEq, Repr

/-- The values of STATUS.STAGE (R39): 0 outside an exchange, 1 to 5 the stage in progress or the stage whose gate
failed. Values 6 and 7 are never produced, so they are not here. -/
inductive Stage where
  | none
  | frameWrite
  | poll1
  | ackCheck
  | poll2
  | responseRead
  deriving DecidableEq, Repr

/-- The stored fields of STATUS (R34). POLLS is a view of `SEQ.polls` (R40) and the reserved bits read 0, so neither is
stored here; `statusWord` (Flags.lean) assembles the 32-bit register the host reads. -/
structure Status where
  /-- STATUS.BUSY, bit 0 (R35). -/
  busy : Bool
  /-- STATUS.DONE, bit 1 (R36). -/
  done : Bool
  /-- STATUS.OVR, bit 2 (R37). -/
  ovr : Bool
  /-- STATUS.CODE, bits 7:4 (R38). -/
  code : Code
  /-- STATUS.STAGE, bits 10:8 (R39). -/
  stage : Stage
  deriving DecidableEq, Repr

/-- Where the Frame Writer takes the command bytes from (R164: `src`). -/
inductive CmdSource where
  /-- CMD_BUF (WRITE_CMD and EXECUTE, R165, R222). -/
  | cmdBuf
  /-- The 1-byte command `P_FW_OPCODE` held inside the sequencer (GET_FW, R223). -/
  | firmware
  deriving DecidableEq, Repr

/-- A straight-line statement of the operations' pseudocode: one sequencer step, with one bus event or one internal
computation (R73, D34). A pseudocode line with one event is one statement together with what the line computes
from the same byte; a line with several events is one statement per event. -/
inductive Act where
  /-- `CsAssert()` (R18). -/
  | csAssert
  /-- `CsDeassert()` (R18). -/
  | csDeassert
  /-- `Delay()` (R18, R259). -/
  | delay
  /-- `WriteByte(v)` (R132). -/
  | write (v : Byte)
  /-- `WriteByte(P_TFI); SEQ.acc <- P_TFI` (R164). -/
  | writeTfi
  /-- `SEQ.idx <- i` (R163, R164). -/
  | setIdx (i : Nat)
  /-- `WriteByte(src[i]); SEQ.acc <- SEQ.acc +8 src[i]` with `i = SEQ.idx` (R164). -/
  | writeCommandByte (src : CmdSource)
  /-- `WriteByte(neg8(SEQ.acc))` (R164). -/
  | writeDataChecksum
  /-- `RSP_BUF[i] <- ReadByte()` with `i = SEQ.idx` (R163). -/
  | readResponseByte
  /-- `SEQ.ack[i] <- ReadByte()` (R195). -/
  | readAckByte (i : Fin 6)
  /-- `st <- ReadByte()` (R190). -/
  | readStatusByte
  /-- `RESULT <- zext_32(ReadByte())` (R140). -/
  | readResult
  /-- `SEQ.cnt <- b` (R190). -/
  | setCnt (b : Half)
  /-- `SEQ.cnt <- SEQ.cnt - 1` (R190). -/
  | decCnt
  /-- `SEQ.polls <- SEQ.polls + 1` (R190). -/
  | countPoll
  /-- `STATUS.STAGE <- k` (R220, R226). -/
  | setStage (k : Stage)
  /-- `RESULT <- v`. -/
  | setResult (v : Word)
  /-- `RESULT <- (RSP_BUF[0] << 24) | ... | RSP_BUF[3]` (R226). -/
  | packFirmware
  deriving DecidableEq, Repr

/-- A statement of the operations' pseudocode with its control flow (R229: the loop of a poll, the gates, the checks). -/
inductive Stmt where
  /-- `Dispatch()` (R103). -/
  | dispatch
  /-- A straight-line statement. -/
  | act (a : Act)
  /-- `if n < 1 or n > max: Finish(ARG_ERR, 0); return` (R165, R168, R222). -/
  | lengthGate (n max : Nat)
  /-- The head of the poll loop: `if SEQ.cnt == 0: return false` (R190), failing with TIMEOUT and this stage. -/
  | pollHead (stage : Stage)
  /-- `if st == P_READY: return true` (R190), else the rest of the iteration and the head again. -/
  | pollTest (stage : Stage)
  /-- `if not AckCheck(): return (NACK, stage)`, after the six bytes were read (R195, R220). -/
  | ackGate (stage : Stage)
  /-- `Finish(code, stage)` (R253). -/
  | finish (code : Code) (stage : Stage)
  deriving DecidableEq, Repr

/-- `SEQ.phase` (R42): Idle, or Running with the position in the current operation's pseudocode, which is held as the
statements that are still to run (DESIGN CHOICE, log entry 7). -/
inductive Phase where
  | idle
  | running (rest : List Stmt)
  deriving DecidableEq, Repr

/-- The internal sequencer state (R41 to R47). -/
structure SeqState where
  /-- `SEQ.opw` (R41): the operation word latched at acceptance. -/
  opw : Word
  /-- `SEQ.phase` (R42). -/
  phase : Phase
  /-- `SEQ.acc` (R43): the checksum accumulator. -/
  acc : Byte
  /-- `SEQ.cnt` (R44): the remaining retry budget. -/
  cnt : Half
  /-- `SEQ.idx` (R45): the index of the next command or response byte, 0 to 256. -/
  idx : Half
  /-- `SEQ.polls` (R46): the poll iterations of the current operation. -/
  polls : Word
  /-- `SEQ.ack[0..5]` (R47, 6 x u8): the acknowledgment bytes, each from the read of it until the operation completes. -/
  ack : Vector Byte 6
  /-- `st`, the local variable of PollReady (R190): the logical status byte read last. -/
  st : Byte
  deriving DecidableEq, Repr

/-- The comparisons of a host-local computation (R110). -/
inductive Comparison where
  | eq
  | ne
  | lt
  | le
  | gt
  | ge
  deriving DecidableEq, Repr

/-- A host-local expression on 32-bit host values (R110): `+`, `-`, comparisons and bit slices; names are numbered. -/
inductive HostExpr where
  | const (w : Word)
  | name (x : Nat)
  | add (a b : HostExpr)
  | sub (a b : HostExpr)
  | slice (e : HostExpr) (hi lo : Nat)
  | compare (op : Comparison) (a b : HostExpr)
  deriving DecidableEq, Repr

/-- A line of a host program (R110). `off` is a byte offset from BASE, `width` the access width in bytes, `target` the
number of the line a label stands at. -/
inductive HostStmt where
  /-- `sw off, v` (width 4), `sh off, v` (2), `sb off, v` (1): `MemWrite(off, width, v)`. -/
  | store (width off : Nat) (value : HostExpr)
  /-- `lw off -> name` (width 4), `lh` (2), `lb` (1): `name <- MemRead(off, width)`. -/
  | load (width off name : Nat)
  /-- `name <- expr`. -/
  | assign (name : Nat) (value : HostExpr)
  /-- `if cond goto L`. -/
  | branch (cond : HostExpr) (target : Nat)
  deriving DecidableEq, Repr

/-- The host agent (R5, R72): its program, the line it is at, and the values of its local names, sorted by name. -/
structure HostAgent where
  prog : List HostStmt
  pos : Nat
  vars : List (Nat × Word)
  deriving DecidableEq, Repr

/-- The peer agent (R262, R263) as the state holds it: the wire bytes it has been scripted to answer next, and what it
answers once the script is used up: a fixed byte, or (`none`) whatever the unconstrained oracle `Config.peer` answers. -/
structure PeerAgent where
  script : List Byte
  rest : Option Byte
  deriving DecidableEq, Repr

/-- Which agent moves in a step (R73: any interleaving), or the reset input (R290). -/
inductive Turn where
  /-- The host performs its next program line. -/
  | host
  /-- The sequencer takes one step (R73). -/
  | sequencer
  /-- The sequencer runs a just accepted operation from Dispatch to Finish, no host access falling in between
  (one of the interleavings R73 admits). -/
  | operation
  /-- The reset input is asserted, between two steps (R290, R291). -/
  | reset
  deriving DecidableEq, Repr

/-- The whole machine: the block (R30 to R52), and the model's own fields that hold the agents around it. -/
structure State where
  /-- STATUS (R34), without POLLS, which is a view of `seq.polls`. -/
  status : Status
  /-- RESULT (R33). -/
  result : Word
  /-- The internal sequencer state `SEQ` (R41 to R47). -/
  seq : SeqState
  /-- The buffers CMD_BUF (offsets 0x100 to 0x1FF) and RSP_BUF (0x200 to 0x2FF) of the host window (R48, R49, R71):
  the bytes written since reset, by offset, offsets strictly rising. -/
  mem : List Host.Cell
  /-- CS (R51): true when chip-select is asserted. -/
  cs : Bool
  /-- TRACE (R52): the bus events since reset, oldest first. -/
  trace : List Event
  /-- The chip-specific parameters (R10 to R12, R53): configuration, written by no step. -/
  params : Params
  /-- The host agent (R5, R72). The model's own field. -/
  host : HostAgent
  /-- The peer agent (R5, R262). The model's own field. -/
  peer : PeerAgent
  /-- The turns the coming steps take (R73). The model's own field. -/
  sched : List Turn
  /-- How many unspecified values have been drawn (R55, R81). The model's own field. -/
  draws : Nat
  /-- How many times the reset input was asserted (R290, R292). The model's own field. -/
  resets : Nat
  deriving DecidableEq, Repr

/-- Why a step stops. -/
inductive Fault where
  /-- HostAccessFault (R255): raised by a host access that the window does not permit (R71, R74). Safe: the spec itself
  has a model treat the access as a fault of the host program, and the block's state does not change. -/
  | hostAccess (off width : Nat) (write : Bool)
  deriving DecidableEq, Repr

/-- Why an instruction is refused. No arm of `exec` refuses. -/
inductive Refusal where
  /-- Raised by an arm of `exec` whose instruction has no meaning yet. Safe. No arm raises it. -/
  | notModelled (mnemonic : String)
  deriving DecidableEq, Repr

/-- STATUS after reset (R54): 0x00000000. -/
def Status.reset : Status where
  busy := false
  done := false
  ovr := false
  code := .ok
  stage := .none

/-- What `SEQ.ack` holds where the block keeps no copy of acknowledgment bytes (R47): after reset, where R54 leaves it
unspecified (U7), and once an operation has completed. DESIGN CHOICE: six bytes 0 (log entry 21). -/
def noAck : Vector Byte 6 := #v[0x00, 0x00, 0x00, 0x00, 0x00, 0x00]

/-- `SEQ` after reset (R54): idle with no polls. DESIGN CHOICE: the registers R54 leaves unspecified (U7) and the local
`st` are 0 (log entry 4; `SEQ.ack`, log entry 21). -/
def SeqState.reset : SeqState where
  opw := 0
  phase := .idle
  acc := 0
  cnt := 0
  idx := 0
  polls := 0
  ack := noAck
  st := 0

/-- The machine right after reset (R54, R290): the block idle with an empty trace and buffers nothing has written.
The parameters are the reference values (log entry 1), the host has no program, the peer is the unconstrained oracle,
and no turn is scheduled (log entries 2, 3 and 6). -/
def State.reset : State where
  status := Status.reset
  result := 0
  seq := SeqState.reset
  mem := []
  cs := false
  trace := []
  params := Params.reference
  host := { prog := [], pos := 0, vars := [] }
  peer := { script := [], rest := none }
  sched := []
  draws := 0
  resets := 0

end Sys2Proof.Machine
end

