-- ==== Sys2Proof/Machine/Flags.lean ====
section
/-! DEFINITION. STATUS as the host reads and writes it (10_state.md R34 to R40). -/

namespace Sys2Proof.Machine

/-- STATUS.CODE as its 4 bits (R38). -/
def codeBits : Code → BitVec 4
  | .ok => 0
  | .timeout => 1
  | .nack => 2
  | .illegalOp => 3
  | .argErr => 4

/-- STATUS.STAGE as its 3 bits (R39). -/
def stageBits : Stage → BitVec 3
  | .none => 0
  | .frameWrite => 1
  | .poll1 => 2
  | .ackCheck => 3
  | .poll2 => 4
  | .responseRead => 5

/-- STATUS.POLLS (R40): `min(SEQ.polls, 0xFFFF)`. -/
def pollsField (polls : Word) : Half := BitVec.ofNat 16 (min polls.toNat 0xFFFF)

/-- The STATUS register the host reads (R34): POLLS, reserved, STAGE, CODE, reserved, OVR, DONE, BUSY, most
significant first. The reserved bits read 0. -/
def statusWord (s : State) : Word :=
  pollsField s.seq.polls ++ (0 : BitVec 5) ++ stageBits s.status.stage ++ codeBits s.status.code ++
    (0 : BitVec 1) ++ BitVec.ofBool s.status.ovr ++ BitVec.ofBool s.status.done ++ BitVec.ofBool s.status.busy

/-- STATUS.OVR after a host write of `v` to STATUS (R34): write 1 to bit 2 clears it, 0 leaves it. -/
def ovrAfterStatusWrite (ovr : Bool) (v : Word) : Bool := ovr && !v[2]

end Sys2Proof.Machine
end

