-- ==== Sys2Proof/WellFormed.lean ====
section
/-! DEFINITION. Which operations can be assembled into an operation word (30_encoding.md R109). -/

namespace Sys2Proof

/-- A length operand fits ARG8 (R107, R109: `n` in 0..255). -/
abbrev lengthFits (n : Nat) : Bool := n < 256

/-- A budget operand fits BUDGET (R107, R109: `b` in 0..65535). -/
abbrev budgetFits (b : Nat) : Bool := b < 65536

/-- R109: "An assembler refuses `n`, `v` or `b` out of its range; it does not refuse `n = 0` or `n = 255`".
(A data byte `v` is a `Byte`, so it has no other range.) Operand LEGALITY (R108) is not checked here:
an operation with an illegal length is well formed and completes with ARG_ERR. -/
def Instr.wf : Instr → Bool
  | .bitrev _ => true
  | .xferWr _ => true
  | .xferRd => true
  | .writeCmd n => lengthFits n
  | .readData n => lengthFits n
  | .waitReady b => budgetFits b
  | .checkAck => true
  | .execute n b => lengthFits n && budgetFits b
  | .getFw => true

end Sys2Proof
end

