-- ==== Sys2Proof/Decode.lean ====
section
/-! DEFINITION. The operation word (30_encoding.md R100 to R109): its fields, the decoder, total and rejecting by name,
and the encoder written from the same encoding tables. -/

namespace Sys2Proof

/-- OPC, bits 3:0 of the operation word (R100). -/
def opcField (w : Word) : BitVec 4 := w.extractLsb' 0 4

/-- RSV, bits 7:4 of the operation word (R100). -/
def rsvField (w : Word) : BitVec 4 := w.extractLsb' 4 4

/-- ARG8, bits 15:8 of the operation word (R100). -/
def arg8Field (w : Word) : Byte := w.extractLsb' 8 8

/-- BUDGET, bits 31:16 of the operation word (R100). -/
def budgetField (w : Word) : Half := w.extractLsb' 16 16

/-- Why an operation word selects no operation. Each of the two completes with ILLEGAL_OP (R104, R105). -/
inductive DecodeError where
  /-- RSV (bits 7:4) is not zero (R105). -/
  | reservedField (rsv : BitVec 4)
  /-- OPC is 0x0 or 0xA to 0xF (R104). -/
  | reservedOpcode (opc : BitVec 4)
  deriving DecidableEq, Repr

/-- The operation an operation word selects (R101, R103), its operands taken from the word as R107 says; fields an
operation does not use are ignored (R106). The length checks of R108 are the operations' own (R103). -/
def decode (w : Word) : Except DecodeError Instr :=
  if rsvField w ≠ 0 then .error (.reservedField (rsvField w))
  else
    match (opcField w).toNat with
    | 0x1 => .ok (.bitrev (arg8Field w))
    | 0x2 => .ok (.xferWr (arg8Field w))
    | 0x3 => .ok .xferRd
    | 0x4 => .ok (.writeCmd (arg8Field w).toNat)
    | 0x5 => .ok (.readData (arg8Field w).toNat)
    | 0x6 => .ok (.waitReady (budgetField w).toNat)
    | 0x7 => .ok .checkAck
    | 0x8 => .ok (.execute (arg8Field w).toNat (budgetField w).toNat)
    | 0x9 => .ok .getFw
    | _ => .error (.reservedOpcode (opcField w))

/-- An operation word from its four fields, most significant first: BUDGET, ARG8, RSV, OPC (R100). -/
def operationWord (budget : Half) (arg8 : Byte) (rsv opc : BitVec 4) : Word :=
  budget ++ arg8 ++ rsv ++ opc

/-- The operation code of each operation (R101). -/
def Instr.opcode : Instr → BitVec 4
  | .bitrev _ => 0x1
  | .xferWr _ => 0x2
  | .xferRd => 0x3
  | .writeCmd _ => 0x4
  | .readData _ => 0x5
  | .waitReady _ => 0x6
  | .checkAck => 0x7
  | .execute _ _ => 0x8
  | .getFw => 0x9

/-- The ARG8 field of each operation's word: the byte operand or the length, 0 where it is not used (R101, R109). -/
def Instr.arg8 : Instr → Byte
  | .bitrev v => v
  | .xferWr v => v
  | .xferRd => 0
  | .writeCmd n => BitVec.ofNat 8 n
  | .readData n => BitVec.ofNat 8 n
  | .waitReady _ => 0
  | .checkAck => 0
  | .execute n _ => BitVec.ofNat 8 n
  | .getFw => 0

/-- The BUDGET field of each operation's word, 0 where it is not used (R101, R109). -/
def Instr.budget : Instr → Half
  | .bitrev _ => 0
  | .xferWr _ => 0
  | .xferRd => 0
  | .writeCmd _ => 0
  | .readData _ => 0
  | .waitReady b => BitVec.ofNat 16 b
  | .checkAck => 0
  | .execute _ b => BitVec.ofNat 16 b
  | .getFw => 0

/-- The operation word of a well-formed operation (R109: unused fields are written as 0). -/
def encode (i : Instr) : Word := operationWord i.budget i.arg8 0 i.opcode

/-- The assembler of R109: it refuses an operand out of its range, and nothing else. -/
def assemble (i : Instr) : Option Word := if i.wf then some (encode i) else none

/-- The instruction the decoder reads from a table word of `nbits` bits (R100: one 32-bit word, bit 0 the least
significant; every bit above `nbits` is 0). -/
def decodeTableWord (nbits w : Nat) : Option Instr :=
  match decode (BitVec.ofNat 32 (w % 2 ^ nbits)) with
  | .ok i => some i
  | .error _ => none

end Sys2Proof
end

