-- ==== Sys2Proof/Machine/Operands.lean ====
section
/-! DEFINITION. Operand and byte computations: the bit-order transform (40_transport.md R130, R131), the checksum
arithmetic (41_framing.md R161, R162), byte order (20_memory.md R75, 43_sequencer.md R225) and the shift register
(00_scope.md R18). -/

namespace Sys2Proof.Machine

/-- `rev8(b)` (R130): bit i of the result is bit 7-i of `b`. -/
def rev8 (b : Byte) : Byte :=
  b.extractLsb' 0 1 ++ b.extractLsb' 1 1 ++ b.extractLsb' 2 1 ++ b.extractLsb' 3 1 ++
  b.extractLsb' 4 1 ++ b.extractLsb' 5 1 ++ b.extractLsb' 6 1 ++ b.extractLsb' 7 1

/-- `a +8 b` (R15): addition modulo 256. -/
def add8 (a b : Byte) : Byte := a + b

/-- `neg8(a)` (R15): the two's complement of `a` in 8 bits, `(256 - a) mod 256`. -/
def neg8 (a : Byte) : Byte := -a

/-- The length byte of a command frame, `LEN = n + 1` (R162). -/
def frameLen (n : Nat) : Byte := BitVec.ofNat 8 (n + 1)

/-- The length checksum of a command frame, `LCS = neg8(LEN)` (R162). -/
def frameLenChecksum (n : Nat) : Byte := neg8 (frameLen n)

/-- The checksum accumulator after the command bytes (R161): `P_TFI`, then each byte folded in by `+8`. -/
def checksumAcc (tfi : Byte) (cmd : List Byte) : Byte := cmd.foldl add8 tfi

/-- The logical bytes of a command frame in transmission order (R160): `P_DW`, preamble, start code, LEN, LCS, `P_TFI`,
the command bytes, DCS, postamble. -/
def commandFrame (p : Params) (cmd : List Byte) : List Byte :=
  [p.dataWrite, Config.preamble, Config.start0, Config.start1,
    frameLen cmd.length, frameLenChecksum cmd.length, p.tfi] ++
  cmd ++ [neg8 (checksumAcc p.tfi cmd), Config.postamble]

/-- The 32-bit value of at most four bytes, the first the least significant (R75, little-endian). -/
def leValue : List Byte → Word
  | [] => 0
  | b :: rest => b.setWidth 32 ||| (leValue rest <<< 8)

/-- Byte k of a host value (R75): `v[8k+7:8k]`. -/
def leByte (v : Word) (k : Nat) : Byte := v.extractLsb' (8 * k) 8

/-- The firmware value of four bytes (R225): big-endian, the first byte the most significant. -/
def firmwareValue (b0 b1 b2 b3 : Byte) : Word :=
  (b0.setWidth 32 <<< 24) ||| (b1.setWidth 32 <<< 16) ||| (b2.setWidth 32 <<< 8) ||| b3.setWidth 32

/-- A length operand is legal (R108): `1 <= n <= max`. -/
def lengthLegal (n max : Nat) : Bool := 1 ≤ n && n ≤ max

/-- The bits of a shift-register value in the order they go out on the wire (R18, R131): most significant bit first. -/
def wireBits (m : Byte) : List Bool := [m[7], m[6], m[5], m[4], m[3], m[2], m[1], m[0]]

/-- One bit time of a transfer (R18): bit 7 leaves, the sampled bit enters at bit 0. -/
def shiftBit (reg : Byte) (sampled : Bool) : Bool × Byte :=
  (reg[7], (reg <<< 1) ||| (BitVec.ofBool sampled).setWidth 8)

/-- The bit times of a transfer (R18, R131) for the sampled bits in order: the bits sent, and the register after. -/
def shiftBits : Byte → List Bool → List Bool × Byte
  | reg, [] => ([], reg)
  | reg, b :: rest =>
    let out := shiftBit reg b
    let tail := shiftBits out.2 rest
    (out.1 :: tail.1, tail.2)

end Sys2Proof.Machine
end

