-- ==== Sys2Proof/Machine/Ops.lean ====
section
/-! DEFINITION. The named operations on the buffers, the bus and the registers: buffer bytes and draws (10_state.md R48,
R49, R55), the bus primitives (00_scope.md R18), the byte transport (40_transport.md R132, R133), the straight-line
statements of the sequencer, acceptance (30_encoding.md R102), completion (60_exceptions.md R253: what stands where a
trap-based machine has its exception entry, R254) and the reset input (70_reset_and_hazards.md R290, R291). -/

namespace Sys2Proof.Machine

/-! ### Sorted lists of key and value pairs -/

/-- The value at a key, if the list has one. -/
def assocGet {α : Type} : List (Nat × α) → Nat → Option α
  | [], _ => none
  | (k, v) :: rest, a => if k = a then some v else assocGet rest a

/-- The list with the value at a key set, keys kept strictly rising. -/
def assocSet {α : Type} : List (Nat × α) → Nat → α → List (Nat × α)
  | [], a, v => [(a, v)]
  | (k, w) :: rest, a, v =>
    if a < k then (a, v) :: (k, w) :: rest
    else if a = k then (a, v) :: rest
    else (k, w) :: assocSet rest a v

/-- The keys are strictly rising and all at least `lo`. -/
def assocRisingFrom {α : Type} : Nat → List (Nat × α) → Bool
  | _, [] => true
  | lo, (k, _) :: rest => lo ≤ k && assocRisingFrom (k + 1) rest

/-! ### The buffers -/

/-- The window offset of CMD_BUF[i] (R71). -/
def cmdOffset (i : Nat) : Nat := 0x100 + i

/-- The window offset of RSP_BUF[i] (R71). -/
def rspOffset (i : Nat) : Nat := 0x200 + i

/-- The offset is one of the 512 bytes the two buffers have (R48, R49, R71). -/
def isBufferOffset (off : Nat) : Bool := 0x100 ≤ off && off < 0x300

/-- The canonical form of the buffers: offsets strictly rising, each a buffer byte. A byte that nothing has written has
no entry (it reads as a draw, R55), so no entry equals what an unlisted offset reads as. -/
def Memory.wf (m : List Host.Cell) : Bool := assocRisingFrom 0 m && m.all fun c => isBufferOffset c.1

/-- The buffer byte at a window offset, if something has written it since reset (R55). -/
def State.byteAt (s : State) (off : Nat) : Option Byte := assocGet s.mem off

/-- CMD_BUF[i] or RSP_BUF[i] written by its window offset. -/
def State.setByte (s : State) (off : Nat) (b : Byte) : State := { s with mem := assocSet s.mem off b }

/-- A draw (R55, R81): a fresh unconstrained byte. -/
def State.drawByte (s : State) : Byte × State := (Config.freeByte s.draws, { s with draws := s.draws + 1 })

/-- A read of one buffer byte (R55): its contents, or a draw if nothing has written it since reset. -/
def State.readByteAt (s : State) (off : Nat) : Byte × State :=
  match s.byteAt off with
  | some b => (b, s)
  | none => s.drawByte

/-! ### The bus -/

/-- `Emit(e)` (R18, R52). -/
def State.emit (s : State) (e : Event) : State := { s with trace := s.trace ++ [e] }

/-- `CsAssert()` (R18). -/
def csAssert (s : State) : State := State.emit { s with cs := true } .csOn

/-- `CsDeassert()` (R18). -/
def csDeassert (s : State) : State := State.emit { s with cs := false } .csOff

/-- `Delay()` (R18, R259). The wait is taken to end (R304). -/
def delay (s : State) : State := s.emit .delay

/-- The physical level of the chip-select line (R14, R51). -/
def csPin (s : State) : Bool := s.cs != Config.csActiveLow

/-- What the peer answers to the wire byte `m` (R262, R263): the next byte of its script, then its standing answer, and
without one whatever the unconstrained oracle answers with sight of the trace and of `m`. -/
def peerAnswer (m : Byte) (s : State) : Byte :=
  match s.peer.script with
  | b :: _ => b
  | [] => s.peer.rest.getD (Config.peer s.resets s.trace m)

/-- `Xfer(m)` (R18): the peer's answer, with the event `X(m, answer)` emitted. The wait for the shift register is taken
to end (R134, R304). -/
def xfer (m : Byte) (s : State) : Byte × State :=
  (peerAnswer m s,
    State.emit { s with peer := { s.peer with script := s.peer.script.tail } } (.xfer m (peerAnswer m s)))

/-- `WriteByte(v)` (R132): the byte received is discarded. -/
def writeByte (v : Byte) (s : State) : State := (xfer (rev8 v) s).2

/-- `ReadByte()` (R133): the placeholder goes out as it stands, the received byte is reversed. -/
def readByte (s : State) : Byte × State := (rev8 (xfer Config.readFill s).1, (xfer Config.readFill s).2)

/-! ### The straight-line statements of the sequencer -/

/-- `src[i]` (R164): a command byte, from CMD_BUF (a draw if nothing has written it, R55) or the sequencer's own. -/
def commandByte (src : CmdSource) (i : Nat) (s : State) : Byte × State :=
  match src with
  | .cmdBuf => s.readByteAt (cmdOffset i)
  | .firmware => (s.params.fwOpcode, s)

/-- `WriteByte(P_TFI); SEQ.acc <- P_TFI` (R164). -/
def writeTfi (s : State) : State :=
  let t := writeByte s.params.tfi s
  { t with seq := { t.seq with acc := s.params.tfi } }

/-- `WriteByte(src[i]); SEQ.acc <- SEQ.acc +8 src[i]` with `i = SEQ.idx` (R164): the command byte is read once, so the
byte sent is the byte the checksum covers (R166; log entry 8). -/
def writeCommandByte (src : CmdSource) (s : State) : State :=
  let c := commandByte src s.seq.idx.toNat s
  let t := writeByte c.1 c.2
  { t with seq := { t.seq with acc := add8 t.seq.acc c.1 } }

/-- `RSP_BUF[i] <- ReadByte()` with `i = SEQ.idx` (R163). -/
def readResponseByte (s : State) : State :=
  let r := readByte s
  r.2.setByte (rspOffset s.seq.idx.toNat) r.1

/-- `SEQ.ack[i] <- ReadByte()` (R195). -/
def readAckByte (i : Fin 6) (s : State) : State :=
  let r := readByte s
  { r.2 with seq := { r.2.seq with ack := r.2.seq.ack.set i r.1 } }

/-- `st <- ReadByte()` (R190). -/
def readStatusByte (s : State) : State :=
  let r := readByte s
  { r.2 with seq := { r.2.seq with st := r.1 } }

/-- `RESULT <- zext_32(ReadByte())` (R140). -/
def readResult (s : State) : State :=
  let r := readByte s
  { r.2 with result := r.1.setWidth 32 }

/-- `SEQ.idx <- i` (R163, R164). -/
def setIdx (i : Nat) (s : State) : State := { s with seq := { s.seq with idx := BitVec.ofNat 16 i } }

/-- `SEQ.cnt <- b` (R190). -/
def setCnt (b : Half) (s : State) : State := { s with seq := { s.seq with cnt := b } }

/-- `SEQ.cnt <- SEQ.cnt - 1` (R190). -/
def decCnt (s : State) : State := { s with seq := { s.seq with cnt := s.seq.cnt - 1 } }

/-- `SEQ.polls <- SEQ.polls + 1` (R46, R190). -/
def countPoll (s : State) : State := { s with seq := { s.seq with polls := s.seq.polls + 1 } }

/-- `STATUS.STAGE <- k` (R220). -/
def setStage (k : Stage) (s : State) : State := { s with status := { s.status with stage := k } }

/-- `RESULT <- v`. -/
def setResult (v : Word) (s : State) : State := { s with result := v }

/-- `RESULT <- (RSP_BUF[0] << 24) | (RSP_BUF[1] << 16) | (RSP_BUF[2] << 8) | RSP_BUF[3]` (R225, R226). -/
def packFirmware (s : State) : State :=
  let r0 := s.readByteAt (rspOffset 0)
  let r1 := r0.2.readByteAt (rspOffset 1)
  let r2 := r1.2.readByteAt (rspOffset 2)
  let r3 := r2.2.readByteAt (rspOffset 3)
  { r3.2 with result := firmwareValue r0.1 r1.1 r2.1 r3.1 }

/-- The effect of a straight-line statement: one sequencer step (R73). -/
def runAct : Act → State → State
  | .csAssert, s => csAssert s
  | .csDeassert, s => csDeassert s
  | .delay, s => delay s
  | .write v, s => writeByte v s
  | .writeTfi, s => writeTfi s
  | .setIdx i, s => setIdx i s
  | .writeCommandByte src, s => writeCommandByte src s
  | .writeDataChecksum, s => writeByte (neg8 s.seq.acc) s
  | .readResponseByte, s => readResponseByte s
  | .readAckByte i, s => readAckByte i s
  | .readStatusByte, s => readStatusByte s
  | .readResult, s => readResult s
  | .setCnt b, s => setCnt b s
  | .decCnt, s => decCnt s
  | .countPoll, s => countPoll s
  | .setStage k, s => setStage k s
  | .setResult v, s => setResult v s
  | .packFirmware, s => packFirmware s

/-- Straight-line statements in program order. -/
def runActs : List Act → State → State
  | [], s => s
  | a :: rest, s => runActs rest (runAct a s)

/-! ### Acceptance, completion and reset -/

/-- `Finish(code, stage)` (R253): all five writes in one step; no bus event, RESULT and RSP_BUF not written. With it the
operation is complete, so no copy of the acknowledgment bytes is kept (R47): `SEQ.ack` is cleared (log entry 21). -/
def finish (code : Code) (stage : Stage) (s : State) : State :=
  { s with
    status := { s.status with code := code, stage := stage, done := true, busy := false }
    seq := { s.seq with phase := .idle, ack := noAck } }

/-- The acceptance of an operation word (R102), one atomic step with the host's write. -/
def accept (w : Word) (s : State) : State :=
  { s with
    status := { s.status with busy := true, done := false, code := .ok, stage := .none }
    result := 0
    seq := { s.seq with opw := w, polls := 0, phase := .running [.dispatch] } }

/-- STATUS.OVR <- 1, the whole effect of a dropped host write (R76). -/
def setOvr (s : State) : State := { s with status := { s.status with ovr := true } }

/-- The reset input (R290, R291): every piece of the block's state takes its reset value and a new trace begins. The
configuration (R53), the host, the peer (R292), the schedule and the counts of draws and resets are not the block's (log entry 18). -/
def resetInput (s : State) : State :=
  { State.reset with
    params := s.params
    host := s.host
    peer := s.peer
    sched := s.sched
    draws := s.draws
    resets := s.resets + 1 }

end Sys2Proof.Machine
end

