-- ==== Sys2Proof/Machine/Framing.lean ====
section
/-! DEFINITION. The Frame Writer and the Frame Reader, WRITE_CMD and READ_DATA (41_framing.md). A procedure's straight-line
pseudocode is written once, as the list of its statements; the operations run the list whole, the sequencer
(Sequencer.lean) runs it a statement at a time. -/

namespace Sys2Proof.Machine

/-- `WriteFrame(src, n)` (R164), statement by statement: the frame of R160 between `CS+, D` and `D, CS-`. -/
def writeFrameCode (p : Params) (src : CmdSource) (n : Nat) : List Act :=
  [.csAssert, .delay, .write p.dataWrite, .write Config.preamble, .write Config.start0, .write Config.start1,
    .write (frameLen n), .write (frameLenChecksum n), .writeTfi] ++
  (List.range n).flatMap (fun i => [.setIdx i, .writeCommandByte src]) ++
  [.writeDataChecksum, .write Config.postamble, .delay, .csDeassert]

/-- `WriteFrame(src, n)` (R164). -/
def writeFrame (src : CmdSource) (n : Nat) (s : State) : State := runActs (writeFrameCode s.params src n) s

/-- `ReadFrame(n)` (R163), statement by statement. -/
def readFrameCode (p : Params) (n : Nat) : List Act :=
  [.csAssert, .delay, .write p.dataRead] ++
  (List.range n).flatMap (fun i => [.setIdx i, .readResponseByte]) ++
  [.delay, .csDeassert]

/-- `ReadFrame(n)` (R163). -/
def readFrame (n : Nat) (s : State) : State := runActs (readFrameCode s.params n) s

/-- WRITE_CMD (R165): ARG_ERR when n is not 1 to 254, else the frame of CMD_BUF[0..n-1]. -/
def execWriteCmd (n : Nat) (s : State) : Host.Outcome State Fault Refusal :=
  .next (if lengthLegal n Config.maxCmdLen then finish .ok .none (writeFrame .cmdBuf n s)
    else finish .argErr .none s)

/-- READ_DATA (R168, R108; log entry 17): ARG_ERR when n is not 1 to 255, else RSP_BUF[0..n-1] from the bus. -/
def execReadData (n : Nat) (s : State) : Host.Outcome State Fault Refusal :=
  .next (if lengthLegal n Config.maxRdLen then finish .ok .none (readFrame n s)
    else finish .argErr .none s)

end Sys2Proof.Machine
end

