-- ==== Sys2Proof/Machine/PollAck.lean ====
section
/-! DEFINITION. The readiness poller and the acknowledgment validator, WAIT_READY and CHECK_ACK (42_poll_ack.md). -/

namespace Sys2Proof.Machine

/-- The chip-select frame of one poll iteration with the count of it (R190), statement by statement. -/
def pollFrameCode (p : Params) : List Act :=
  [.csAssert, .delay, .write p.statusRead, .readStatusByte, .delay, .csDeassert, .countPoll]

/-- What follows in an iteration that did not read `P_READY` (R190): one more tick, and the budget one less. -/
def pollMissCode : List Act := [.delay, .decCnt]

/-- The loop of `PollReady` (R190) with k iterations left in the budget: whether it read `P_READY`, and the state. -/
def pollLoop : Nat → State → Bool × State
  | 0, s => (false, s)
  | k + 1, s =>
    let t := runActs (pollFrameCode s.params) s
    if t.seq.st = t.params.ready then (true, t) else pollLoop k (runActs pollMissCode t)

/-- `PollReady(b)` (R190). With b = 0 it polls nothing and fails at once (R191). -/
def pollReady (b : Half) (s : State) : Bool × State := pollLoop b.toNat (setCnt b s)

/-- The chip-select frame of `AckCheck()` (R195), statement by statement. -/
def ackFrameCode (p : Params) : List Act :=
  [.csAssert, .delay, .write p.dataRead, .readAckByte 0, .readAckByte 1, .readAckByte 2, .readAckByte 3,
    .readAckByte 4, .readAckByte 5, .delay, .csDeassert]

/-- The six bytes read are the ACK frame (R195): the return value of `AckCheck()`. -/
def ackMatches (s : State) : Bool := s.seq.ack == Config.ack

/-- `AckCheck()` (R195): whether the six bytes are the ACK frame, and the state. -/
def ackCheck (s : State) : Bool × State :=
  let t := runActs (ackFrameCode s.params) s
  (ackMatches t, t)

/-- WAIT_READY (R194): RESULT 1 and OK, or RESULT 0 and TIMEOUT. -/
def execWaitReady (b : Nat) (s : State) : Host.Outcome State Fault Refusal :=
  let r := pollReady (BitVec.ofNat 16 b) s
  .next (if r.1 then finish .ok .none (setResult 1 r.2) else finish .timeout .none (setResult 0 r.2))

/-- CHECK_ACK (R197): RESULT 1 and OK on the exact ACK frame, RESULT 0 and NACK on anything else (R198). -/
def execCheckAck (s : State) : Host.Outcome State Fault Refusal :=
  let r := ackCheck s
  .next (if r.1 then finish .ok .none (setResult 1 r.2) else finish .nack .none (setResult 0 r.2))

end Sys2Proof.Machine
end

