-- ==== Sys2Proof/Machine/Exchange.lean ====
section
/-! DEFINITION. The orchestrator and the firmware-version query, EXECUTE and GET_FW (43_sequencer.md). -/

namespace Sys2Proof.Machine

/-- What `Exchange` returns (R220): a completion code and a stage, and the state. -/
structure ExchangeResult where
  code : Code
  stage : Stage
  state : State
  deriving DecidableEq, Repr

/-- The gates after the acknowledgment (R220): the second readiness poll, from the full budget again. -/
def exchangePoll2 (b : Half) (s : State) : ExchangeResult :=
  let r := pollReady b (setStage .poll2 s)
  if r.1 then ⟨.ok, .none, r.2⟩ else ⟨.timeout, .poll2, r.2⟩

/-- The gates after the first readiness poll (R220): the acknowledgment check, read once. -/
def exchangeAck (b : Half) (s : State) : ExchangeResult :=
  let r := ackCheck (setStage .ackCheck s)
  if r.1 then exchangePoll2 b r.2 else ⟨.nack, .ackCheck, r.2⟩

/-- The gates after the frame write (R220): the first readiness poll. -/
def exchangePoll1 (b : Half) (s : State) : ExchangeResult :=
  let r := pollReady b (setStage .poll1 s)
  if r.1 then exchangeAck b r.2 else ⟨.timeout, .poll1, r.2⟩

/-- `Exchange(src, n, b)` (R220): frame write, poll, acknowledgment, poll; the first failing gate ends it. -/
def exchange (src : CmdSource) (n : Nat) (b : Half) (s : State) : ExchangeResult :=
  exchangePoll1 b (writeFrame src n (setStage .frameWrite s))

/-- EXECUTE past its length check (R222): RESULT 1 on OK, else 0, and `Finish(code, stage)`. -/
def executeExchange (n b : Nat) (s : State) : State :=
  let r := exchange .cmdBuf n (BitVec.ofNat 16 b) s
  finish r.code r.stage (setResult (if r.code = .ok then 1 else 0) r.state)

/-- EXECUTE (R222): ARG_ERR when n is not 1 to 254, else the exchange with CMD_BUF[0..n-1] and budget b. -/
def execExecute (n b : Nat) (s : State) : Host.Outcome State Fault Refusal :=
  .next (if lengthLegal n Config.maxCmdLen then executeExchange n b s else finish .argErr .none s)

/-- GET_FW (R226): the exchange with the 1-byte command `P_FW_OPCODE` and budget `P_FW_BUDGET`; on success the 12-byte
response read and the big-endian value of its first four bytes, on failure RESULT 0 and no read. -/
def execGetFw (s : State) : Host.Outcome State Fault Refusal :=
  let r := exchange .firmware 1 s.params.fwBudget s
  .next (if r.code = .ok then
      finish .ok .none (packFirmware (readFrame Config.fwRspLen (setStage .responseRead r.state)))
    else finish r.code r.stage (setResult 0 r.state))

end Sys2Proof.Machine
end

