-- ==== Sys2Proof/Machine/Transport.lean ====
section
/-! DEFINITION. BITREV, XFER_WR and XFER_RD (40_transport.md). -/

namespace Sys2Proof.Machine

/-- BITREV (R136): `RESULT <- zext_32(rev8(v)); Finish(OK, 0)`. -/
def execBitrev (v : Byte) (s : State) : Host.Outcome State Fault Refusal :=
  .next (finish .ok .none (setResult ((rev8 v).setWidth 32) s))

/-- XFER_WR (R138): `WriteByte(v); Finish(OK, 0)`. Chip-select is not touched (R139). -/
def execXferWr (v : Byte) (s : State) : Host.Outcome State Fault Refusal :=
  .next (finish .ok .none (writeByte v s))

/-- XFER_RD (R140): `RESULT <- zext_32(ReadByte()); Finish(OK, 0)`. Chip-select is not touched (R139). -/
def execXferRd (s : State) : Host.Outcome State Fault Refusal :=
  .next (finish .ok .none (readResult s))

end Sys2Proof.Machine
end

