-- ==== Sys2Proof/Machine/Dispatch.lean ====
section
/-! DEFINITION. One arm per operation (00_scope.md R6): the operation from Dispatch to Finish. -/

namespace Sys2Proof.Machine

def exec (i : Instr) (s : State) : Host.Outcome State Fault Refusal :=
  match i with
  | .bitrev v => Sys2Proof.Machine.execBitrev v s
  | .xferWr v => Sys2Proof.Machine.execXferWr v s
  | .xferRd => Sys2Proof.Machine.execXferRd s
  | .writeCmd n => Sys2Proof.Machine.execWriteCmd n s
  | .readData n => Sys2Proof.Machine.execReadData n s
  | .waitReady b => Sys2Proof.Machine.execWaitReady b s
  | .checkAck => Sys2Proof.Machine.execCheckAck s
  | .execute n b => Sys2Proof.Machine.execExecute n b s
  | .getFw => Sys2Proof.Machine.execGetFw s

end Sys2Proof.Machine
end

