-- ==== Sys2Proof/Machine/HostBus.lean ====
section
/-! DEFINITION. Host accesses to the host window (20_memory.md R70 to R82, 60_exceptions.md R255). -/

namespace Sys2Proof.Machine

/-- The size of the host window in bytes (R70). -/
def windowSize : Nat := 4096

/-- The platform address of a window offset (R70). -/
def platformAddress (off : Nat) : Word := Config.base + BitVec.ofNat 32 off

/-- The regions of the host window (R71). -/
inductive Region where
  | op
  | status
  | result
  | cmdBuf
  | rspBuf
  | reserved
  deriving DecidableEq, Repr

/-- The region a byte offset lies in (R71). Everything outside the window is no region of the block either
(log entry 16). -/
def regionOf (off : Nat) : Region :=
  if off < 0x004 then .op
  else if off < 0x008 then .status
  else if off < 0x00C then .result
  else if off < 0x100 then .reserved
  else if off < 0x200 then .cmdBuf
  else if off < 0x300 then .rspBuf
  else .reserved

/-- A register access is 4 bytes wide and aligned (R74). -/
def registerShape (width off : Nat) : Bool := width == 4 && off % 4 == 0

/-- A buffer access is 1, 2 or 4 bytes wide and naturally aligned (R74). -/
def bufferShape (width off : Nat) : Bool := (width == 1 || width == 2 || width == 4) && off % width == 0

/-- The reads R71 permits. -/
def readPermitted (width off : Nat) : Bool :=
  match regionOf off with
  | .op => false
  | .status => registerShape width off
  | .result => registerShape width off
  | .cmdBuf => bufferShape width off
  | .rspBuf => bufferShape width off
  | .reserved => false

/-- The writes R71 permits. -/
def writePermitted (width off : Nat) : Bool :=
  match regionOf off with
  | .op => registerShape width off
  | .status => registerShape width off
  | .result => false
  | .cmdBuf => bufferShape width off
  | .rspBuf => false
  | .reserved => false

/-- `n` buffer bytes from an offset on, the lowest first; a byte nothing has written is a draw (R55). -/
def readBytes : Nat → Nat → State → List Byte × State
  | 0, _, s => ([], s)
  | n + 1, off, s =>
    let b := s.readByteAt off
    let rest := readBytes n (off + 1) b.2
    (b.1 :: rest.1, rest.2)

/-- `n` drawn bytes (R81). -/
def drawBytes : Nat → State → List Byte × State
  | 0, s => ([], s)
  | n + 1, s =>
    let b := s.drawByte
    let rest := drawBytes n b.2
    (b.1 :: rest.1, rest.2)

/-- The `n` bytes of `v` stored from an offset on, the least significant at the lowest offset (R75), from byte k on. -/
def writeBytes : Nat → Nat → Nat → Word → State → State
  | 0, _, _, _, s => s
  | n + 1, k, off, v, s => writeBytes n (k + 1) off v (s.setByte (off + k) (leByte v k))

/-- A read of RESULT (R33, R81): its value; while BUSY = 1, 0 or what the running operation has written so far (U5). -/
def readResultRegister (s : State) : Word × State :=
  if s.status.busy then
    (if Config.freeChoice s.draws then s.result else 0, { s with draws := s.draws + 1 })
  else (s.result, s)

/-- A read of RSP_BUF bytes (R75); while BUSY = 1 every byte is a draw (R81). -/
def readResponse (width off : Nat) (s : State) : List Byte × State :=
  if s.status.busy then drawBytes width s else readBytes width off s

/-- `MemRead(off, width)` (R17, R71): the value, zero-extended, and the state; `none` is HostAccessFault. -/
def hostRead (width off : Nat) (s : State) : Option (Word × State) :=
  if readPermitted width off then
    match regionOf off with
    | .op => none
    | .status => some (statusWord s, s)
    | .result => some (readResultRegister s)
    | .cmdBuf =>
      let r := readBytes width off s
      some (leValue r.1, r.2)
    | .rspBuf =>
      let r := readResponse width off s
      some (leValue r.1, r.2)
    | .reserved => none
  else none

/-- A permitted write to OP (R102): accepted, or dropped with OVR set while BUSY = 1 (R76). -/
def writeOp (w : Word) (s : State) : State := if s.status.busy then setOvr s else accept w s

/-- A permitted write to STATUS (R34): only OVR can change, whether BUSY is 0 or 1. -/
def writeStatus (v : Word) (s : State) : State :=
  { s with status := { s.status with ovr := ovrAfterStatusWrite s.status.ovr v } }

/-- A permitted write to CMD_BUF (R75): stored, or dropped with OVR set while BUSY = 1 (R76). -/
def writeCommandBuffer (width off : Nat) (v : Word) (s : State) : State :=
  if s.status.busy then setOvr s else writeBytes width 0 off v s

/-- `MemWrite(off, width, v)` (R17, R71): the state; `none` is HostAccessFault. -/
def hostWrite (width off : Nat) (v : Word) (s : State) : Option State :=
  if writePermitted width off then
    match regionOf off with
    | .op => some (writeOp v s)
    | .status => some (writeStatus v s)
    | .result => none
    | .cmdBuf => some (writeCommandBuffer width off v s)
    | .rspBuf => none
    | .reserved => none
  else none

end Sys2Proof.Machine
end

