-- ==== Sys2Proof/Machine/HostProgram.lean ====
section
/-! DEFINITION. The host agent (00_scope.md R5, 20_memory.md R72): a program in the notation of 30_encoding.md R110, one
line a step, and the pseudo-instructions of R111 as the lines they expand to. -/

namespace Sys2Proof.Machine

/-- OP, STATUS, RESULT, CMD and RSP as offsets (R110). -/
def offOP : Nat := 0x000

/-- The offset of STATUS (R110). -/
def offSTATUS : Nat := 0x004

/-- The offset of RESULT (R110). -/
def offRESULT : Nat := 0x008

/-- The offset of CMD_BUF[0] (R110). -/
def offCMD : Nat := 0x100

/-- The offset of RSP_BUF[0] (R110). -/
def offRSP : Nat := 0x200

/-- A comparison of two 32-bit host values, all values unsigned (R15, R110). -/
def holdsComparison : Comparison → Word → Word → Bool
  | .eq, a, b => a == b
  | .ne, a, b => a != b
  | .lt, a, b => a.toNat < b.toNat
  | .le, a, b => a.toNat ≤ b.toNat
  | .gt, a, b => b.toNat < a.toNat
  | .ge, a, b => b.toNat ≤ a.toNat

/-- `v[hi:lo]` as an unsigned number (R15). DESIGN CHOICE: where `hi < lo` or `hi > 31`, to which R15 and R110 give no value,
it is a free value (log entry 26). -/
def bitSlice (v : Word) (hi lo : Nat) : Word :=
  if lo ≤ hi ∧ hi < 32 then (v.extractLsb' lo (hi + 1 - lo)).setWidth 32 else Config.unstatedSlice v hi lo

/-- The value of a host-local expression (R110); a comparison is 1 or 0 (log entry 15). A name the program has not assigned holds a
free value (log entry 9). -/
def evalHost (vars : List (Nat × Word)) : HostExpr → Word
  | .const w => w
  | .name x => (assocGet vars x).getD (Config.unassigned x)
  | .add a b => evalHost vars a + evalHost vars b
  | .sub a b => evalHost vars a - evalHost vars b
  | .slice e hi lo => bitSlice (evalHost vars e) hi lo
  | .compare op a b => if holdsComparison op (evalHost vars a) (evalHost vars b) then 1 else 0

/-- The host goes on at a line. -/
def hostGoto (line : Nat) (s : State) : State := { s with host := { s.host with pos := line } }

/-- The host assigns a name and goes on at the next line. -/
def hostAssign (name : Nat) (v : Word) (s : State) : State :=
  { s with host := { s.host with pos := s.host.pos + 1, vars := assocSet s.host.vars name v } }

/-- One line of the host program (R110); an access the window does not permit is a fault of the host program (R255). -/
def runHostStmt (st : HostStmt) (s : State) : Host.Outcome State Fault Refusal :=
  match st with
  | .store width off value =>
    match hostWrite width off (evalHost s.host.vars value) s with
    | some t => .next (hostGoto (s.host.pos + 1) t)
    | none => .fault (.hostAccess off width true)
  | .load width off name =>
    match hostRead width off s with
    | some r => .next (hostAssign name r.1 r.2)
    | none => .fault (.hostAccess off width false)
  | .assign name value => .next (hostAssign name (evalHost s.host.vars value) s)
  | .branch cond target =>
    .next (hostGoto (if evalHost s.host.vars cond = 0 then s.host.pos + 1 else target) s)

/-- The host's turn: its next program line (R72). A host whose program has ended does nothing. -/
def hostStep (s : State) : Host.Outcome State Fault Refusal :=
  match s.host.prog[s.host.pos]? with
  | none => .next s
  | some st => runHostStmt st s

/-! ### Pseudo-instructions (R111) -/

/-- `issue <op syntax>`: `sw OP, <word of R109>`. -/
def issueWord (w : Word) : List HostStmt := [.store 4 offOP (.const w)]

/-- `issue <op syntax>` for an operation. R109's assembler refuses an operand out of its range, and R111 gives such a form
no expansion. DESIGN CHOICE: it expands to the word with the operand cut to its field, n modulo 256 and b modulo 65536
(log entry 25). -/
def issue (i : Instr) : List HostStmt := issueWord (encode i)

/-- `wait_idle -> s` at program line `line`: read STATUS into the name until bit 0 is not 1. -/
def waitIdle (line name : Nat) : List HostStmt :=
  [.load 4 offSTATUS name, .branch (.compare .eq (.slice (.name name) 0 0) (.const 1)) line]

/-- `fill CMD+i, b0, b1, ...`: one `sb` per byte. -/
def fillCommand : Nat → List Byte → List HostStmt
  | _, [] => []
  | i, b :: rest => .store 1 (offCMD + i) (.const (b.setWidth 32)) :: fillCommand (i + 1) rest

/-- `clr_ovr`: `sw STATUS, 0x00000004`. -/
def clearOvr : List HostStmt := [.store 4 offSTATUS (.const 4)]

/-- `run <op syntax> -> s` at program line `line`: `issue <op syntax>; wait_idle -> s` (an operand out of its range as in
`issue`, log entry 25). -/
def runOp (line : Nat) (i : Instr) (name : Nat) : List HostStmt := issue i ++ waitIdle (line + 1) name

end Sys2Proof.Machine
end

