-- ==== Sys2Proof/Machine/Sequencer.lean ====
section
/-! DEFINITION. The sequencer a step at a time (10_state.md R42, 20_memory.md R73, 92_eei_decisions.md D34): each operation's
pseudocode as the list of statements it runs, and the step that runs the next one. -/

namespace Sys2Proof.Machine

/-- Straight-line statements as statements. -/
def straight (code : List Act) : List Stmt := code.map .act

/-- Where a failed gate leads: `RESULT <- 0; Finish(code, stage)` (R194, R197, R222, R226). -/
def failCode (code : Code) (stage : Stage) : List Stmt := [.act (.setResult 0), .finish code stage]

/-- `PollReady(b)` (R190), a failure ending the operation with TIMEOUT and `stage`. -/
def pollCode (b : Half) (stage : Stage) : List Stmt := [.act (.setCnt b), .pollHead stage]

/-- `AckCheck()` (R195), a mismatch ending the operation with NACK and `stage`. -/
def ackCode (p : Params) (stage : Stage) : List Stmt := straight (ackFrameCode p) ++ [.ackGate stage]

/-- `Exchange(src, n, b)` (R220). -/
def exchangeCode (p : Params) (src : CmdSource) (n : Nat) (b : Half) : List Stmt :=
  .act (.setStage .frameWrite) :: straight (writeFrameCode p src n) ++
  .act (.setStage .poll1) :: pollCode b .poll1 ++
  .act (.setStage .ackCheck) :: ackCode p .ackCheck ++
  .act (.setStage .poll2) :: pollCode b .poll2

/-- The statements of an operation after Dispatch, in the order its rule gives (R229). -/
def operationCode (p : Params) : Instr → List Stmt
  | .bitrev v => [.act (.setResult ((rev8 v).setWidth 32)), .finish .ok .none]
  | .xferWr v => [.act (.write v), .finish .ok .none]
  | .xferRd => [.act .readResult, .finish .ok .none]
  | .writeCmd n =>
    .lengthGate n Config.maxCmdLen :: straight (writeFrameCode p .cmdBuf n) ++ [.finish .ok .none]
  | .readData n =>
    .lengthGate n Config.maxRdLen :: straight (readFrameCode p n) ++ [.finish .ok .none]
  | .waitReady b => pollCode (BitVec.ofNat 16 b) .none ++ [.act (.setResult 1), .finish .ok .none]
  | .checkAck => ackCode p .none ++ [.act (.setResult 1), .finish .ok .none]
  | .execute n b =>
    .lengthGate n Config.maxCmdLen :: exchangeCode p .cmdBuf n (BitVec.ofNat 16 b) ++
      [.act (.setResult 1), .finish .ok .none]
  | .getFw =>
    exchangeCode p .firmware 1 p.fwBudget ++
      .act (.setStage .responseRead) :: straight (readFrameCode p Config.fwRspLen) ++
      [.act .packFirmware, .finish .ok .none]

/-- The position in the pseudocode moves to `rest` (R31, R42). -/
def continueWith (rest : List Stmt) (s : State) : State :=
  { s with seq := { s.seq with phase := .running rest } }

/-- `Dispatch()` (R103), the first step of every operation: ILLEGAL_OP for a word that selects none, else on to the
operation's statements. It emits no bus event. -/
def dispatchStep (s : State) : State :=
  match decode s.seq.opw with
  | .error _ => finish .illegalOp .none s
  | .ok i => continueWith (operationCode s.params i) s

/-- One statement of the pseudocode, with `rest` behind it. -/
def runStmt (st : Stmt) (rest : List Stmt) (s : State) : State :=
  match st with
  | .dispatch => dispatchStep s
  | .act a => continueWith rest (runAct a s)
  | .lengthGate n max => continueWith (if lengthLegal n max then rest else [.finish .argErr .none]) s
  | .pollHead stage =>
    continueWith (if s.seq.cnt = 0 then failCode .timeout stage
      else straight (pollFrameCode s.params) ++ .pollTest stage :: rest) s
  | .pollTest stage =>
    continueWith (if s.seq.st = s.params.ready then rest
      else straight pollMissCode ++ .pollHead stage :: rest) s
  | .ackGate stage => continueWith (if ackMatches s then rest else failCode .nack stage) s
  | .finish code stage => finish code stage s

/-- One sequencer step (R73). An idle sequencer does nothing. -/
def seqStep (s : State) : State :=
  match s.seq.phase with
  | .idle => s
  | .running [] => s
  | .running (st :: rest) => runStmt st rest s

/-- The sequencer taking k steps in a row. -/
def seqRun : Nat → State → State
  | 0, s => s
  | k + 1, s => seqRun k (seqStep s)

end Sys2Proof.Machine
end

