-- ==== Sys2Proof/Machine/Step.lean ====
section
/-! DEFINITION. One step of the machine (20_memory.md R73, R82): the scheduled turn of one agent. -/

namespace Sys2Proof.Machine

/-- A just accepted operation run whole: `exec` of the operation its word selects, or ILLEGAL_OP for a word that selects
none (R103, R104, R105). -/
def operationTurn (s : State) : Host.Outcome State Fault Refusal :=
  match decode s.seq.opw with
  | .error _ => .next (finish .illegalOp .none s)
  | .ok i => Sys2Proof.Machine.exec i s

/-- The step of a turn (R73). The `operation` turn runs a just accepted operation whole; anywhere else in an operation it
is one sequencer step. -/
def turnStep (t : Turn) (s : State) : Host.Outcome State Fault Refusal :=
  match t with
  | .host => hostStep s
  | .sequencer => .next (seqStep s)
  | .operation => if s.seq.phase = .running [.dispatch] then operationTurn s else .next (seqStep s)
  | .reset => .next (resetInput s)

/-- The turn taken when none is scheduled: the sequencer while it runs, else the host (log entry 6). -/
def defaultTurn (s : State) : Turn := if s.seq.phase = .idle then .host else .operation

/-- One step: the turn that is scheduled first, or the default turn. -/
def step (s : State) : Host.Outcome State Fault Refusal :=
  match s.sched with
  | [] => turnStep (defaultTurn s) s
  | t :: rest => turnStep t { s with sched := rest }

/-- The state with an operation word delivered: accepted as a host write to OP accepts it (R102), its operation the next
turn. Bits from `nbits` on are 0 (log entry 14). -/
def State.withFetchWord (s : State) (nbits w : Nat) : State :=
  { accept (BitVec.ofNat 32 (w % 2 ^ nbits)) s with sched := .operation :: s.sched }

end Sys2Proof.Machine
end

