-- ==== Sys2Proof/Safety.lean ====
section
/-! DEFINITION. What counts as a good state and a good run, in the terms the statements use: the launch premise, the
invariant of the machine, the answers a peer may give, and the bus events the rules write out. -/

namespace Sys2Proof.Machine

/-! ### Good states -/

/-- The launch premise `TransportReady` (70_reset_and_hazards.md R296) as far as the block's state shows it: chip-select
is deasserted and no operation is in progress. That `Xfer` and `Delay` behave as R18 says is built into them
(log entry 5). -/
def TransportReady (s : State) : Prop := s.cs = false ∧ s.seq.phase = .idle

/-- The completion codes and stages that `Finish` may write together (R39, R250). -/
def legalEnding : Code → Stage → Bool
  | .ok, k => k == .none
  | .timeout, k => k == .none || k == .poll1 || k == .poll2
  | .nack, k => k == .none || k == .ackCheck
  | .illegalOp, k => k == .none
  | .argErr, k => k == .none

/-- CS after a straight-line statement (R18, R51). -/
def csAfter : Act → Bool → Bool
  | .csAssert, _ => true
  | .csDeassert, _ => false
  | _, cs => cs

/-- `SEQ.idx` after a straight-line statement (R45). -/
def idxAfter : Act → Nat → Nat
  | .setIdx i, _ => i
  | _, idx => idx

/-- A straight-line statement is in its place, given CS and `SEQ.idx`: chip-select is asserted and deasserted in turn,
the response index lies inside RSP_BUF (R45, R49), and a stage begins between chip-select frames (R220, R226). -/
def actInPlace : Act → Bool → Nat → Bool
  | .csAssert, cs, _ => !cs
  | .csDeassert, cs, _ => cs
  | .setIdx i, _, _ => i < 256
  | .readResponseByte, _, idx => idx < 256
  | .setStage _, cs, _ => !cs
  | _, _, _ => true

/-- A position in an operation's pseudocode is a good one, given CS and `SEQ.idx`: each statement left to run is in its
place, the gates and Finish come with chip-select deasserted (R253), and the last statement, and only that, is Dispatch
or a Finish with a legal code and stage. -/
def positionOk : Bool → Nat → List Stmt → Bool
  | _, _, [] => false
  | cs, idx, st :: rest =>
    match st with
    | .dispatch => !cs && rest.isEmpty
    | .finish code stage => !cs && rest.isEmpty && legalEnding code stage
    | .act a => actInPlace a cs idx && positionOk (csAfter a cs) (idxAfter a idx) rest
    | .lengthGate _ _ => !cs && positionOk cs idx rest
    | .pollHead stage => !cs && legalEnding .timeout stage && positionOk cs idx rest
    | .pollTest stage => !cs && legalEnding .timeout stage && positionOk cs idx rest
    | .ackGate stage => !cs && legalEnding .nack stage && positionOk cs idx rest

/-- The invariant of the machine: what every step keeps. -/
structure Inv (s : State) : Prop where
  /-- `SEQ.phase` is Idle exactly when STATUS.BUSY = 0 (R42). -/
  busy_iff : s.status.busy = true ↔ s.seq.phase ≠ .idle
  /-- CS = 0 whenever STATUS.BUSY = 0 (R51). -/
  idle_cs : s.status.busy = false → s.cs = false
  /-- A running operation is at a good position (R51, R253). -/
  position : ∀ rest, s.seq.phase = .running rest → positionOk s.cs s.seq.idx.toNat rest = true
  /-- While BUSY = 1, CODE reads 0 and DONE is 0 (R36, R38). -/
  busy_code : s.status.busy = true → s.status.code = .ok ∧ s.status.done = false
  /-- While BUSY = 0, CODE and STAGE are a pair a `Finish` may write (R39, R250). -/
  ending : s.status.busy = false → legalEnding s.status.code s.status.stage = true
  /-- While BUSY = 0 no acknowledgment byte is kept (R47; that `SEQ.ack` is then 0, also after reset, log entry 21). -/
  idle_ack : s.status.busy = false → s.seq.ack = noAck
  /-- The buffers are in canonical form: offsets strictly rising, each inside a buffer. -/
  memory : Memory.wf s.mem = true

/-- The operation word is one of an exchange: EXECUTE or GET_FW (R39). -/
def isExchangeWord (w : Word) : Bool := opcField w == 8 || opcField w == 9

/-- A statement that writes no stage other than 0 (R39). -/
def stageFree : Stmt → Bool
  | .act (.setStage k) => k == .none
  | .pollHead k => k == .none
  | .pollTest k => k == .none
  | .ackGate k => k == .none
  | .finish _ k => k == .none
  | _ => true

/-- STATUS.STAGE is 0 at all times for the operations other than EXECUTE and GET_FW (R39), and what is left to run of
one will not write another stage. -/
def StageConfined (s : State) : Prop :=
  isExchangeWord s.seq.opw = false →
    s.status.stage = .none ∧ ∀ rest, s.seq.phase = .running rest → rest.all stageFree = true

/-- The stages of an exchange in order (R39, R220, R226): each begins where the one before has succeeded. -/
def nextStage : Stage → Option Stage
  | .none => some .frameWrite
  | .frameWrite => some .poll1
  | .poll1 => some .ackCheck
  | .ackCheck => some .poll2
  | .poll2 => some .responseRead
  | .responseRead => Option.none

/-- STATUS.STAGE after a straight-line statement (R39). -/
def stageAfter : Act → Stage → Stage
  | .setStage k, _ => k
  | _, k => k

/-- The stage is one of the two readiness polls (R39). -/
def isPollStage (k : Stage) : Bool := k == .poll1 || k == .poll2

/-- The straight-line statement belongs to the exchange stage `k` that STATUS.STAGE shows (R39, R220, R226): the frame
writer's statements to 1, the poller's to 2 and 4, the acknowledgment check's to 3, the response read's to 5; those that
several share to any of these; and a stage begins only after the one before it. -/
def actInStage : Act → Stage → Bool
  | .csAssert, k => k != .none
  | .csDeassert, k => k != .none
  | .delay, k => k != .none
  | .write _, k => k != .none
  | .writeTfi, k => k == .frameWrite
  | .setIdx _, k => k == .frameWrite || k == .responseRead
  | .writeCommandByte _, k => k == .frameWrite
  | .writeDataChecksum, k => k == .frameWrite
  | .readResponseByte, k => k == .responseRead
  | .readAckByte _, k => k == .ackCheck
  | .readStatusByte, k => isPollStage k
  | .readResult, _ => false
  | .setCnt _, k => isPollStage k
  | .decCnt, k => isPollStage k
  | .countPoll, k => isPollStage k
  | .setStage k', k => nextStage k == some k'
  | .setResult _, k => k != .none
  | .packFirmware, k => k == .responseRead

/-- The position of an exchange whose last stage is `last` agrees with the stage `k` that STATUS.STAGE shows (R39): every
statement left to run belongs to the stage that is then in progress, Dispatch and the length check stand before the
first one, a failed gate's Finish writes the stage in progress, and a Finish with OK comes in the last stage. -/
def stageOk (last : Stage) : Stage → List Stmt → Bool
  | _, [] => false
  | k, st :: rest =>
    match st with
    | .dispatch => k == .none && rest.isEmpty
    | .lengthGate _ _ => k == .none && stageOk last k rest
    | .act a => actInStage a k && stageOk last (stageAfter a k) rest
    | .pollHead stage => isPollStage k && stage == k && stageOk last k rest
    | .pollTest stage => isPollStage k && stage == k && stageOk last k rest
    | .ackGate stage => k == .ackCheck && stage == k && stageOk last k rest
    | .finish code stage =>
      rest.isEmpty && (if code = .ok then stage == .none && k == last else stage == k)

/-- The last stage of the exchange an operation word selects (R39): the response read for GET_FW only. -/
def lastStage (w : Word) : Stage := if opcField w = 9 then .responseRead else .poll2

/-- While an EXECUTE or a GET_FW runs, STATUS.STAGE shows the stage in progress (R39, R220, R226). -/
def StageShown (s : State) : Prop :=
  isExchangeWord s.seq.opw = true →
    ∀ rest, s.seq.phase = .running rest → stageOk (lastStage s.seq.opw) s.status.stage rest = true

/-! ### What the peer answers -/

/-- The bytes are answers this peer may give, in order (R262, R263): its script first, then its standing answer, and
without one any byte at all. -/
def PeerGives : PeerAgent → List Byte → Prop
  | _, [] => True
  | p, b :: rest =>
    (match p.script, p.rest with
      | x :: _, _ => b = x
      | [], some x => b = x
      | [], none => True) ∧ PeerGives { p with script := p.script.tail } rest

/-- The peer after n answers. -/
def peerAfter (p : PeerAgent) (n : Nat) : PeerAgent := { p with script := p.script.drop n }

/-! ### The bus events of the rules -/

/-- A chip-select frame (R22): `CS+, D`, the transfers of the wire bytes with their answers, `D, CS-`. -/
def frameEvents (sent answers : List Byte) : List Event :=
  [.csOn, .delay] ++ List.zipWith .xfer sent answers ++ [.delay, .csOff]

/-- The trace of `WriteFrame` for the command bytes (R160, R164). -/
def writeFrameEvents (p : Params) (cmd answers : List Byte) : List Event :=
  frameEvents ((commandFrame p cmd).map rev8) answers

/-- The trace of `ReadFrame(n)` (R163), and with n = 6 of `AckCheck` (R195). -/
def readFrameEvents (p : Params) (n : Nat) (answers : List Byte) : List Event :=
  frameEvents (rev8 p.dataRead :: List.replicate n 0x00) answers

/-- The chip-select frame of a poll iteration (R190) answered by `x`: the byte received while the status-read indicator
goes out, and the status byte on the wire. -/
def pollEvents (p : Params) (x : Byte × Byte) : List Event :=
  frameEvents [rev8 p.statusRead, 0x00] [x.1, x.2]

/-- The trace of poll iterations none of which read `P_READY` (R190): each followed by one more tick. -/
def missedPollEvents (p : Params) (xs : List (Byte × Byte)) : List Event :=
  xs.flatMap fun x => pollEvents p x ++ [.delay]

/-- The answers of poll iterations, in order. -/
def pollAnswers (xs : List (Byte × Byte)) : List Byte := xs.flatMap fun x => [x.1, x.2]

/-- None of these poll iterations read `P_READY` (R192). -/
def AllMiss (p : Params) (xs : List (Byte × Byte)) : Prop := ∀ x ∈ xs, rev8 x.2 ≠ p.ready

/-- The trace of a poll stage: the missed iterations, then the one that read `P_READY`, if one did. -/
def pollStageEvents (p : Params) (xs : List (Byte × Byte)) : Option (Byte × Byte) → List Event
  | none => missedPollEvents p xs
  | some x => missedPollEvents p xs ++ pollEvents p x

/-- What a poll stage with budget b saw (R190, R193): at most b iterations; either one of them read `P_READY` and was the
last, or all b missed. -/
def PollOutcome (p : Params) (b : Nat) (xs : List (Byte × Byte)) : Option (Byte × Byte) → Prop
  | none => AllMiss p xs ∧ xs.length = b
  | some x => AllMiss p xs ∧ xs.length < b ∧ rev8 x.2 = p.ready

/-- The answers of a poll stage, in order. -/
def pollStageAnswers (xs : List (Byte × Byte)) : Option (Byte × Byte) → List Byte
  | none => pollAnswers xs
  | some x => pollAnswers xs ++ [x.1, x.2]

/-- `st` after a poll stage (R190): the logical status byte read last, or what it held when none was read. -/
def statusAfter (st : Byte) (xs : List (Byte × Byte)) : Option (Byte × Byte) → Byte
  | none => xs.foldl (fun _ x => rev8 x.2) st
  | some x => rev8 x.2

/-- The iterations of a poll stage. -/
def pollCount (xs : List (Byte × Byte)) : Option (Byte × Byte) → Nat
  | none => xs.length
  | some _ => xs.length + 1

/-- The wire bytes of the acknowledgment (R195, R196). -/
def ackBytes : List Byte := [0x00, 0x00, 0xFF, 0x00, 0xFF, 0x00]

/-- `SEQ.ack` after the answers of an acknowledgment check, the first of the seven discarded (R195): the six others
reversed; as before where no check was made. -/
def heldAck (before : Vector Byte 6) : Option (List Byte) → Vector Byte 6
  | none => before
  | some answers => Vector.ofFn fun i => rev8 (answers.getD (i.val + 1) 0)

/-! ### What an operation sends and how an exchange ends -/

/-- The bytes are the command bytes `src[0..]` of a frame (R164): those of CMD_BUF where something has written them (any
byte where nothing has, R55), or the sequencer's own firmware-version command. -/
def CommandBytes (s : State) (src : CmdSource) (cmd : List Byte) : Prop :=
  match src with
  | .cmdBuf => ∀ i (h : i < cmd.length), ∀ b, s.byteAt (cmdOffset i) = some b → cmd[i] = b
  | .firmware => ∀ b ∈ cmd, b = s.params.fwOpcode

/-- The command bytes are all there to be sent: no draw is needed. -/
def SourceWritten (s : State) (src : CmdSource) (n : Nat) : Prop :=
  match src with
  | .cmdBuf => ∀ i < n, (s.byteAt (cmdOffset i)).isSome
  | .firmware => True

/-- What the gates of an exchange leave: the code and stage returned (R220), the poll iterations (R46), the bus events, the
answers taken, the budget left (R44), `st` (R190), and the answers of the acknowledgment check, if it was made (R47). -/
structure ExchangeEnd where
  code : Code
  stage : Stage
  polls : Nat
  evs : List Event
  answers : List Byte
  left : Nat
  st : Byte
  ack : Option (List Byte)
  deriving DecidableEq, Repr

/-- How the gates of an exchange with budget b can end after the frame write, `st` being what the local of PollReady held
before (R220, R222). -/
inductive ExchangeOutcome (p : Params) (b : Nat) (st : Byte) : ExchangeEnd → Prop where
  /-- The chip never became ready after the command frame. -/
  | timeout1 (xs : List (Byte × Byte)) (h : PollOutcome p b xs none) :
      ExchangeOutcome p b st
        { code := .timeout, stage := .poll1, polls := xs.length
          evs := missedPollEvents p xs
          answers := pollAnswers xs
          left := 0, st := statusAfter st xs none, ack := none }
  /-- Six bytes that are not the ACK frame. -/
  | nack (xs : List (Byte × Byte)) (x : Byte × Byte) (ack : List Byte) (h : PollOutcome p b xs (some x))
      (hl : ack.length = 7) (ha : ack.tail ≠ ackBytes) :
      ExchangeOutcome p b st
        { code := .nack, stage := .ackCheck, polls := xs.length + 1
          evs := missedPollEvents p xs ++ pollEvents p x ++ readFrameEvents p 6 ack
          answers := pollAnswers xs ++ [x.1, x.2] ++ ack
          left := b - xs.length, st := rev8 x.2, ack := some ack }
  /-- No response became ready. -/
  | timeout2 (xs : List (Byte × Byte)) (x : Byte × Byte) (ack : List Byte) (ys : List (Byte × Byte))
      (h : PollOutcome p b xs (some x)) (hl : ack.length = 7) (ha : ack.tail = ackBytes)
      (h' : PollOutcome p b ys none) :
      ExchangeOutcome p b st
        { code := .timeout, stage := .poll2, polls := xs.length + 1 + ys.length
          evs := missedPollEvents p xs ++ pollEvents p x ++ readFrameEvents p 6 ack ++ missedPollEvents p ys
          answers := pollAnswers xs ++ [x.1, x.2] ++ ack ++ pollAnswers ys
          left := 0, st := statusAfter (rev8 x.2) ys none, ack := some ack }
  /-- Ready, acknowledged, and ready again. -/
  | ok (xs : List (Byte × Byte)) (x : Byte × Byte) (ack : List Byte) (ys : List (Byte × Byte)) (y : Byte × Byte)
      (h : PollOutcome p b xs (some x)) (hl : ack.length = 7) (ha : ack.tail = ackBytes)
      (h' : PollOutcome p b ys (some y)) :
      ExchangeOutcome p b st
        { code := .ok, stage := .none, polls := xs.length + 1 + (ys.length + 1)
          evs := missedPollEvents p xs ++ pollEvents p x ++ readFrameEvents p 6 ack ++ missedPollEvents p ys ++
            pollEvents p y
          answers := pollAnswers xs ++ [x.1, x.2] ++ ack ++ pollAnswers ys ++ [y.1, y.2]
          left := b - ys.length, st := rev8 y.2, ack := some ack }

/-! ### Counts and completed registers -/

/-- The bus transfers `X` among the events (R310). -/
def transfers (evs : List Event) : Nat := evs.countP fun e => match e with
  | .xfer _ _ => true
  | _ => false

/-- The ticks `D` among the events (R310). -/
def ticks (evs : List Event) : Nat := evs.countP (· == .delay)

/-- The chip-select frames among the events (R22, R310): one for each `CS+`. -/
def frames (evs : List Event) : Nat := evs.countP (· == .csOn)

/-- The events hold `x` transfers, `d` ticks and `f` chip-select frames, and are `total` in all (a row of R310). -/
def Counts (evs : List Event) (x d f total : Nat) : Prop :=
  transfers evs = x ∧ ticks evs = d ∧ frames evs = f ∧ evs.length = total

/-- STATUS after an operation has completed (R253), but for POLLS: OVR is as it was before the operation (R37). -/
def completedStatus (s : State) (code : Code) (stage : Stage) : Status where
  busy := false
  done := true
  ovr := s.status.ovr
  code := code
  stage := stage

/-- `SEQ` after an operation with this word that polled nothing and sent no frame has completed: idle, and no
acknowledgment byte kept (R47; `SEQ.ack` cleared, log entry 21). -/
def completedSeq (s : State) (w : Word) : SeqState :=
  { s.seq with opw := w, phase := .idle, polls := 0, ack := noAck }

/-! ### Good runs -/

/-- A run of k steps of the machine ends in a next state: no host access faulted (R255: "the faulted run is never a good
final state"). -/
def GoodRun (k : Nat) (s t : State) : Prop := Host.Core.run Sys2Proof.core k s = .next t

end Sys2Proof.Machine
end

