-- ==== Sys2Proof/Certificates/Slice0/Obligations.lean ====
section
/-! DEFINITION. The statements for the provers, by the files of the spec. OBLIGATIONS.json lists each with its rules. -/

open Sys2Proof Sys2Proof.Machine

/-! ### Encoding (30_encoding.md) -/

/-- Words written out from R100, R101, R106 and the decode table of 95_test_vectors.md §2.9 decode to what they stand for. -/
def Obligations.WrittenOutWordsDecode : Prop :=
  decode 0x0000B101#32 = .ok (.bitrev 0xB1#8) ∧
  decode 0x00000202#32 = .ok (.xferWr 0x02#8) ∧
  decode 0x00000003#32 = .ok .xferRd ∧
  decode 0xFFFF0003#32 = .ok .xferRd ∧
  decode 0x00000104#32 = .ok (.writeCmd 1) ∧
  decode 0x00000C05#32 = .ok (.readData 12) ∧
  decode 0x00030006#32 = .ok (.waitReady 3) ∧
  decode 0x00000007#32 = .ok .checkAck ∧
  decode 0x00640108#32 = .ok (.execute 1 100) ∧
  decode 0x00000009#32 = .ok .getFw ∧
  decode 0x12345609#32 = .ok .getFw ∧
  decode 0x00000000#32 = .error (.reservedOpcode 0x0#4) ∧
  decode 0x0000000A#32 = .error (.reservedOpcode 0xA#4) ∧
  decode 0x0000000F#32 = .error (.reservedOpcode 0xF#4) ∧
  decode 0x00000019#32 = .error (.reservedField 0x1#4) ∧
  decode 0x000000F1#32 = .error (.reservedField 0xF#4)

/-- Decoding the word of a well-formed operation gives the operation back, with every operand (R100, R101, R107). -/
def Obligations.DecodeOfEncodeIsTheOperation : Prop :=
  ∀ i : Instr, i.wf = true → decode (encode i) = .ok i

/-- R109: the word each form assembles to; operands out of range are refused, `n = 0` and `n = 255` are not. -/
def Obligations.AssemblerWords : Prop :=
  ∀ (v : Byte) (n b : Nat),
    assemble (.bitrev v) = some ((v.setWidth 32 <<< 8) ||| 0x1#32) ∧
    assemble (.xferWr v) = some ((v.setWidth 32 <<< 8) ||| 0x2#32) ∧
    assemble .xferRd = some 0x00000003#32 ∧
    assemble (.writeCmd n) = (if n < 256 then some (BitVec.ofNat 32 ((n <<< 8) ||| 0x4)) else none) ∧
    assemble (.readData n) = (if n < 256 then some (BitVec.ofNat 32 ((n <<< 8) ||| 0x5)) else none) ∧
    assemble (.waitReady b) = (if b < 65536 then some (BitVec.ofNat 32 ((b <<< 16) ||| 0x6)) else none) ∧
    assemble .checkAck = some 0x00000007#32 ∧
    assemble (.execute n b) =
      (if n < 256 ∧ b < 65536 then some (BitVec.ofNat 32 ((b <<< 16) ||| (n <<< 8) ||| 0x8)) else none) ∧
    assemble .getFw = some 0x00000009#32

/-- R101, R107: the operation a word selects, its operands the unscaled, unsigned numbers ARG8 and BUDGET. -/
def Obligations.OperandsComeFromTheWord : Prop :=
  ∀ w : Word, w.toNat / 16 % 16 = 0 →
    (w.toNat % 16 = 0x1 → decode w = .ok (.bitrev (BitVec.ofNat 8 (w.toNat / 256 % 256)))) ∧
    (w.toNat % 16 = 0x2 → decode w = .ok (.xferWr (BitVec.ofNat 8 (w.toNat / 256 % 256)))) ∧
    (w.toNat % 16 = 0x3 → decode w = .ok .xferRd) ∧
    (w.toNat % 16 = 0x4 → decode w = .ok (.writeCmd (w.toNat / 256 % 256))) ∧
    (w.toNat % 16 = 0x5 → decode w = .ok (.readData (w.toNat / 256 % 256))) ∧
    (w.toNat % 16 = 0x6 → decode w = .ok (.waitReady (w.toNat / 65536))) ∧
    (w.toNat % 16 = 0x7 → decode w = .ok .checkAck) ∧
    (w.toNat % 16 = 0x8 → decode w = .ok (.execute (w.toNat / 256 % 256) (w.toNat / 65536))) ∧
    (w.toNat % 16 = 0x9 → decode w = .ok .getFw)

/-- R106: two words that agree on OPC and RSV, and on the fields the operation uses, decode to the same operation; and
no operation is a no-op: each one completes with DONE set where acceptance had cleared it. -/
def Obligations.UnusedFieldsAreIgnored : Prop :=
  (∀ (w w' : Word) (i : Instr), w.toNat % 256 = w'.toNat % 256 → decode w = .ok i →
    (i = .xferRd ∨ i = .checkAck ∨ i = .getFw → decode w' = .ok i) ∧
    ((∃ v, i = .bitrev v) ∨ (∃ v, i = .xferWr v) ∨ (∃ n, i = .writeCmd n) ∨ (∃ n, i = .readData n) →
      w.toNat / 256 % 256 = w'.toNat / 256 % 256 → decode w' = .ok i) ∧
    ((∃ b, i = .waitReady b) → w.toNat / 65536 = w'.toNat / 65536 → decode w' = .ok i)) ∧
  ∀ (i : Instr) (w : Word) (s : State), ∃ t, exec i (accept w s) = .next t ∧
    (accept w s).status.done = false ∧ t.status.done = true

/-- R104, R105: a word with a reserved OPC or with RSV not zero completes at Dispatch with ILLEGAL_OP, RESULT 0 and no
bus event, whether the operation is run whole (the model's `operation` turn, log entry 14) or a sequencer step at a time.
Nothing else changes, but that `SEQ.ack` is cleared, as by every completion (R47; the model's choice, log entry 21). -/
def Obligations.ReservedWordsCompleteWithIllegalOp : Prop :=
  ∀ (w : Word) (s : State),
    (w.toNat % 16 = 0 ∨ 10 ≤ w.toNat % 16 ∨ w.toNat / 16 % 16 ≠ 0) →
      seqStep (accept w s) =
        { s with status := completedStatus s .illegalOp .none, result := 0, seq := completedSeq s w } ∧
      operationTurn (accept w s) = .next (seqStep (accept w s)) ∧ codeBits .illegalOp = 3

/-- Every operation word decodes to a well-formed operation or is refused with ILLEGAL_OP (R267). -/
def Obligations.EveryWordHasOneOutcome : Prop :=
  ∀ (w : Word) (s : State),
    (∃ i, decode w = .ok i ∧ i.wf = true ∧ operationTurn (accept w s) = exec i (accept w s)) ∨
    (∃ t, operationTurn (accept w s) = .next t ∧ t.status.code = .illegalOp ∧ t.trace = s.trace ∧
      t.mem = s.mem ∧ t.cs = s.cs)

/-! ### The step -/

/-- A step with a just accepted operation is `exec` of the operation its word decodes to: on an `operation` turn (the
model's choice: an operation run whole, one of the interleavings of R73, log entry 14) with that turn used up, and (the
model's choice, log entry 6) when no turn is scheduled; and the step after `withFetchWord` has delivered a word (the model's
choice, log entry 14) is `exec` of the operation the word decodes to, at the state that accepted it. -/
def Obligations.StepRunsTheDecodedOperation : Prop :=
  (∀ (s : State) (i : Instr) (r : List Turn), s.seq.phase = .running [.dispatch] → decode s.seq.opw = .ok i →
    (s.sched = .operation :: r → step s = exec i { s with sched := r }) ∧
    (s.sched = [] → step s = exec i s)) ∧
  ∀ (s : State) (w : Nat) (i : Instr), decode (BitVec.ofNat 32 w) = .ok i →
    step (s.withFetchWord 32 w) = exec i (accept (BitVec.ofNat 32 w) s)

/-- A step is the scheduled turn of one agent, that turn used up: a host line, a sequencer step (R72, R73) or the reset input
(R290). The model's choices: that a schedule in the state says whose turn it is (log entry 22), and that there is an
`operation` turn (log entry 14), which anywhere but at Dispatch is a sequencer step. -/
def Obligations.StepTakesTheScheduledTurn : Prop :=
  ∀ (s : State) (r : List Turn),
    step { s with sched := .host :: r } = hostStep { s with sched := r } ∧
    step { s with sched := .sequencer :: r } = .next (seqStep { s with sched := r }) ∧
    step { s with sched := .reset :: r } = .next (resetInput { s with sched := r }) ∧
    (s.seq.phase ≠ .running [.dispatch] →
      step { s with sched := .operation :: r } = .next (seqStep { s with sched := r }))

/-- Every operation completes from every state (R253, R304): a next state, idle and not busy, DONE set, with a code and
stage that go together (R250), and with chip-select deasserted if it was deasserted before. -/
def Obligations.EveryOperationCompletes : Prop :=
  ∀ (i : Instr) (s : State), ∃ t, exec i s = .next t ∧ t.status.busy = false ∧ t.status.done = true ∧
    t.seq.phase = .idle ∧ legalEnding t.status.code t.status.stage = true ∧ (s.cs = false → t.cs = false)

/-- Taken a sequencer step at a time (R73), an accepted operation ends in exactly the state `exec` gives: with enough
sequencer turns scheduled, a run of the machine ends there. -/
def Obligations.SequencerStepsRefineExec : Prop :=
  ∀ (s : State) (i : Instr) (r : List Turn), s.seq.phase = .running [.dispatch] → decode s.seq.opw = .ok i →
    ∃ k t, exec i { s with sched := r } = .next t ∧
      GoodRun k { s with sched := List.replicate k .sequencer ++ r } t

/-- A sequencer step emits at most one bus event (R42, R73). -/
def Obligations.SequencerStepEmitsAtMostOneEvent : Prop :=
  ∀ s : State, (seqStep s).trace = s.trace ∨ ∃ e, (seqStep s).trace = s.trace ++ [e]

/-! ### Bit-order transform and byte transport (40_transport.md) -/

/-- R130, R137: bit i of `rev8 b` is bit 7-i of `b`; it is an involution and a bijection, commutes with complement, keeps
the number of 1 bits, and has exactly 16 fixed points. -/
def Obligations.BitOrderTransform : Prop :=
  (∀ (b : Byte) (i : Nat), i < 8 → (rev8 b).getLsbD i = b.getLsbD (7 - i)) ∧
  (∀ b : Byte, rev8 (rev8 b) = b) ∧ Function.Bijective rev8 ∧
  (∀ b : Byte, rev8 (b ^^^ 0xFF#8) = rev8 b ^^^ 0xFF#8) ∧
  (∀ b : Byte, (wireBits (rev8 b)).count true = (wireBits b).count true) ∧
  ((List.range 256).filter fun k => rev8 (BitVec.ofNat 8 k) == BitVec.ofNat 8 k).length = 16

/-- R131 and the shift of R18: eight bit times send the register most significant bit first and leave the sampled byte
in it, the first bit sampled its bit 7; so a logical byte goes out, and comes in, least significant bit first. -/
def Obligations.LogicalBytesTravelLeastSignificantBitFirst : Prop :=
  (∀ m s : Byte, shiftBits m (wireBits s) = (wireBits m, s)) ∧
  (∀ v : Byte, wireBits (rev8 v) = [v[0], v[1], v[2], v[3], v[4], v[5], v[6], v[7]]) ∧
  ∀ (m : Byte) (b0 b1 b2 b3 b4 b5 b6 b7 : Bool),
    wireBits (rev8 (shiftBits m [b0, b1, b2, b3, b4, b5, b6, b7]).2) = [b7, b6, b5, b4, b3, b2, b1, b0]

/-- R132, R133: `WriteByte v` is the one event `X(rev8 v, a)` and keeps nothing of the answer `a`; `ReadByte` is the one
event `X(0x00, a)` and returns `rev8 a`; neither touches chip-select or inserts a delay (R135). The answer is the one the
peer gives (R262, R263): the next byte of a script if it has one, then its standing answer if it has one, else (the
model's choice, log entries 3 and 12) the oracle's with sight of the count of resets, the trace and the byte sent. -/
def Obligations.ByteTransport : Prop :=
  ∀ (v : Byte) (s : State),
    writeByte v s =
      { s with trace := s.trace ++ [.xfer (rev8 v) (peerAnswer (rev8 v) s)], peer := peerAfter s.peer 1 } ∧
    readByte s =
      (rev8 (peerAnswer 0x00#8 s),
        { s with trace := s.trace ++ [.xfer 0x00#8 (peerAnswer 0x00#8 s)], peer := peerAfter s.peer 1 }) ∧
    (∀ (m a : Byte) (r : List Byte), s.peer.script = a :: r → peerAnswer m s = a) ∧
    (∀ m x : Byte, s.peer.script = [] → s.peer.rest = some x → peerAnswer m s = x) ∧
    (∀ m : Byte, s.peer.script = [] → s.peer.rest = none → peerAnswer m s = Config.peer s.resets s.trace m)

/-- BITREV (R136): RESULT is the reversed byte, STATUS is OK with DONE, and nothing else changes (but that `SEQ.ack` is
cleared, as by every completion: R47; the model's choice, log entry 21). -/
def Obligations.BitrevResult : Prop :=
  ∀ (v : Byte) (w : Word) (s : State),
    exec (.bitrev v) (accept w s) =
      .next { s with
        status := completedStatus s .ok .none
        result := (rev8 v).setWidth 32
        seq := completedSeq s w }

/-- XFER_WR (R138): one event `X(rev8 v, a)`, the answer discarded; RESULT 0, OK; chip-select, buffers and the rest as
before (but that `SEQ.ack` is cleared, as by every completion: R47; the model's choice, log entry 21). -/
def Obligations.XferWrResult : Prop :=
  ∀ (v : Byte) (w : Word) (s : State),
    exec (.xferWr v) (accept w s) =
      .next { s with
        status := completedStatus s .ok .none
        result := 0
        seq := completedSeq s w
        trace := s.trace ++ [.xfer (rev8 v) (peerAnswer (rev8 v) s)]
        peer := peerAfter s.peer 1 }

/-- XFER_RD (R140): one event `X(0x00, a)`; RESULT is `rev8 a`; OK; chip-select, buffers and the rest as before (but
that `SEQ.ack` is cleared, as by every completion: R47; the model's choice, log entry 21). -/
def Obligations.XferRdResult : Prop :=
  ∀ (w : Word) (s : State),
    exec .xferRd (accept w s) =
      .next { s with
        status := completedStatus s .ok .none
        result := (rev8 (peerAnswer 0x00#8 s)).setWidth 32
        seq := completedSeq s w
        trace := s.trace ++ [.xfer 0x00#8 (peerAnswer 0x00#8 s)]
        peer := peerAfter s.peer 1 }

/-! ### Frame writer and frame reader (41_framing.md) -/

/-- WRITE_CMD (R160, R164, R165) with a legal length: the n command bytes of CMD_BUF (any byte where nothing has written
one, R55, and no draw where all are written) go out as the command frame in one chip-select frame, whatever the peer
answers; RESULT 0, OK; CMD_BUF and RSP_BUF as before (`SEQ.ack` cleared, as by every completion: R47; the model's choice,
log entry 21). -/
def Obligations.WriteCmdSendsTheCommandFrame : Prop :=
  ∀ (n : Nat) (w : Word) (s : State), 1 ≤ n → n ≤ 254 →
    ∃ cmd answers d, cmd.length = n ∧ answers.length = n + 9 ∧ PeerGives s.peer answers ∧
      CommandBytes s .cmdBuf cmd ∧ (SourceWritten s .cmdBuf n → d = s.draws) ∧
      exec (.writeCmd n) (accept w s) =
        .next { s with
          status := completedStatus s .ok .none
          result := 0
          seq := { completedSeq s w with acc := checksumAcc s.params.tfi cmd, idx := BitVec.ofNat 16 (n - 1) }
          cs := false
          trace := s.trace ++ [.csOn, .delay] ++
            List.zipWith .xfer ((commandFrame s.params cmd).map rev8) answers ++ [.delay, .csOff]
          peer := peerAfter s.peer (n + 9)
          draws := d }

/-- R160, R161, R162, R166: the bytes of a command frame in their positions, its two checksum groups summing to 0 modulo
256, and DCS 0 exactly when `P_TFI` and the command bytes sum to 0. -/
def Obligations.CommandFrameLayoutAndChecksums : Prop :=
  ∀ (p : Params) (cmd : List Byte), 1 ≤ cmd.length → cmd.length ≤ 254 →
    ∃ len lcs dcs,
      commandFrame p cmd = [p.dataWrite, 0x00, 0x00, 0xFF, len, lcs, p.tfi] ++ cmd ++ [dcs, 0x00] ∧
      len.toNat = cmd.length + 1 ∧ add8 len lcs = 0 ∧ lcs.toNat = (256 - (cmd.length + 1)) % 256 ∧
      add8 (p.tfi + cmd.sum) dcs = 0 ∧ (dcs = 0 ↔ (p.tfi.toNat + (cmd.map BitVec.toNat).sum) % 256 = 0)

/-- READ_DATA (R163, R168) with a legal length: RSP_BUF[0..n-1] takes the logical bytes of the n answers after the first,
every other buffer byte is as before, in one chip-select frame of n + 5 events; RESULT 0, OK, whatever the peer answers
(`SEQ.ack` cleared, as by every completion: R47; the model's choice, log entry 21). -/
def Obligations.ReadDataStoresTheResponse : Prop :=
  ∀ (n : Nat) (w : Word) (s : State), 1 ≤ n → n ≤ 255 →
    ∃ answers m, ∃ ha : answers.length = n + 1, PeerGives s.peer answers ∧
      exec (.readData n) (accept w s) =
        .next { s with
          status := completedStatus s .ok .none
          result := 0
          seq := { completedSeq s w with idx := BitVec.ofNat 16 (n - 1) }
          cs := false
          mem := m
          trace := s.trace ++ [.csOn, .delay] ++
            List.zipWith .xfer (rev8 s.params.dataRead :: List.replicate n 0x00#8) answers ++ [.delay, .csOff]
          peer := peerAfter s.peer (n + 1) } ∧
      (∀ i (h : i < n), assocGet m (rspOffset i) = some (rev8 answers[i + 1])) ∧
      ∀ a, (a < rspOffset 0 ∨ rspOffset n ≤ a) → assocGet m a = s.byteAt a

/-- R108: WRITE_CMD and EXECUTE with n not 1 to 254 and READ_DATA with n not 1 to 255 complete with ARG_ERR, RESULT 0 and
no bus event, nothing else changed (but that `SEQ.ack` is cleared, as by every completion: R47; the model's choice, log
entry 21); and no other operand of any operation is illegal. -/
def Obligations.ArgErrExactlyForIllegalLengths : Prop :=
  ∀ (w : Word) (s : State),
    (∀ n b : Nat, ¬(1 ≤ n ∧ n ≤ 254) →
      exec (.writeCmd n) (accept w s) =
        .next { s with status := completedStatus s .argErr .none, result := 0, seq := completedSeq s w } ∧
      exec (.execute n b) (accept w s) =
        .next { s with status := completedStatus s .argErr .none, result := 0, seq := completedSeq s w }) ∧
    (∀ n : Nat, ¬(1 ≤ n ∧ n ≤ 255) →
      exec (.readData n) (accept w s) =
        .next { s with status := completedStatus s .argErr .none, result := 0, seq := completedSeq s w }) ∧
    ∀ (i : Instr) (t : State), exec i (accept w s) = .next t → t.status.code = .argErr →
      (∃ n, i = .writeCmd n ∧ ¬(1 ≤ n ∧ n ≤ 254)) ∨ (∃ n b, i = .execute n b ∧ ¬(1 ≤ n ∧ n ≤ 254)) ∨
      ∃ n, i = .readData n ∧ ¬(1 ≤ n ∧ n ≤ 255)

/-! ### Readiness poller and acknowledgment validator (42_poll_ack.md) -/

/-- WAIT_READY (R190, R194): for every peer, poll iterations that miss and then, within the budget, one that reads
`P_READY` (RESULT 1, OK) or none (RESULT 0, TIMEOUT after exactly b iterations); POLLS counts them, the budget left is b
less the misses; `st`, the local variable of PollReady, holds the last status byte read; the buffers and the rest are as
before (`SEQ.ack` cleared, as by every completion: R47; the model's choice, log entry 21). -/
def Obligations.WaitReadyOutcome : Prop :=
  ∀ (b : Nat) (w : Word) (s : State), b < 65536 →
    ∃ xs hit, PollOutcome s.params b xs hit ∧ PeerGives s.peer (pollStageAnswers xs hit) ∧
      exec (.waitReady b) (accept w s) =
        .next { s with
          status := completedStatus s (if hit.isSome then .ok else .timeout) .none
          result := if hit.isSome then 1 else 0
          seq := { completedSeq s w with
            cnt := BitVec.ofNat 16 (b - xs.length)
            st := statusAfter s.seq.st xs hit
            polls := BitVec.ofNat 32 (pollCount xs hit) }
          cs := if pollCount xs hit = 0 then s.cs else false
          trace := s.trace ++ pollStageEvents s.params xs hit
          peer := peerAfter s.peer (2 * pollCount xs hit) }

/-- R191: with b = 0 a poll performs no iteration and fails at once, emitting no bus event; so WAIT_READY 0 changes
nothing else (R194; but that `SEQ.ack` is cleared, as by every completion: R47; the model's choice, log entry 21), and
EXECUTE with budget 0 sends the whole command frame and then ends with TIMEOUT at stage 2
(R222). -/
def Obligations.BudgetZeroPollsNothing : Prop :=
  ∀ (n : Nat) (w : Word) (s : State),
    (pollReady 0 s).1 = false ∧ (pollReady 0 s).2.trace = s.trace ∧ (pollReady 0 s).2.seq.polls = s.seq.polls ∧
    exec (.waitReady 0) (accept w s) =
      .next { s with
        status := completedStatus s .timeout .none
        result := 0
        seq := { completedSeq s w with cnt := 0 } } ∧
    (1 ≤ n → n ≤ 254 → ∃ t cmd fa, exec (.execute n 0) (accept w s) = .next t ∧ cmd.length = n ∧
      fa.length = n + 9 ∧ CommandBytes s .cmdBuf cmd ∧ t.trace = s.trace ++ writeFrameEvents s.params cmd fa ∧
      t.status = completedStatus s .timeout .poll1 ∧ t.result = 0 ∧ t.seq.polls = 0)

/-- R193, R190: a peer that never reports the ready constant (one that answers every transfer with `x`, not ready) makes
WAIT_READY fail after exactly b iterations, 7b events and 3b ticks. -/
def Obligations.NeverReadyPeerTimesOut : Prop :=
  ∀ (b : Nat) (x : Byte) (w : Word) (s : State), b < 65536 → s.peer = ⟨[], some x⟩ → rev8 x ≠ s.params.ready →
    ∃ t, exec (.waitReady b) (accept w s) = .next t ∧ t.status = completedStatus s .timeout .none ∧
      t.result = 0 ∧ t.seq.polls = BitVec.ofNat 32 b ∧
      t.trace = s.trace ++ missedPollEvents s.params (List.replicate b (x, x)) ∧
      Counts (missedPollEvents s.params (List.replicate b (x, x))) (2 * b) (3 * b) b (7 * b)

/-- R193, R263: a scripted peer that is not ready for the iterations `xs` and ready at the next, within the budget,
makes WAIT_READY succeed at that iteration k, with 7k - 1 events and 3k - 1 ticks; nothing more of the script is used. -/
def Obligations.ScriptedPeerReadyWithinBudget : Prop :=
  ∀ (b : Nat) (xs : List (Byte × Byte)) (x : Byte × Byte) (r : List Byte) (w : Word) (s : State),
    b < 65536 → s.peer.script = pollAnswers xs ++ [x.1, x.2] ++ r → AllMiss s.params xs →
    rev8 x.2 = s.params.ready → xs.length < b →
      ∃ t, exec (.waitReady b) (accept w s) = .next t ∧ t.status = completedStatus s .ok .none ∧
        t.result = 1 ∧ t.seq.polls = BitVec.ofNat 32 (xs.length + 1) ∧ t.peer.script = r ∧
        t.trace = s.trace ++ (missedPollEvents s.params xs ++ pollEvents s.params x) ∧
        Counts (missedPollEvents s.params xs ++ pollEvents s.params x) (2 * (xs.length + 1))
          (3 * (xs.length + 1) - 1) (xs.length + 1) (7 * (xs.length + 1) - 1)

/-- CHECK_ACK (R195, R196, R197, R198): seven answers in one chip-select frame, the first discarded, the six others reversed
into `SEQ.ack` for the comparison, all six whatever they are; RESULT 1 and OK exactly when the last six wire bytes are
`00 00 FF 00 FF 00`, RESULT 0 and NACK otherwise; no copy of the six kept once it has completed (R47; that `SEQ.ack` is
cleared to 0 is the model's choice, log entry 21); the buffers as before. -/
def Obligations.CheckAckOutcome : Prop :=
  ∀ (w : Word) (s : State),
    ∃ answers, ∃ ha : answers.length = 7, PeerGives s.peer answers ∧
      (∀ i (h : i < 6), (ackCheck (accept w s)).2.seq.ack[i] = rev8 answers[i + 1]) ∧
      exec .checkAck (accept w s) =
        .next { s with
          status := completedStatus s
            (if answers.tail = [0x00, 0x00, 0xFF, 0x00, 0xFF, 0x00] then .ok else .nack) .none
          result := if answers.tail = [0x00, 0x00, 0xFF, 0x00, 0xFF, 0x00] then 1 else 0
          seq := completedSeq s w
          cs := false
          trace := s.trace ++ [.csOn, .delay] ++
            List.zipWith .xfer (rev8 s.params.dataRead :: List.replicate 6 0x00#8) answers ++ [.delay, .csOff]
          peer := peerAfter s.peer 7 }

/-! ### Orchestrator and firmware-version query (43_sequencer.md) -/

/-- EXECUTE (R220, R221, R222) with a legal length: for every peer, the command frame of CMD_BUF and then the gates, ending
in one of the four ways of `ExchangeOutcome`; RESULT 1 exactly on OK; STAGE the failing gate or 0; POLLS the iterations of
both polls; the budget left, `st` and the acknowledgment bytes held before `Finish` (R195; as before where none were read)
those of that way, no copy of these bytes after it (R47; that `SEQ.ack` is then 0 is the model's choice, log entry 21);
chip-select deasserted; CMD_BUF and RSP_BUF as
before. -/
def Obligations.ExecuteOutcome : Prop :=
  ∀ (n b : Nat) (w : Word) (s : State), 1 ≤ n → n ≤ 254 → b < 65536 →
    ∃ cmd fa e d, cmd.length = n ∧ fa.length = n + 9 ∧
      PeerGives s.peer (fa ++ e.answers) ∧ CommandBytes s .cmdBuf cmd ∧ (SourceWritten s .cmdBuf n → d = s.draws) ∧
      ExchangeOutcome s.params b s.seq.st e ∧
      (exchange .cmdBuf n (BitVec.ofNat 16 b) (accept w s)).state.seq.ack = heldAck s.seq.ack e.ack ∧
      exec (.execute n b) (accept w s) =
        .next { s with
          status := completedStatus s e.code e.stage
          result := if e.code = .ok then 1 else 0
          seq :=
            { opw := w
              phase := .idle
              acc := checksumAcc s.params.tfi cmd
              cnt := BitVec.ofNat 16 e.left
              idx := BitVec.ofNat 16 (n - 1)
              polls := BitVec.ofNat 32 e.polls
              ack := noAck
              st := e.st }
          cs := false
          trace := s.trace ++ writeFrameEvents s.params cmd fa ++ e.evs
          peer := peerAfter s.peer (n + 9 + e.answers.length)
          draws := d }

/-- The scripted exchange (R222, R263): frame answers, ready at once, the exact ACK, ready at once. EXECUTE completes
with OK, RESULT 1, POLLS 2, n + 36 events, and the rest of the script is left. -/
def Obligations.ScriptedExchangeSucceeds : Prop :=
  ∀ (n b : Nat) (fa r : List Byte) (a0 a1 a2 a3 a4 : Byte) (w : Word) (s : State),
    1 ≤ n → n ≤ 254 → 1 ≤ b → b < 65536 → fa.length = n + 9 → rev8 a1 = s.params.ready → rev8 a4 = s.params.ready →
    s.peer.script = fa ++ [a0, a1] ++ (a2 :: ackBytes) ++ [a3, a4] ++ r →
      ∃ t cmd, exec (.execute n b) (accept w s) = .next t ∧ cmd.length = n ∧ CommandBytes s .cmdBuf cmd ∧
        t.status = completedStatus s .ok .none ∧ t.result = 1 ∧ t.seq.polls = 2 ∧ t.peer.script = r ∧
        t.trace = s.trace ++ writeFrameEvents s.params cmd fa ++ pollEvents s.params (a0, a1) ++
          readFrameEvents s.params 6 (a2 :: ackBytes) ++ pollEvents s.params (a3, a4) ∧
        t.trace.length = s.trace.length + n + 36 ∧ t.mem = s.mem

/-- GET_FW (R223, R224, R226): the exchange with the 1-byte command `P_FW_OPCODE` and budget `P_FW_BUDGET`; on OK the
12 answers after the data-read indicator go to RSP_BUF[0..11] and RESULT is the big-endian value of the first four
logical bytes; on failure RESULT is 0, nothing more is read and the buffers are as before. The sequencer's registers are
those of the way the exchange ended, the index 11 on OK and 0 on failure, the acknowledgment bytes held before `Finish`
(R195) and no copy of them after it (R47; that `SEQ.ack` is then 0 is the model's choice, log entry 21). No draw is taken. -/
def Obligations.GetFwOutcome : Prop :=
  ∀ (w : Word) (s : State),
    ∃ fa e seq t, fa.length = 10 ∧ ExchangeOutcome s.params s.params.fwBudget.toNat s.seq.st e ∧
      (exchange .firmware 1 s.params.fwBudget (accept w s)).state.seq.ack = heldAck s.seq.ack e.ack ∧
      seq =
        { opw := w
          phase := .idle
          acc := checksumAcc s.params.tfi [s.params.fwOpcode]
          cnt := BitVec.ofNat 16 e.left
          idx := if e.code = .ok then 11 else 0
          polls := BitVec.ofNat 32 e.polls
          ack := noAck
          st := e.st } ∧
      exec .getFw (accept w s) = .next t ∧
      (e.code ≠ .ok → PeerGives s.peer (fa ++ e.answers) ∧
        t = { s with
          status := completedStatus s e.code e.stage
          result := 0
          seq := seq
          cs := false
          trace := s.trace ++ writeFrameEvents s.params [s.params.fwOpcode] fa ++ e.evs
          peer := peerAfter s.peer (10 + e.answers.length) }) ∧
      (e.code = .ok → ∃ resp m, ∃ hr : resp.length = 13, PeerGives s.peer (fa ++ e.answers ++ resp) ∧
        (∀ i (h : i < 12), assocGet m (rspOffset i) = some (rev8 resp[i + 1])) ∧
        (∀ a, (a < rspOffset 0 ∨ rspOffset 12 ≤ a) → assocGet m a = s.byteAt a) ∧
        t = { s with
          status := completedStatus s .ok .none
          result := firmwareValue (rev8 resp[1]) (rev8 resp[2]) (rev8 resp[3]) (rev8 resp[4])
          seq := seq
          cs := false
          mem := m
          trace := s.trace ++ writeFrameEvents s.params [s.params.fwOpcode] fa ++ e.evs ++
            readFrameEvents s.params 12 resp
          peer := peerAfter s.peer (10 + e.answers.length + 13) })

/-- R225: the firmware value is the big-endian number of the four bytes. -/
def Obligations.FirmwareValueIsBigEndian : Prop :=
  ∀ b0 b1 b2 b3 : Byte,
    (firmwareValue b0 b1 b2 b3).toNat =
      b0.toNat * 2 ^ 24 + b1.toNat * 2 ^ 16 + b2.toNat * 2 ^ 8 + b3.toNat

/-- R223: GET_FW neither reads nor writes the command the host prepared: whatever the buffers hold before, it ends with
the same registers, trace, chip-select and peer, and every CMD_BUF byte as it was. -/
def Obligations.GetFwIsIndependentOfTheBuffers : Prop :=
  ∀ (s : State) (m : List Host.Cell), ∃ t u,
    exec .getFw s = .next t ∧ exec .getFw { s with mem := m } = .next u ∧ u = { t with mem := u.mem } ∧
    ∀ i < 256, t.byteAt (cmdOffset i) = s.byteAt (cmdOffset i) ∧ u.byteAt (cmdOffset i) = assocGet m (cmdOffset i)

/-! ### What the operations leave unchanged -/

/-- No operation writes CMD_BUF (R48, R306), and RSP_BUF is written only by READ_DATA n (bytes 0 to n-1) and by a GET_FW
that ends with OK (bytes 0 to 11) (R49): every other byte reads as before. -/
def Obligations.OperationsWriteOnlyTheResponse : Prop :=
  ∀ (i : Instr) (s t : State), exec i s = .next t →
    (∀ k < 256, t.byteAt (cmdOffset k) = s.byteAt (cmdOffset k)) ∧
    match i with
    | .readData n => ∀ a, (a < rspOffset 0 ∨ rspOffset n ≤ a) → t.byteAt a = s.byteAt a
    | .getFw =>
      (t.status.code ≠ .ok → ∀ a, t.byteAt a = s.byteAt a) ∧
      ∀ a, (a < rspOffset 0 ∨ rspOffset 12 ≤ a) → t.byteAt a = s.byteAt a
    | _ => ∀ a, t.byteAt a = s.byteAt a

/-- The registers each operation leaves as they were: STATUS.OVR (R37), the operation word (R41), the parameters (R53),
the host, the schedule and the reset count always; RESULT, the checksum accumulator, the budget, the status byte, the
poll count, the index and the draws in every operation whose rule does not write them. No operation leaves a copy of the
acknowledgment bytes (R47; that `SEQ.ack` is then 0 is the model's choice, log entry 21). -/
def Obligations.OperationsLeaveOtherRegisters : Prop :=
  ∀ (i : Instr) (s t : State), exec i s = .next t →
    (t.status.ovr = s.status.ovr ∧ t.seq.opw = s.seq.opw ∧ t.params = s.params ∧ t.host = s.host ∧
      t.sched = s.sched ∧ t.resets = s.resets) ∧
    match i with
    | .bitrev _ => t.seq = { s.seq with phase := .idle, ack := noAck } ∧ t.draws = s.draws ∧ t.peer = s.peer
    | .xferWr _ => t.seq = { s.seq with phase := .idle, ack := noAck } ∧ t.draws = s.draws ∧ t.result = s.result
    | .xferRd => t.seq = { s.seq with phase := .idle, ack := noAck } ∧ t.draws = s.draws
    | .writeCmd _ =>
      t.seq = { s.seq with phase := .idle, ack := noAck, acc := t.seq.acc, idx := t.seq.idx } ∧ t.result = s.result
    | .readData _ =>
      t.seq = { s.seq with phase := .idle, ack := noAck, idx := t.seq.idx } ∧ t.draws = s.draws ∧ t.result = s.result
    | .waitReady _ =>
      t.seq = { s.seq with
        phase := .idle, ack := noAck, cnt := t.seq.cnt, st := t.seq.st, polls := t.seq.polls } ∧
      t.draws = s.draws
    | .checkAck => t.seq = { s.seq with phase := .idle, ack := noAck } ∧ t.draws = s.draws
    | .execute _ _ => t.seq.ack = noAck
    | .getFw => t.seq.ack = noAck ∧ t.draws = s.draws

/-- STATUS.STAGE ends at 0 for the seven operations that are no exchange, and for an exchange that ends with OK or
ARG_ERR (R39). -/
def Obligations.StageEndsAtZeroOutsideFailedExchanges : Prop :=
  ∀ (i : Instr) (s t : State), exec i s = .next t → t.status.stage ≠ .none →
    ((∃ n b, i = .execute n b) ∨ i = .getFw) ∧ (t.status.code = .timeout ∨ t.status.code = .nack)

/-! ### Host accesses (20_memory.md, 10_state.md) -/

/-- R102: a host write of a word to OP is dropped with OVR set while BUSY = 1, and else accepted, in one step. -/
def Obligations.WriteToOpIsAcceptedWhenIdle : Prop :=
  ∀ (w : Word) (s : State),
    hostWrite 4 0x000 w s =
      if s.status.busy then some { s with status := { s.status with ovr := true } }
      else some { s with
        status := { busy := true, done := false, ovr := s.status.ovr, code := .ok, stage := .none }
        result := 0
        seq := { s.seq with opw := w, polls := 0, phase := .running [.dispatch] } }

/-- R76: a host write to OP, or any permitted host write to CMD_BUF, made while BUSY = 1 changes nothing but OVR. -/
def Obligations.WritesWhileBusyAreDropped : Prop :=
  ∀ (width off : Nat) (v : Word) (s : State), s.status.busy = true →
    (off = 0x000 ∧ width = 4) ∨
      (0x100 ≤ off ∧ off < 0x200 ∧ (width = 1 ∨ width = 2 ∨ width = 4) ∧ off % width = 0) →
    hostWrite width off v s = some { s with status := { s.status with ovr := true } }

/-- R71, R74, R255: a host line with an access of the window map, of a width and alignment it permits, is performed, in
every state; a line with any other access stops the run with HostAccessFault and leaves nothing changed. -/
def Obligations.HostAccessesAreThoseOfTheWindowMap : Prop :=
  ∀ (width off name : Nat) (e : HostExpr) (s : State),
    (s.host.prog[s.host.pos]? = some (.load width off name) →
      if ((off = 0x004 ∨ off = 0x008) ∧ width = 4) ∨
        (0x100 ≤ off ∧ off < 0x300 ∧ (width = 1 ∨ width = 2 ∨ width = 4) ∧ off % width = 0)
      then ∃ t, hostStep s = .next t else hostStep s = .fault (.hostAccess off width false)) ∧
    (s.host.prog[s.host.pos]? = some (.store width off e) →
      if ((off = 0x000 ∨ off = 0x004) ∧ width = 4) ∨
        (0x100 ≤ off ∧ off < 0x200 ∧ (width = 1 ∨ width = 2 ∨ width = 4) ∧ off % width = 0)
      then ∃ t, hostStep s = .next t else hostStep s = .fault (.hostAccess off width true))

/-- R35, R37, R41: in a step that is not the reset input, BUSY is set only by a host line that writes OP while BUSY = 0, and
cleared only with DONE set and the sequencer idle; OVR is set only by a host line that writes OP or CMD_BUF while
BUSY = 1, and cleared only by one that writes 1 to STATUS bit 2; the operation word changes only at acceptance. -/
def Obligations.BusyOvrAndWordChangeOnlyAsStated : Prop :=
  ∀ s t : State, step s = .next t → (¬∃ r, s.sched = .reset :: r) →
    (s.status.busy = false → t.status.busy = true → ∃ e, s.host.prog[s.host.pos]? = some (.store 4 0x000 e)) ∧
    (s.status.busy = true → t.status.busy = false → t.status.done = true ∧ t.seq.phase = .idle) ∧
    (s.status.ovr = false → t.status.ovr = true → s.status.busy = true ∧
      ∃ width off e, s.host.prog[s.host.pos]? = some (.store width off e) ∧
        (off = 0x000 ∨ (0x100 ≤ off ∧ off < 0x200))) ∧
    (s.status.ovr = true → t.status.ovr = false → ∃ e, s.host.prog[s.host.pos]? = some (.store 4 0x004 e) ∧
      (evalHost s.host.vars e).getLsbD 2 = true) ∧
    (t.seq.opw ≠ s.seq.opw → s.status.busy = false ∧ ∃ e, s.host.prog[s.host.pos]? = some (.store 4 0x000 e) ∧
      t.seq.opw = evalHost s.host.vars e)

/-- R34, R40: the STATUS a host reads, bit by bit as a number, POLLS saturating; a read of it changes nothing; and a host
write to STATUS changes only OVR, whether BUSY is 0 or 1. -/
def Obligations.StatusRegister : Prop :=
  ∀ (v : Word) (s : State),
    hostRead 4 0x004 s = some (statusWord s, s) ∧
    (statusWord s).toNat = s.status.busy.toNat + 2 * s.status.done.toNat + 4 * s.status.ovr.toNat +
      16 * (match s.status.code with
        | .ok => 0 | .timeout => 1 | .nack => 2 | .illegalOp => 3 | .argErr => 4) +
      256 * (match s.status.stage with
        | .none => 0 | .frameWrite => 1 | .poll1 => 2 | .ackCheck => 3 | .poll2 => 4 | .responseRead => 5) +
      65536 * min s.seq.polls.toNat 0xFFFF ∧
    hostWrite 4 0x004 v s = some { s with status := { s.status with ovr := s.status.ovr && !v.getLsbD 2 } }

/-- R75: a permitted write to CMD_BUF while idle stores byte k of the value at offset `off + k` and leaves every other
byte, and everything else, as before. -/
def Obligations.CommandBufferWritesAreLittleEndian : Prop :=
  ∀ (width off : Nat) (v : Word) (s : State), s.status.busy = false → 0x100 ≤ off → off < 0x200 →
    (width = 1 ∨ width = 2 ∨ width = 4) → off % width = 0 →
      ∃ m, hostWrite width off v s = some { s with mem := m } ∧
        (∀ k < width, assocGet m (off + k) = some (BitVec.ofNat 8 (v.toNat / 2 ^ (8 * k)))) ∧
        ∀ a, (a < off ∨ off + width ≤ a) → assocGet m a = s.byteAt a

/-- R75: a permitted read of buffer bytes that have been written gives the sum of byte k shifted by 8k, and changes
nothing: of CMD_BUF always, of RSP_BUF while idle (R81). -/
def Obligations.BufferReadsAreLittleEndian : Prop :=
  ∀ (off : Nat) (s : State) (bs : List Byte), 0x100 ≤ off → off < 0x300 →
    (bs.length = 1 ∨ bs.length = 2 ∨ bs.length = 4) → off % bs.length = 0 →
    (off < 0x200 ∨ s.status.busy = false) →
    (∀ k (h : k < bs.length), s.byteAt (off + k) = some bs[k]) →
      ∃ v, hostRead bs.length off s = some (v, s) ∧
        v.toNat = ((List.range bs.length).map fun k => (bs.getD k 0).toNat * 2 ^ (8 * k)).sum

/-- A value stored in CMD_BUF while idle is the value loaded back with the same width (R75), zero-extended (R110). -/
def Obligations.StoreThenLoadReturnsTheValue : Prop :=
  ∀ (width off : Nat) (v : Word) (s t : State), s.status.busy = false → 0x100 ≤ off → off < 0x200 →
    hostWrite width off v s = some t →
      hostRead width off t = some (BitVec.ofNat 32 (v.toNat % 2 ^ (8 * width)), t)

/-- R78: a permitted host read changes nothing of the block: at most unspecified values are drawn (R55, R81), and a read
of STATUS, or of RESULT while idle, draws none; and a read of RESULT while idle gives RESULT (R33, R71). -/
def Obligations.ReadsHaveNoSideEffects : Prop :=
  (∀ (width off : Nat) (s t : State) (v : Word), hostRead width off s = some (v, t) →
    (∃ d, t = { s with draws := d }) ∧ (off = 0x004 → t = s) ∧ (off = 0x008 → s.status.busy = false → t = s)) ∧
  ∀ s : State, s.status.busy = false → hostRead 4 0x008 s = some (s.result, s)

/-- R81: while BUSY = 1 each byte a permitted read of RSP_BUF gives is drawn (in the model the next free values,
`Config.freeByte` at the successive counts of draws, log entry 11), put together little-endian (R75), whatever the buffers
hold; a read of RESULT is 0 or what the running operation has written so far; a read of CMD_BUF is what it would be while
idle. -/
def Obligations.ReadsWhileBusy : Prop :=
  ∀ (width off : Nat) (s : State) (m : List Host.Cell), s.status.busy = true →
    (0x200 ≤ off → off < 0x300 →
      (hostRead width off { s with mem := m }).map Prod.fst = (hostRead width off s).map Prod.fst) ∧
    (0x200 ≤ off → off < 0x300 → (width = 1 ∨ width = 2 ∨ width = 4) → off % width = 0 →
      ∃ v, hostRead width off s = some (v, { s with draws := s.draws + width }) ∧
        v.toNat =
          ((List.range width).map fun k => (Config.freeByte (s.draws + k)).toNat * 2 ^ (8 * k)).sum) ∧
    (∃ v t, hostRead 4 0x008 s = some (v, t) ∧ (v = 0 ∨ v = s.result)) ∧
    (0x100 ≤ off → off < 0x200 →
      (hostRead width off s).map Prod.fst =
        (hostRead width off { s with status := { s.status with busy := false } }).map Prod.fst)

/-- R55: a read of a buffer byte that nothing has written is a fresh draw, for the host and for the frame writer alike;
a byte that has been written reads as written. -/
def Obligations.UnwrittenBytesAreDraws : Prop :=
  ∀ (off : Nat) (s : State),
    (s.byteAt off = none → s.readByteAt off = (Config.freeByte s.draws, { s with draws := s.draws + 1 })) ∧
    (∀ b, s.byteAt off = some b → s.readByteAt off = (b, s)) ∧
    ∀ i, commandByte .cmdBuf i s = s.readByteAt (cmdOffset i)

/-- A host line while an operation runs leaves the operation alone (R72, R76, R78): the sequencer, RESULT, the buffers,
chip-select, the trace, the peer, and STATUS but for OVR are as before. -/
def Obligations.HostLinesLeaveARunningOperationAlone : Prop :=
  ∀ s t : State, s.status.busy = true → hostStep s = .next t →
    t.seq = s.seq ∧ t.result = s.result ∧ t.mem = s.mem ∧ t.cs = s.cs ∧ t.trace = s.trace ∧ t.peer = s.peer ∧
    t.params = s.params ∧ t.status = { s.status with ovr := t.status.ovr }

/-- A dropped write and a sequencer step commute (R73, R76): OVR does not touch the running operation, nor it OVR. -/
def Obligations.DroppedWritesCommuteWithSequencerSteps : Prop :=
  ∀ s : State, seqStep (setOvr s) = setOvr (seqStep s)

/-! ### Completion, reset, invariants (60_exceptions.md, 70_reset_and_hazards.md) -/

/-- R80, R253: the sequencer step that ends an operation sets DONE, writes CODE and STAGE and returns to Idle in that one
step, and writes neither RESULT nor a buffer nor the trace; in a state that meets the invariant chip-select is deasserted
there. It also leaves no copy of the acknowledgment bytes (R47; that `SEQ.ack` is then 0, and from this step on, is the
model's choice, log entry 21). -/
def Obligations.CompletionIsAtomic : Prop :=
  (∀ s : State, s.status.busy = true → (seqStep s).status.busy = false →
    (seqStep s).status.done = true ∧ (seqStep s).seq.phase = .idle ∧ (seqStep s).seq.ack = noAck ∧
    (seqStep s).status.ovr = s.status.ovr ∧ (seqStep s).result = s.result ∧ (seqStep s).mem = s.mem ∧
    (seqStep s).trace = s.trace ∧ (seqStep s).cs = s.cs ∧ (Inv s → s.cs = false)) ∧
  ∀ (code : Code) (stage : Stage) (s : State),
    finish code stage s =
      { s with
        status := { busy := false, done := true, ovr := s.status.ovr, code := code, stage := stage }
        seq := { s.seq with phase := .idle, ack := noAck } }

/-- R290, R291, R292: the reset input, in any state, leaves STATUS and RESULT 0, chip-select deasserted, the sequencer
idle, an empty trace and buffers nothing has written; it does not touch the configuration or the peer, nor (the model's
reading, log entry 18) the host and the rest of the schedule, and (the model's own count, log entry 12) one more reset is
counted. -/
def Obligations.ResetInputAbortsAtOnce : Prop :=
  ∀ (s : State) (r : List Turn), s.sched = .reset :: r →
    ∃ t, step s = .next t ∧ statusWord t = 0 ∧ t.result = 0 ∧ t.cs = false ∧ t.seq.phase = .idle ∧
      t.seq.polls = 0 ∧ t.trace = [] ∧ (∀ a, t.byteAt a = none) ∧
      t.params = s.params ∧ t.host = s.host ∧ t.peer = s.peer ∧ t.sched = r ∧ t.resets = s.resets + 1

/-- R54: the values the spec gives after reset. -/
def Obligations.ResetState : Prop :=
  statusWord State.reset = 0 ∧ State.reset.result = 0 ∧ State.reset.cs = false ∧ State.reset.seq.phase = .idle ∧
  State.reset.seq.polls = 0 ∧ State.reset.trace = [] ∧ ∀ a, State.reset.byteAt a = none

/-- The invariants hold at reset (R54). That `SEQ.ack`, which R54 leaves unspecified, is 0 there, as `Inv` asks when idle, is
the model's choice (log entry 21); `TransportReady` is the part of the premise of R296 that State shows (log entry 5). -/
def Obligations.ResetStateSatisfiesInv : Prop :=
  Inv State.reset ∧ StageConfined State.reset ∧ StageShown State.reset ∧ TransportReady State.reset

/-- Every step keeps the invariant (R36, R38, R42, R47, R51, R250, R253), whichever agent moves, the reset input too (R54,
R290). That `SEQ.ack` is 0 whenever the block is idle, after a completion (R47) and after a reset, where R54 leaves it
unspecified, is the model's choice (log entry 21). -/
def Obligations.EveryStepKeepsInv : Prop := ∀ s t : State, Inv s → step s = .next t → Inv t

/-- Every step keeps STAGE at 0 outside an exchange (R39), and while an EXECUTE or a GET_FW runs every step keeps STAGE at
the stage in progress, 1 to 5, that what is left to run belongs to (R39, R220, R226). -/
def Obligations.EveryStepKeepsStageConfined : Prop :=
  (∀ s t : State, StageConfined s → step s = .next t → StageConfined t) ∧
  ∀ s t : State, StageShown s → step s = .next t → StageShown t

/-- TRACE is never cleared except by reset (R52): every other step extends it. -/
def Obligations.TraceOnlyGrows : Prop :=
  ∀ s t : State, step s = .next t → (∃ r, s.sched = .reset :: r) ∨ s.trace <+: t.trace

/-- The parameters are configuration: no step changes them (R53). -/
def Obligations.ParametersNeverChange : Prop := ∀ s t : State, step s = .next t → t.params = s.params

/-- R310: the transfers, ticks, chip-select frames and events of every operation and outcome; none for a word that is
refused with ILLEGAL_OP. -/
def Obligations.EventCountsPerOperation : Prop :=
  (∀ (w : Word) (s : State) (e : DecodeError), decode w = .error e →
    ∃ t, operationTurn (accept w s) = .next t ∧ t.status.code = .illegalOp ∧ t.trace = s.trace) ∧
  ∀ (i : Instr) (w : Word) (s t : State), i.wf = true → exec i (accept w s) = .next t →
    ∃ evs, t.trace = s.trace ++ evs ∧
      match i with
      | .bitrev _ => Counts evs 0 0 0 0
      | .xferWr _ => Counts evs 1 0 0 1
      | .xferRd => Counts evs 1 0 0 1
      | .writeCmd n => if t.status.code = .argErr then Counts evs 0 0 0 0 else Counts evs (n + 9) 2 1 (n + 13)
      | .readData n => if t.status.code = .argErr then Counts evs 0 0 0 0 else Counts evs (n + 1) 2 1 (n + 5)
      | .waitReady b =>
        (t.status.code = .timeout ∧ Counts evs (2 * b) (3 * b) b (7 * b)) ∨
        (t.status.code = .ok ∧ ∃ k, 1 ≤ k ∧ k ≤ b ∧ Counts evs (2 * k) (3 * k - 1) k (7 * k - 1))
      | .checkAck => Counts evs 7 2 1 11
      | .execute n b =>
        (t.status.code = .argErr ∧ Counts evs 0 0 0 0) ∨
        (t.status.code = .timeout ∧ t.status.stage = .poll1 ∧
          Counts evs (n + 9 + 2 * b) (2 + 3 * b) (1 + b) (n + 13 + 7 * b)) ∨
        ∃ k1, 1 ≤ k1 ∧ k1 ≤ b ∧
          ((t.status.code = .nack ∧ t.status.stage = .ackCheck ∧
            Counts evs (n + 16 + 2 * k1) (3 * k1 + 3) (k1 + 2) (n + 23 + 7 * k1)) ∨
          (t.status.code = .timeout ∧ t.status.stage = .poll2 ∧
            Counts evs (n + 16 + 2 * k1 + 2 * b) (3 * k1 + 3 + 3 * b) (k1 + 2 + b) (n + 23 + 7 * k1 + 7 * b)) ∨
          ∃ k2, 1 ≤ k2 ∧ k2 ≤ b ∧ t.status.code = .ok ∧
            Counts evs (n + 16 + 2 * (k1 + k2)) (3 * (k1 + k2) + 2) (k1 + k2 + 2) (n + 22 + 7 * (k1 + k2)))
      | .getFw =>
        let b := s.params.fwBudget.toNat
        (t.status.code = .timeout ∧ t.status.stage = .poll1 ∧
          Counts evs (10 + 2 * b) (2 + 3 * b) (1 + b) (14 + 7 * b)) ∨
        ∃ k1, 1 ≤ k1 ∧ k1 ≤ b ∧
          ((t.status.code = .nack ∧ t.status.stage = .ackCheck ∧
            Counts evs (17 + 2 * k1) (3 * k1 + 3) (k1 + 2) (24 + 7 * k1)) ∨
          (t.status.code = .timeout ∧ t.status.stage = .poll2 ∧
            Counts evs (17 + 2 * k1 + 2 * b) (3 * k1 + 3 + 3 * b) (k1 + 2 + b) (24 + 7 * k1 + 7 * b)) ∨
          ∃ k2, 1 ≤ k2 ∧ k2 ≤ b ∧ t.status.code = .ok ∧
            Counts evs (30 + 2 * (k1 + k2)) (3 * (k1 + k2) + 4) (k1 + k2 + 3) (40 + 7 * (k1 + k2)))

/-- R311: the most ticks and transfers an EXECUTE or a GET_FW takes. -/
def Obligations.ExchangesAreBounded : Prop :=
  ∀ (n b : Nat) (w : Word) (s : State), n < 256 → b < 65536 →
    (∃ t evs, exec (.execute n b) (accept w s) = .next t ∧ t.trace = s.trace ++ evs ∧
      ticks evs ≤ 6 * b + 3 ∧ transfers evs ≤ n + 16 + 4 * b) ∧
    ∃ t evs, exec .getFw (accept w s) = .next t ∧ t.trace = s.trace ++ evs ∧
      ticks evs ≤ 6 * s.params.fwBudget.toNat + 4 ∧ transfers evs ≤ 30 + 4 * s.params.fwBudget.toNat

/-! ### The host program (30_encoding.md R110, R111) -/

/-- A host line does what R110 says: a permitted store or load, a local assignment, and (that a condition holds when its
value is not 0 is the model's choice, log entry 15) a branch. A host expression is the number R110 and R15 say: a constant,
a name's value (a free value where none was assigned: the model's choice, log entry 9), a sum and a difference modulo 2^32
and a comparison of unsigned values that gives 1 or 0 (the model's choice, log entry 15), a bit slice (a free value where it
names no bits of a 32-bit value: the model's choice, log entry 26). -/
def Obligations.HostLines : Prop :=
  (∀ (s t : State) (width off name target : Nat) (e : HostExpr) (v : Word),
    (s.host.prog[s.host.pos]? = some (.store width off e) →
      hostWrite width off (evalHost s.host.vars e) s = some t →
      hostStep s = .next { t with host := { t.host with pos := s.host.pos + 1 } }) ∧
    (s.host.prog[s.host.pos]? = some (.load width off name) → hostRead width off s = some (v, t) →
      ∃ u, hostStep s = .next u ∧ assocGet u.host.vars name = some v ∧ u.host.pos = s.host.pos + 1 ∧
        (∀ x, x ≠ name → assocGet u.host.vars x = assocGet s.host.vars x) ∧ u = { t with host := u.host }) ∧
    (s.host.prog[s.host.pos]? = some (.assign name e) →
      ∃ u, hostStep s = .next u ∧ assocGet u.host.vars name = some (evalHost s.host.vars e) ∧
        u.host.pos = s.host.pos + 1 ∧ (∀ x, x ≠ name → assocGet u.host.vars x = assocGet s.host.vars x) ∧
        u = { s with host := u.host }) ∧
    (s.host.prog[s.host.pos]? = some (.branch e target) →
      hostStep s = .next { s with host := { s.host with
        pos := if evalHost s.host.vars e = 0 then s.host.pos + 1 else target } })) ∧
  ∀ (vars : List (Nat × Word)) (a b : HostExpr) (w : Word) (x hi lo : Nat),
    evalHost vars (.const w) = w ∧
    (∀ v, assocGet vars x = some v → evalHost vars (.name x) = v) ∧
    (assocGet vars x = none → evalHost vars (.name x) = Config.unassigned x) ∧
    (evalHost vars (.add a b)).toNat = ((evalHost vars a).toNat + (evalHost vars b).toNat) % 2 ^ 32 ∧
    (evalHost vars (.sub a b)).toNat = ((evalHost vars a).toNat + (2 ^ 32 - (evalHost vars b).toNat)) % 2 ^ 32 ∧
    (lo ≤ hi → hi < 32 →
      (evalHost vars (.slice a hi lo)).toNat = (evalHost vars a).toNat / 2 ^ lo % 2 ^ (hi + 1 - lo)) ∧
    (hi < lo ∨ 32 ≤ hi → evalHost vars (.slice a hi lo) = Config.unstatedSlice (evalHost vars a) hi lo) ∧
    evalHost vars (.compare .eq a b) = (if (evalHost vars a).toNat = (evalHost vars b).toNat then 1 else 0) ∧
    evalHost vars (.compare .ne a b) = (if (evalHost vars a).toNat = (evalHost vars b).toNat then 0 else 1) ∧
    evalHost vars (.compare .lt a b) = (if (evalHost vars a).toNat < (evalHost vars b).toNat then 1 else 0) ∧
    evalHost vars (.compare .le a b) = (if (evalHost vars a).toNat ≤ (evalHost vars b).toNat then 1 else 0) ∧
    evalHost vars (.compare .gt a b) = (if (evalHost vars b).toNat < (evalHost vars a).toNat then 1 else 0) ∧
    evalHost vars (.compare .ge a b) = (if (evalHost vars b).toNat ≤ (evalHost vars a).toNat then 1 else 0)

/-- `wait_idle -> s` (R111): two host turns at its first line end past it with the name holding STATUS when BUSY = 0, and
back at its first line when BUSY = 1; the program, every other name and the rest of the machine are as before, the two
turns used up. -/
def Obligations.WaitIdleEndsWithStatusWhenIdle : Prop :=
  ∀ (s : State) (pre post : List HostStmt) (name : Nat),
    s.host.prog = pre ++ waitIdle pre.length name ++ post → s.host.pos = pre.length →
      ∃ t, GoodRun 2 { s with sched := [.host, .host] } t ∧
        assocGet t.host.vars name = some (statusWord s) ∧
        t.host.pos = (if s.status.busy then pre.length else pre.length + 2) ∧
        t.host.prog = s.host.prog ∧ (∀ x, x ≠ name → assocGet t.host.vars x = assocGet s.host.vars x) ∧
        t = { s with sched := [], host := t.host }
end

