-- ==== Sys2Proof/Laws/State.lean ====
section
/-! SUPPORT. One lemma per field of State per update, each true by rfl, so that no later proof unfolds a record update. -/

namespace Sys2Proof.Machine

section emitFields
variable (s : State) (e : Event)

@[simp] theorem emit_status : (s.emit e).status = s.status := rfl
@[simp] theorem emit_result : (s.emit e).result = s.result := rfl
@[simp] theorem emit_seq : (s.emit e).seq = s.seq := rfl
@[simp] theorem emit_mem : (s.emit e).mem = s.mem := rfl
@[simp] theorem emit_cs : (s.emit e).cs = s.cs := rfl
@[simp] theorem emit_trace : (s.emit e).trace = s.trace ++ [e] := rfl
@[simp] theorem emit_params : (s.emit e).params = s.params := rfl
@[simp] theorem emit_host : (s.emit e).host = s.host := rfl
@[simp] theorem emit_peer : (s.emit e).peer = s.peer := rfl
@[simp] theorem emit_sched : (s.emit e).sched = s.sched := rfl
@[simp] theorem emit_draws : (s.emit e).draws = s.draws := rfl
@[simp] theorem emit_resets : (s.emit e).resets = s.resets := rfl

end emitFields

section csAssertFields
variable (s : State)

@[simp] theorem csAssert_status : (csAssert s).status = s.status := rfl
@[simp] theorem csAssert_result : (csAssert s).result = s.result := rfl
@[simp] theorem csAssert_seq : (csAssert s).seq = s.seq := rfl
@[simp] theorem csAssert_mem : (csAssert s).mem = s.mem := rfl
@[simp] theorem csAssert_cs : (csAssert s).cs = true := rfl
@[simp] theorem csAssert_trace : (csAssert s).trace = s.trace ++ [.csOn] := rfl
@[simp] theorem csAssert_params : (csAssert s).params = s.params := rfl
@[simp] theorem csAssert_host : (csAssert s).host = s.host := rfl
@[simp] theorem csAssert_peer : (csAssert s).peer = s.peer := rfl
@[simp] theorem csAssert_sched : (csAssert s).sched = s.sched := rfl
@[simp] theorem csAssert_draws : (csAssert s).draws = s.draws := rfl
@[simp] theorem csAssert_resets : (csAssert s).resets = s.resets := rfl

end csAssertFields

section csDeassertFields
variable (s : State)

@[simp] theorem csDeassert_status : (csDeassert s).status = s.status := rfl
@[simp] theorem csDeassert_result : (csDeassert s).result = s.result := rfl
@[simp] theorem csDeassert_seq : (csDeassert s).seq = s.seq := rfl
@[simp] theorem csDeassert_mem : (csDeassert s).mem = s.mem := rfl
@[simp] theorem csDeassert_cs : (csDeassert s).cs = false := rfl
@[simp] theorem csDeassert_trace : (csDeassert s).trace = s.trace ++ [.csOff] := rfl
@[simp] theorem csDeassert_params : (csDeassert s).params = s.params := rfl
@[simp] theorem csDeassert_host : (csDeassert s).host = s.host := rfl
@[simp] theorem csDeassert_peer : (csDeassert s).peer = s.peer := rfl
@[simp] theorem csDeassert_sched : (csDeassert s).sched = s.sched := rfl
@[simp] theorem csDeassert_draws : (csDeassert s).draws = s.draws := rfl
@[simp] theorem csDeassert_resets : (csDeassert s).resets = s.resets := rfl

end csDeassertFields

section delayFields
variable (s : State)

@[simp] theorem delay_status : (delay s).status = s.status := rfl
@[simp] theorem delay_result : (delay s).result = s.result := rfl
@[simp] theorem delay_seq : (delay s).seq = s.seq := rfl
@[simp] theorem delay_mem : (delay s).mem = s.mem := rfl
@[simp] theorem delay_cs : (delay s).cs = s.cs := rfl
@[simp] theorem delay_trace : (delay s).trace = s.trace ++ [.delay] := rfl
@[simp] theorem delay_params : (delay s).params = s.params := rfl
@[simp] theorem delay_host : (delay s).host = s.host := rfl
@[simp] theorem delay_peer : (delay s).peer = s.peer := rfl
@[simp] theorem delay_sched : (delay s).sched = s.sched := rfl
@[simp] theorem delay_draws : (delay s).draws = s.draws := rfl
@[simp] theorem delay_resets : (delay s).resets = s.resets := rfl

end delayFields

section setByteFields
variable (s : State) (off : Nat) (b : Byte)

@[simp] theorem setByte_status : (s.setByte off b).status = s.status := rfl
@[simp] theorem setByte_result : (s.setByte off b).result = s.result := rfl
@[simp] theorem setByte_seq : (s.setByte off b).seq = s.seq := rfl
@[simp] theorem setByte_mem : (s.setByte off b).mem = assocSet s.mem off b := rfl
@[simp] theorem setByte_cs : (s.setByte off b).cs = s.cs := rfl
@[simp] theorem setByte_trace : (s.setByte off b).trace = s.trace := rfl
@[simp] theorem setByte_params : (s.setByte off b).params = s.params := rfl
@[simp] theorem setByte_host : (s.setByte off b).host = s.host := rfl
@[simp] theorem setByte_peer : (s.setByte off b).peer = s.peer := rfl
@[simp] theorem setByte_sched : (s.setByte off b).sched = s.sched := rfl
@[simp] theorem setByte_draws : (s.setByte off b).draws = s.draws := rfl
@[simp] theorem setByte_resets : (s.setByte off b).resets = s.resets := rfl

end setByteFields

section drawByteFields
variable (s : State)

@[simp] theorem drawByte_status : s.drawByte.2.status = s.status := rfl
@[simp] theorem drawByte_result : s.drawByte.2.result = s.result := rfl
@[simp] theorem drawByte_seq : s.drawByte.2.seq = s.seq := rfl
@[simp] theorem drawByte_mem : s.drawByte.2.mem = s.mem := rfl
@[simp] theorem drawByte_cs : s.drawByte.2.cs = s.cs := rfl
@[simp] theorem drawByte_trace : s.drawByte.2.trace = s.trace := rfl
@[simp] theorem drawByte_params : s.drawByte.2.params = s.params := rfl
@[simp] theorem drawByte_host : s.drawByte.2.host = s.host := rfl
@[simp] theorem drawByte_peer : s.drawByte.2.peer = s.peer := rfl
@[simp] theorem drawByte_sched : s.drawByte.2.sched = s.sched := rfl
@[simp] theorem drawByte_draws : s.drawByte.2.draws = s.draws + 1 := rfl
@[simp] theorem drawByte_resets : s.drawByte.2.resets = s.resets := rfl

end drawByteFields

section xferFields
variable (s : State) (m : Byte)

@[simp] theorem xfer_status : (xfer m s).2.status = s.status := rfl
@[simp] theorem xfer_result : (xfer m s).2.result = s.result := rfl
@[simp] theorem xfer_seq : (xfer m s).2.seq = s.seq := rfl
@[simp] theorem xfer_mem : (xfer m s).2.mem = s.mem := rfl
@[simp] theorem xfer_cs : (xfer m s).2.cs = s.cs := rfl
@[simp] theorem xfer_trace : (xfer m s).2.trace = s.trace ++ [.xfer m (peerAnswer m s)] := rfl
@[simp] theorem xfer_params : (xfer m s).2.params = s.params := rfl
@[simp] theorem xfer_host : (xfer m s).2.host = s.host := rfl
@[simp] theorem xfer_peer : (xfer m s).2.peer = { s.peer with script := s.peer.script.tail } := rfl
@[simp] theorem xfer_sched : (xfer m s).2.sched = s.sched := rfl
@[simp] theorem xfer_draws : (xfer m s).2.draws = s.draws := rfl
@[simp] theorem xfer_resets : (xfer m s).2.resets = s.resets := rfl

end xferFields

section writeByteFields
variable (s : State) (v : Byte)

@[simp] theorem writeByte_status : (writeByte v s).status = s.status := rfl
@[simp] theorem writeByte_result : (writeByte v s).result = s.result := rfl
@[simp] theorem writeByte_seq : (writeByte v s).seq = s.seq := rfl
@[simp] theorem writeByte_mem : (writeByte v s).mem = s.mem := rfl
@[simp] theorem writeByte_cs : (writeByte v s).cs = s.cs := rfl
@[simp] theorem writeByte_trace : (writeByte v s).trace = s.trace ++ [.xfer (rev8 v) (peerAnswer (rev8 v) s)] := rfl
@[simp] theorem writeByte_params : (writeByte v s).params = s.params := rfl
@[simp] theorem writeByte_host : (writeByte v s).host = s.host := rfl
@[simp] theorem writeByte_peer : (writeByte v s).peer = { s.peer with script := s.peer.script.tail } := rfl
@[simp] theorem writeByte_sched : (writeByte v s).sched = s.sched := rfl
@[simp] theorem writeByte_draws : (writeByte v s).draws = s.draws := rfl
@[simp] theorem writeByte_resets : (writeByte v s).resets = s.resets := rfl

end writeByteFields

section readByteFields
variable (s : State)

@[simp] theorem readByte_status : (readByte s).2.status = s.status := rfl
@[simp] theorem readByte_result : (readByte s).2.result = s.result := rfl
@[simp] theorem readByte_seq : (readByte s).2.seq = s.seq := rfl
@[simp] theorem readByte_mem : (readByte s).2.mem = s.mem := rfl
@[simp] theorem readByte_cs : (readByte s).2.cs = s.cs := rfl
@[simp] theorem readByte_trace : (readByte s).2.trace = s.trace ++ [.xfer Config.readFill (peerAnswer Config.readFill s)] := rfl
@[simp] theorem readByte_params : (readByte s).2.params = s.params := rfl
@[simp] theorem readByte_host : (readByte s).2.host = s.host := rfl
@[simp] theorem readByte_peer : (readByte s).2.peer = { s.peer with script := s.peer.script.tail } := rfl
@[simp] theorem readByte_sched : (readByte s).2.sched = s.sched := rfl
@[simp] theorem readByte_draws : (readByte s).2.draws = s.draws := rfl
@[simp] theorem readByte_resets : (readByte s).2.resets = s.resets := rfl

end readByteFields

section setIdxFields
variable (s : State) (i : Nat)

@[simp] theorem setIdx_status : (setIdx i s).status = s.status := rfl
@[simp] theorem setIdx_result : (setIdx i s).result = s.result := rfl
@[simp] theorem setIdx_seq : (setIdx i s).seq = { s.seq with idx := BitVec.ofNat 16 i } := rfl
@[simp] theorem setIdx_mem : (setIdx i s).mem = s.mem := rfl
@[simp] theorem setIdx_cs : (setIdx i s).cs = s.cs := rfl
@[simp] theorem setIdx_trace : (setIdx i s).trace = s.trace := rfl
@[simp] theorem setIdx_params : (setIdx i s).params = s.params := rfl
@[simp] theorem setIdx_host : (setIdx i s).host = s.host := rfl
@[simp] theorem setIdx_peer : (setIdx i s).peer = s.peer := rfl
@[simp] theorem setIdx_sched : (setIdx i s).sched = s.sched := rfl
@[simp] theorem setIdx_draws : (setIdx i s).draws = s.draws := rfl
@[simp] theorem setIdx_resets : (setIdx i s).resets = s.resets := rfl

end setIdxFields

section setCntFields
variable (s : State) (b : Half)

@[simp] theorem setCnt_status : (setCnt b s).status = s.status := rfl
@[simp] theorem setCnt_result : (setCnt b s).result = s.result := rfl
@[simp] theorem setCnt_seq : (setCnt b s).seq = { s.seq with cnt := b } := rfl
@[simp] theorem setCnt_mem : (setCnt b s).mem = s.mem := rfl
@[simp] theorem setCnt_cs : (setCnt b s).cs = s.cs := rfl
@[simp] theorem setCnt_trace : (setCnt b s).trace = s.trace := rfl
@[simp] theorem setCnt_params : (setCnt b s).params = s.params := rfl
@[simp] theorem setCnt_host : (setCnt b s).host = s.host := rfl
@[simp] theorem setCnt_peer : (setCnt b s).peer = s.peer := rfl
@[simp] theorem setCnt_sched : (setCnt b s).sched = s.sched := rfl
@[simp] theorem setCnt_draws : (setCnt b s).draws = s.draws := rfl
@[simp] theorem setCnt_resets : (setCnt b s).resets = s.resets := rfl

end setCntFields

section decCntFields
variable (s : State)

@[simp] theorem decCnt_status : (decCnt s).status = s.status := rfl
@[simp] theorem decCnt_result : (decCnt s).result = s.result := rfl
@[simp] theorem decCnt_seq : (decCnt s).seq = { s.seq with cnt := s.seq.cnt - 1 } := rfl
@[simp] theorem decCnt_mem : (decCnt s).mem = s.mem := rfl
@[simp] theorem decCnt_cs : (decCnt s).cs = s.cs := rfl
@[simp] theorem decCnt_trace : (decCnt s).trace = s.trace := rfl
@[simp] theorem decCnt_params : (decCnt s).params = s.params := rfl
@[simp] theorem decCnt_host : (decCnt s).host = s.host := rfl
@[simp] theorem decCnt_peer : (decCnt s).peer = s.peer := rfl
@[simp] theorem decCnt_sched : (decCnt s).sched = s.sched := rfl
@[simp] theorem decCnt_draws : (decCnt s).draws = s.draws := rfl
@[simp] theorem decCnt_resets : (decCnt s).resets = s.resets := rfl

end decCntFields

section countPollFields
variable (s : State)

@[simp] theorem countPoll_status : (countPoll s).status = s.status := rfl
@[simp] theorem countPoll_result : (countPoll s).result = s.result := rfl
@[simp] theorem countPoll_seq : (countPoll s).seq = { s.seq with polls := s.seq.polls + 1 } := rfl
@[simp] theorem countPoll_mem : (countPoll s).mem = s.mem := rfl
@[simp] theorem countPoll_cs : (countPoll s).cs = s.cs := rfl
@[simp] theorem countPoll_trace : (countPoll s).trace = s.trace := rfl
@[simp] theorem countPoll_params : (countPoll s).params = s.params := rfl
@[simp] theorem countPoll_host : (countPoll s).host = s.host := rfl
@[simp] theorem countPoll_peer : (countPoll s).peer = s.peer := rfl
@[simp] theorem countPoll_sched : (countPoll s).sched = s.sched := rfl
@[simp] theorem countPoll_draws : (countPoll s).draws = s.draws := rfl
@[simp] theorem countPoll_resets : (countPoll s).resets = s.resets := rfl

end countPollFields

section setStageFields
variable (s : State) (k : Stage)

@[simp] theorem setStage_status : (setStage k s).status = { s.status with stage := k } := rfl
@[simp] theorem setStage_result : (setStage k s).result = s.result := rfl
@[simp] theorem setStage_seq : (setStage k s).seq = s.seq := rfl
@[simp] theorem setStage_mem : (setStage k s).mem = s.mem := rfl
@[simp] theorem setStage_cs : (setStage k s).cs = s.cs := rfl
@[simp] theorem setStage_trace : (setStage k s).trace = s.trace := rfl
@[simp] theorem setStage_params : (setStage k s).params = s.params := rfl
@[simp] theorem setStage_host : (setStage k s).host = s.host := rfl
@[simp] theorem setStage_peer : (setStage k s).peer = s.peer := rfl
@[simp] theorem setStage_sched : (setStage k s).sched = s.sched := rfl
@[simp] theorem setStage_draws : (setStage k s).draws = s.draws := rfl
@[simp] theorem setStage_resets : (setStage k s).resets = s.resets := rfl

end setStageFields

section setResultFields
variable (s : State) (v : Word)

@[simp] theorem setResult_status : (setResult v s).status = s.status := rfl
@[simp] theorem setResult_result : (setResult v s).result = v := rfl
@[simp] theorem setResult_seq : (setResult v s).seq = s.seq := rfl
@[simp] theorem setResult_mem : (setResult v s).mem = s.mem := rfl
@[simp] theorem setResult_cs : (setResult v s).cs = s.cs := rfl
@[simp] theorem setResult_trace : (setResult v s).trace = s.trace := rfl
@[simp] theorem setResult_params : (setResult v s).params = s.params := rfl
@[simp] theorem setResult_host : (setResult v s).host = s.host := rfl
@[simp] theorem setResult_peer : (setResult v s).peer = s.peer := rfl
@[simp] theorem setResult_sched : (setResult v s).sched = s.sched := rfl
@[simp] theorem setResult_draws : (setResult v s).draws = s.draws := rfl
@[simp] theorem setResult_resets : (setResult v s).resets = s.resets := rfl

end setResultFields

section finishFields
variable (s : State) (c : Code) (k : Stage)

@[simp] theorem finish_status : (finish c k s).status = { s.status with code := c, stage := k, done := true, busy := false } := rfl
@[simp] theorem finish_result : (finish c k s).result = s.result := rfl
@[simp] theorem finish_seq : (finish c k s).seq = { s.seq with phase := .idle, ack := noAck } := rfl
@[simp] theorem finish_mem : (finish c k s).mem = s.mem := rfl
@[simp] theorem finish_cs : (finish c k s).cs = s.cs := rfl
@[simp] theorem finish_trace : (finish c k s).trace = s.trace := rfl
@[simp] theorem finish_params : (finish c k s).params = s.params := rfl
@[simp] theorem finish_host : (finish c k s).host = s.host := rfl
@[simp] theorem finish_peer : (finish c k s).peer = s.peer := rfl
@[simp] theorem finish_sched : (finish c k s).sched = s.sched := rfl
@[simp] theorem finish_draws : (finish c k s).draws = s.draws := rfl
@[simp] theorem finish_resets : (finish c k s).resets = s.resets := rfl

end finishFields

section acceptFields
variable (s : State) (w : Word)

@[simp] theorem accept_status : (accept w s).status = { s.status with busy := true, done := false, code := .ok, stage := .none } := rfl
@[simp] theorem accept_result : (accept w s).result = 0 := rfl
@[simp] theorem accept_seq : (accept w s).seq = { s.seq with opw := w, polls := 0, phase := .running [.dispatch] } := rfl
@[simp] theorem accept_mem : (accept w s).mem = s.mem := rfl
@[simp] theorem accept_cs : (accept w s).cs = s.cs := rfl
@[simp] theorem accept_trace : (accept w s).trace = s.trace := rfl
@[simp] theorem accept_params : (accept w s).params = s.params := rfl
@[simp] theorem accept_host : (accept w s).host = s.host := rfl
@[simp] theorem accept_peer : (accept w s).peer = s.peer := rfl
@[simp] theorem accept_sched : (accept w s).sched = s.sched := rfl
@[simp] theorem accept_draws : (accept w s).draws = s.draws := rfl
@[simp] theorem accept_resets : (accept w s).resets = s.resets := rfl

end acceptFields

section setOvrFields
variable (s : State)

@[simp] theorem setOvr_status : (setOvr s).status = { s.status with ovr := true } := rfl
@[simp] theorem setOvr_result : (setOvr s).result = s.result := rfl
@[simp] theorem setOvr_seq : (setOvr s).seq = s.seq := rfl
@[simp] theorem setOvr_mem : (setOvr s).mem = s.mem := rfl
@[simp] theorem setOvr_cs : (setOvr s).cs = s.cs := rfl
@[simp] theorem setOvr_trace : (setOvr s).trace = s.trace := rfl
@[simp] theorem setOvr_params : (setOvr s).params = s.params := rfl
@[simp] theorem setOvr_host : (setOvr s).host = s.host := rfl
@[simp] theorem setOvr_peer : (setOvr s).peer = s.peer := rfl
@[simp] theorem setOvr_sched : (setOvr s).sched = s.sched := rfl
@[simp] theorem setOvr_draws : (setOvr s).draws = s.draws := rfl
@[simp] theorem setOvr_resets : (setOvr s).resets = s.resets := rfl

end setOvrFields

section writeStatusFields
variable (s : State) (v : Word)

@[simp] theorem writeStatus_status : (writeStatus v s).status = { s.status with ovr := ovrAfterStatusWrite s.status.ovr v } := rfl
@[simp] theorem writeStatus_result : (writeStatus v s).result = s.result := rfl
@[simp] theorem writeStatus_seq : (writeStatus v s).seq = s.seq := rfl
@[simp] theorem writeStatus_mem : (writeStatus v s).mem = s.mem := rfl
@[simp] theorem writeStatus_cs : (writeStatus v s).cs = s.cs := rfl
@[simp] theorem writeStatus_trace : (writeStatus v s).trace = s.trace := rfl
@[simp] theorem writeStatus_params : (writeStatus v s).params = s.params := rfl
@[simp] theorem writeStatus_host : (writeStatus v s).host = s.host := rfl
@[simp] theorem writeStatus_peer : (writeStatus v s).peer = s.peer := rfl
@[simp] theorem writeStatus_sched : (writeStatus v s).sched = s.sched := rfl
@[simp] theorem writeStatus_draws : (writeStatus v s).draws = s.draws := rfl
@[simp] theorem writeStatus_resets : (writeStatus v s).resets = s.resets := rfl

end writeStatusFields

section continueWithFields
variable (s : State) (rest : List Stmt)

@[simp] theorem continueWith_status : (continueWith rest s).status = s.status := rfl
@[simp] theorem continueWith_result : (continueWith rest s).result = s.result := rfl
@[simp] theorem continueWith_seq : (continueWith rest s).seq = { s.seq with phase := .running rest } := rfl
@[simp] theorem continueWith_mem : (continueWith rest s).mem = s.mem := rfl
@[simp] theorem continueWith_cs : (continueWith rest s).cs = s.cs := rfl
@[simp] theorem continueWith_trace : (continueWith rest s).trace = s.trace := rfl
@[simp] theorem continueWith_params : (continueWith rest s).params = s.params := rfl
@[simp] theorem continueWith_host : (continueWith rest s).host = s.host := rfl
@[simp] theorem continueWith_peer : (continueWith rest s).peer = s.peer := rfl
@[simp] theorem continueWith_sched : (continueWith rest s).sched = s.sched := rfl
@[simp] theorem continueWith_draws : (continueWith rest s).draws = s.draws := rfl
@[simp] theorem continueWith_resets : (continueWith rest s).resets = s.resets := rfl

end continueWithFields

section hostGotoFields
variable (s : State) (l : Nat)

@[simp] theorem hostGoto_status : (hostGoto l s).status = s.status := rfl
@[simp] theorem hostGoto_result : (hostGoto l s).result = s.result := rfl
@[simp] theorem hostGoto_seq : (hostGoto l s).seq = s.seq := rfl
@[simp] theorem hostGoto_mem : (hostGoto l s).mem = s.mem := rfl
@[simp] theorem hostGoto_cs : (hostGoto l s).cs = s.cs := rfl
@[simp] theorem hostGoto_trace : (hostGoto l s).trace = s.trace := rfl
@[simp] theorem hostGoto_params : (hostGoto l s).params = s.params := rfl
@[simp] theorem hostGoto_host : (hostGoto l s).host = { s.host with pos := l } := rfl
@[simp] theorem hostGoto_peer : (hostGoto l s).peer = s.peer := rfl
@[simp] theorem hostGoto_sched : (hostGoto l s).sched = s.sched := rfl
@[simp] theorem hostGoto_draws : (hostGoto l s).draws = s.draws := rfl
@[simp] theorem hostGoto_resets : (hostGoto l s).resets = s.resets := rfl

end hostGotoFields

section hostAssignFields
variable (s : State) (x : Nat) (v : Word)

@[simp] theorem hostAssign_status : (hostAssign x v s).status = s.status := rfl
@[simp] theorem hostAssign_result : (hostAssign x v s).result = s.result := rfl
@[simp] theorem hostAssign_seq : (hostAssign x v s).seq = s.seq := rfl
@[simp] theorem hostAssign_mem : (hostAssign x v s).mem = s.mem := rfl
@[simp] theorem hostAssign_cs : (hostAssign x v s).cs = s.cs := rfl
@[simp] theorem hostAssign_trace : (hostAssign x v s).trace = s.trace := rfl
@[simp] theorem hostAssign_params : (hostAssign x v s).params = s.params := rfl
@[simp] theorem hostAssign_host : (hostAssign x v s).host = { s.host with pos := s.host.pos + 1, vars := assocSet s.host.vars x v } := rfl
@[simp] theorem hostAssign_peer : (hostAssign x v s).peer = s.peer := rfl
@[simp] theorem hostAssign_sched : (hostAssign x v s).sched = s.sched := rfl
@[simp] theorem hostAssign_draws : (hostAssign x v s).draws = s.draws := rfl
@[simp] theorem hostAssign_resets : (hostAssign x v s).resets = s.resets := rfl

end hostAssignFields

section resetInputFields
variable (s : State)

@[simp] theorem resetInput_status : (resetInput s).status = Status.reset := rfl
@[simp] theorem resetInput_result : (resetInput s).result = 0 := rfl
@[simp] theorem resetInput_seq : (resetInput s).seq = SeqState.reset := rfl
@[simp] theorem resetInput_mem : (resetInput s).mem = [] := rfl
@[simp] theorem resetInput_cs : (resetInput s).cs = false := rfl
@[simp] theorem resetInput_trace : (resetInput s).trace = [] := rfl
@[simp] theorem resetInput_params : (resetInput s).params = s.params := rfl
@[simp] theorem resetInput_host : (resetInput s).host = s.host := rfl
@[simp] theorem resetInput_peer : (resetInput s).peer = s.peer := rfl
@[simp] theorem resetInput_sched : (resetInput s).sched = s.sched := rfl
@[simp] theorem resetInput_draws : (resetInput s).draws = s.draws := rfl
@[simp] theorem resetInput_resets : (resetInput s).resets = s.resets + 1 := rfl

end resetInputFields

@[simp] theorem xfer_answer (m : Byte) (s : State) : (xfer m s).1 = peerAnswer m s := rfl
@[simp] theorem readByte_value (s : State) : (readByte s).1 = rev8 (peerAnswer Config.readFill s) := rfl
@[simp] theorem drawByte_value (s : State) : s.drawByte.1 = Config.freeByte s.draws := rfl

end Sys2Proof.Machine
end

