-- ==== Sys2Proof/Laws/Memory.lean ====
section
/-! SUPPORT. Sorted lists of pairs and the buffers: read after write, and every operation that writes memory keeps the
canonical form. -/

namespace Sys2Proof.Machine

variable {α : Type}

/-- A read after a write: the value written at its key, the old value at every other key. -/
theorem assocGet_assocSet (l : List (Nat × α)) (a b : Nat) (v : α) :
    assocGet (assocSet l a v) b = if a = b then some v else assocGet l b := by
  induction l with
  | nil => simp [assocSet, assocGet]
  | cons c rest ih =>
    obtain ⟨k, w⟩ := c
    simp only [assocSet]
    split
    · by_cases h : a = b <;> simp [assocGet, h]
    · split
      · subst_vars
        by_cases h : k = b <;> simp [assocGet, h]
      · by_cases hk : k = b
        · have : a ≠ b := by omega
          simp [assocGet, hk, this]
        · simp [assocGet, hk, ih]

theorem assocRisingFrom_mono {l : List (Nat × α)} {lo lo' : Nat} (h : lo' ≤ lo)
    (hl : assocRisingFrom lo l = true) : assocRisingFrom lo' l = true := by
  cases l with
  | nil => rfl
  | cons c rest =>
    simp only [assocRisingFrom, Bool.and_eq_true, decide_eq_true_eq] at hl ⊢
    exact ⟨by omega, hl.2⟩

/-- A write keeps the keys strictly rising. -/
theorem assocRisingFrom_assocSet (l : List (Nat × α)) (lo a : Nat) (v : α) (ha : lo ≤ a)
    (hl : assocRisingFrom lo l = true) : assocRisingFrom lo (assocSet l a v) = true := by
  induction l generalizing lo with
  | nil => simp [assocSet, assocRisingFrom, ha]
  | cons c rest ih =>
    obtain ⟨k, w⟩ := c
    simp only [assocRisingFrom, Bool.and_eq_true, decide_eq_true_eq] at hl
    simp only [assocSet]
    split
    · simp only [assocRisingFrom, Bool.and_eq_true, decide_eq_true_eq]
      exact ⟨ha, by omega, hl.2⟩
    · split
      · simp only [assocRisingFrom, Bool.and_eq_true, decide_eq_true_eq]
        subst_vars
        exact ⟨ha, hl.2⟩
      · simp only [assocRisingFrom, Bool.and_eq_true, decide_eq_true_eq]
        exact ⟨hl.1, ih _ (by omega) hl.2⟩

/-- The keys after a write: the old ones and the one written. -/
theorem mem_assocSet (l : List (Nat × α)) (a : Nat) (v : α) (c : Nat × α) (h : c ∈ assocSet l a v) :
    c = (a, v) ∨ c ∈ l := by
  induction l with
  | nil => simpa [assocSet] using h
  | cons d rest ih =>
    obtain ⟨k, w⟩ := d
    simp only [assocSet] at h
    split at h
    · simpa using h
    · split at h
      · rcases List.mem_cons.1 h with h | h
        · exact .inl h
        · exact .inr (List.mem_cons_of_mem _ h)
      · rcases List.mem_cons.1 h with h | h
        · exact .inr (by simp [h])
        · rcases ih h with h | h
          · exact .inl h
          · exact .inr (List.mem_cons_of_mem _ h)

/-- A write of a buffer byte keeps the buffers in canonical form. -/
theorem wf_assocSet {m : List Host.Cell} (h : Memory.wf m = true) (off : Nat) (b : Byte)
    (ho : isBufferOffset off = true) : Memory.wf (assocSet m off b) = true := by
  simp only [Memory.wf, Bool.and_eq_true, List.all_eq_true] at h ⊢
  refine ⟨assocRisingFrom_assocSet _ _ _ _ (Nat.zero_le _) h.1, fun c hc => ?_⟩
  rcases mem_assocSet _ _ _ _ hc with rfl | hc
  · exact ho
  · exact h.2 c hc

/-- A buffer byte read after a buffer byte is written. -/
@[simp] theorem setByte_byteAt (s : State) (off a : Nat) (b : Byte) :
    (s.setByte off b).byteAt a = if off = a then some b else s.byteAt a :=
  assocGet_assocSet _ _ _ _

theorem byteAt_congr {s t : State} (h : t.mem = s.mem) (a : Nat) : t.byteAt a = s.byteAt a := by
  simp [State.byteAt, h]

/-- A read of one buffer byte changes nothing but the count of draws, and that only if nothing has written the byte. -/
theorem readByteAt_spec (s : State) (off : Nat) :
    ∃ d, (s.readByteAt off).2 = { s with draws := d } ∧
      ∀ b, s.byteAt off = some b → (s.readByteAt off).1 = b ∧ d = s.draws := by
  cases h : s.byteAt off with
  | none => exact ⟨s.draws + 1, by simp [State.readByteAt, h, State.drawByte], by simp⟩
  | some b => exact ⟨s.draws, by simp [State.readByteAt, h], by simp [State.readByteAt, h]⟩

/-- A read of a written byte. -/
theorem readByteAt_written {s : State} {off : Nat} {b : Byte} (h : s.byteAt off = some b) :
    s.readByteAt off = (b, s) := by
  simp [State.readByteAt, h]

@[simp] theorem readByteAt_mem (s : State) (off : Nat) : (s.readByteAt off).2.mem = s.mem := by
  obtain ⟨d, h, -⟩ := readByteAt_spec s off
  simp [h]

/-- The stored bytes of a host write: byte k of the value at offset `off + k`, every other byte as before. -/
theorem writeBytes_byteAt (n k off : Nat) (v : Word) (s : State) (a : Nat) :
    (writeBytes n k off v s).byteAt a =
      if off + k ≤ a ∧ a < off + k + n then some (leByte v (a - off)) else s.byteAt a := by
  induction n generalizing k s with
  | zero =>
    simp only [writeBytes]
    rw [if_neg (by omega)]
  | succ n ih =>
    simp only [writeBytes, ih, setByte_byteAt]
    by_cases h1 : off + (k + 1) ≤ a ∧ a < off + (k + 1) + n
    · rw [if_pos h1, if_pos (by omega)]
    · rw [if_neg h1]
      by_cases h2 : off + k = a
      · rw [if_pos h2, if_pos (by omega)]
        congr 2
        omega
      · rw [if_neg h2, if_neg (by omega)]

/-- A host write to buffer bytes changes nothing but the buffers. -/
theorem writeBytes_eq (n k off : Nat) (v : Word) (s : State) :
    ∃ m, writeBytes n k off v s = { s with mem := m } ∧
      (Memory.wf s.mem = true → (∀ j < n, isBufferOffset (off + k + j) = true) → Memory.wf m = true) := by
  induction n generalizing k s with
  | zero => exact ⟨s.mem, rfl, fun h _ => h⟩
  | succ n ih =>
    obtain ⟨m, hm, hw⟩ := ih (k + 1) (s.setByte (off + k) (leByte v k))
    refine ⟨m, by simpa [writeBytes, State.setByte] using hm, fun h hb => hw ?_ fun j hj => ?_⟩
    · exact wf_assocSet h _ _ (by simpa using hb 0 (by omega))
    · have := hb (j + 1) (by omega)
      rwa [show off + k + (j + 1) = off + (k + 1) + j by omega] at this

/-- A host read of buffer bytes changes nothing but the count of draws. -/
theorem readBytes_eq (n off : Nat) (s : State) : ∃ d, (readBytes n off s).2 = { s with draws := d } := by
  induction n generalizing off s with
  | zero => exact ⟨s.draws, rfl⟩
  | succ n ih =>
    obtain ⟨d, h, -⟩ := readByteAt_spec s off
    obtain ⟨d', h'⟩ := ih (off + 1) (s.readByteAt off).2
    exact ⟨d', by simp only [readBytes]; rw [h', h]⟩

/-- A host read of buffer bytes that have all been written gives them and changes nothing. -/
theorem readBytes_written (n off : Nat) (s : State) (bs : List Byte) (hn : bs.length = n)
    (h : ∀ i (hi : i < bs.length), s.byteAt (off + i) = some bs[i]) : readBytes n off s = (bs, s) := by
  induction n generalizing off bs with
  | zero => simp_all [readBytes, List.length_eq_zero_iff]
  | succ n ih =>
    obtain _ | ⟨b, bs⟩ := bs
    · simp at hn
    · have h0 : s.byteAt off = some b := h 0 (by simp)
      have := ih (off + 1) bs (by simpa using hn) fun i hi => by
        have := h (i + 1) (by simpa using hi)
        rwa [show off + (i + 1) = off + 1 + i by omega] at this
      simp [readBytes, readByteAt_written h0, this]

/-- Drawn bytes are the next free values, and change nothing but the count of draws (R81; log entry 11). -/
theorem drawBytes_spec (n : Nat) (s : State) :
    drawBytes n s =
      ((List.range n).map fun k => Config.freeByte (s.draws + k), { s with draws := s.draws + n }) := by
  induction n generalizing s with
  | zero => rfl
  | succ n ih =>
    simp only [drawBytes, State.drawByte, ih, List.range_succ_eq_map]
    simp [Function.comp_def, Nat.add_assoc, Nat.add_comm 1]

/-- The value of up to four bytes is their sum, byte k shifted by 8k (R75). -/
theorem leValue_toNat (bs : List Byte) (h : bs.length ≤ 4) :
    (leValue bs).toNat = ((List.range bs.length).map fun k => (bs.getD k 0).toNat * 2 ^ (8 * k)).sum ∧
      (leValue bs).toNat < 2 ^ (8 * bs.length) := by
  induction bs with
  | nil => simp [leValue]
  | cons b bs ih =>
    obtain ⟨ih, hlt⟩ := ih (by simp at h; omega)
    have hb := b.isLt
    simp only [List.length_cons] at h ⊢
    have hp : 2 ^ (8 * (bs.length + 1)) = 2 ^ (8 * bs.length) * 256 := by rw [Nat.mul_add, Nat.pow_add]
    have h32 : 2 ^ (8 * bs.length) ≤ 2 ^ 24 := Nat.pow_le_pow_right (by decide) (by omega)
    have e : (leValue (b :: bs)).toNat = b.toNat + 256 * (leValue bs).toNat := by
      simp only [leValue, BitVec.toNat_or, BitVec.toNat_setWidth, BitVec.toNat_shiftLeft]
      rw [Nat.mod_eq_of_lt (by omega), Nat.shiftLeft_eq, Nat.mod_eq_of_lt (by omega), Nat.or_comm, Nat.mul_comm,
        ← Nat.two_pow_add_eq_or_of_lt hb]
      omega
    refine ⟨?_, by omega⟩
    rw [e, ih, List.range_succ_eq_map]
    simp only [List.map_cons, List.map_map, List.sum_cons, Function.comp_def, List.getD_cons_zero,
      List.getD_cons_succ, Nat.mul_zero, Nat.pow_zero, Nat.mul_one]
    rw [← List.sum_map_mul_left]
    congr 2
    refine List.map_congr_left fun k _ => ?_
    rw [Nat.mul_succ, Nat.pow_add, Nat.mul_left_comm, Nat.mul_comm 256]

end Sys2Proof.Machine
end

