-- ==== Sys2Proof/Laws/Bus.lean ====
section
/-! SUPPORT. What the bus primitives and the procedures built on them do, each said once: their trace, the answers they
take from the peer, and what they leave in the registers and buffers. -/

namespace Sys2Proof.Machine

/-! ### The peer -/

theorem PeerGives_one (m : Byte) (s : State) : PeerGives s.peer [peerAnswer m s] := by
  unfold PeerGives peerAnswer
  cases h : s.peer.script with
  | nil => cases h' : s.peer.rest <;> simp [PeerGives]
  | cons => simp [PeerGives]

theorem peerAfter_add (p : PeerAgent) (m n : Nat) : peerAfter (peerAfter p m) n = peerAfter p (m + n) := by
  simp [peerAfter]

@[simp] theorem peerAfter_zero (p : PeerAgent) : peerAfter p 0 = p := rfl

theorem peerAfter_one (p : PeerAgent) : peerAfter p 1 = { p with script := p.script.tail } := by
  simp [peerAfter]

theorem PeerGives_append (p : PeerAgent) (xs ys : List Byte) :
    PeerGives p (xs ++ ys) ↔ PeerGives p xs ∧ PeerGives (peerAfter p xs.length) ys := by
  induction xs generalizing p with
  | nil => simp [PeerGives]
  | cons x xs ih =>
    simp only [List.cons_append, PeerGives, ih, and_assoc, List.length_cons]
    rw [← peerAfter_one, peerAfter_add, Nat.add_comm]

/-- A scripted peer (R263) gives exactly the bytes of its script. -/
theorem PeerGives_script {p : PeerAgent} {sc r xs : List Byte} (hp : p.script = sc ++ r)
    (hl : xs.length = sc.length) (h : PeerGives p xs) : xs = sc ∧ (peerAfter p xs.length).script = r := by
  refine ⟨?_, by simp [peerAfter, hp, hl]⟩
  induction xs generalizing p sc with
  | nil => simpa using hl.symm
  | cons x xs ih =>
    obtain _ | ⟨c, sc⟩ := sc
    · simp at hl
    · simp only [PeerGives, hp, List.cons_append] at h
      rw [h.1, ih (p := { p with script := p.script.tail }) (sc := sc) (by simp [hp]) (by simpa using hl)
        (by simpa [hp] using h.2)]

/-- A peer with no script and a standing answer gives that answer every time. -/
theorem PeerGives_standing {p : PeerAgent} {x : Byte} {xs : List Byte} (hs : p.script = [])
    (hr : p.rest = some x) (h : PeerGives p xs) : xs = List.replicate xs.length x := by
  induction xs generalizing p with
  | nil => rfl
  | cons y ys ih =>
    simp only [PeerGives, hs, hr] at h
    simp only [List.length_cons, List.replicate_succ, h.1, List.cons.injEq, true_and]
    exact ih (p := { p with script := [] }) rfl hr (by simpa [hs, hr] using h.2)

/-! ### Straight-line code -/

@[simp] theorem runActs_nil (s : State) : runActs [] s = s := rfl

@[simp] theorem runActs_cons (a : Act) (l : List Act) (s : State) :
    runActs (a :: l) s = runActs l (runAct a s) := rfl

theorem runActs_append (l l' : List Act) (s : State) : runActs (l ++ l') s = runActs l' (runActs l s) := by
  induction l generalizing s with
  | nil => rfl
  | cons a l ih => simp [ih]

/-- What a straight-line statement never changes. -/
theorem runAct_frame (a : Act) (s : State) :
    (runAct a s).params = s.params ∧ (runAct a s).host = s.host ∧ (runAct a s).sched = s.sched ∧
    (runAct a s).resets = s.resets ∧ (runAct a s).seq.phase = s.seq.phase ∧ (runAct a s).seq.opw = s.seq.opw ∧
    (runAct a s).status.busy = s.status.busy ∧ (runAct a s).status.done = s.status.done ∧
    (runAct a s).status.ovr = s.status.ovr ∧ (runAct a s).status.code = s.status.code := by
  cases a with
  | writeCommandByte src =>
    cases src with
    | cmdBuf =>
      obtain ⟨d, h, -⟩ := readByteAt_spec s (cmdOffset s.seq.idx.toNat)
      simp [runAct, writeCommandByte, commandByte, h]
    | firmware => simp [runAct, writeCommandByte, commandByte]
  | packFirmware =>
    obtain ⟨d0, h0, -⟩ := readByteAt_spec s (rspOffset 0)
    obtain ⟨d1, h1, -⟩ := readByteAt_spec { s with draws := d0 } (rspOffset 1)
    obtain ⟨d2, h2, -⟩ := readByteAt_spec { s with draws := d1 } (rspOffset 2)
    obtain ⟨d3, h3, -⟩ := readByteAt_spec { s with draws := d2 } (rspOffset 3)
    simp [runAct, packFirmware, h0, h1, h2, h3]
  | _ => simp [runAct, writeTfi, readResponseByte, readAckByte, readStatusByte, readResult]

/-- What straight-line code never changes. -/
theorem runActs_frame (l : List Act) (s : State) :
    (runActs l s).params = s.params ∧ (runActs l s).host = s.host ∧ (runActs l s).sched = s.sched ∧
    (runActs l s).resets = s.resets ∧ (runActs l s).seq.phase = s.seq.phase ∧
    (runActs l s).seq.opw = s.seq.opw ∧ (runActs l s).status.busy = s.status.busy ∧
    (runActs l s).status.done = s.status.done ∧ (runActs l s).status.ovr = s.status.ovr ∧
    (runActs l s).status.code = s.status.code := by
  induction l generalizing s with
  | nil => simp
  | cons a l ih =>
    have h := runAct_frame a s
    have h' := ih (runAct a s)
    simp only [runActs_cons]
    simp_all

/-- CS and STATUS.STAGE after a straight-line statement (R39, R51). -/
theorem runAct_csStage (a : Act) (s : State) :
    (runAct a s).cs = csAfter a s.cs ∧ (runAct a s).status.stage = stageAfter a s.status.stage := by
  cases a with
  | writeCommandByte src =>
    cases src with
    | cmdBuf =>
      obtain ⟨d, h, -⟩ := readByteAt_spec s (cmdOffset s.seq.idx.toNat)
      simp [runAct, writeCommandByte, commandByte, h, csAfter, stageAfter]
    | firmware => simp [runAct, writeCommandByte, commandByte, csAfter, stageAfter]
  | packFirmware =>
    obtain ⟨d0, h0, -⟩ := readByteAt_spec s (rspOffset 0)
    obtain ⟨d1, h1, -⟩ := readByteAt_spec { s with draws := d0 } (rspOffset 1)
    obtain ⟨d2, h2, -⟩ := readByteAt_spec { s with draws := d1 } (rspOffset 2)
    obtain ⟨d3, h3, -⟩ := readByteAt_spec { s with draws := d2 } (rspOffset 3)
    simp [runAct, packFirmware, h0, h1, h2, h3, csAfter, stageAfter]
  | _ => simp [runAct, writeTfi, readResponseByte, readAckByte, readStatusByte, readResult, csAfter, stageAfter]

/-- A straight-line statement emits at most one event (R73). -/
theorem runAct_trace (a : Act) (s : State) :
    (runAct a s).trace = s.trace ∨ ∃ e, (runAct a s).trace = s.trace ++ [e] := by
  cases a with
  | writeCommandByte src =>
    right
    cases src with
    | cmdBuf =>
      obtain ⟨d, h, -⟩ := readByteAt_spec s (cmdOffset s.seq.idx.toNat)
      simp [runAct, writeCommandByte, commandByte, h]
    | firmware => simp [runAct, writeCommandByte, commandByte]
  | packFirmware =>
    left
    obtain ⟨d0, h0, -⟩ := readByteAt_spec s (rspOffset 0)
    obtain ⟨d1, h1, -⟩ := readByteAt_spec { s with draws := d0 } (rspOffset 1)
    obtain ⟨d2, h2, -⟩ := readByteAt_spec { s with draws := d1 } (rspOffset 2)
    obtain ⟨d3, h3, -⟩ := readByteAt_spec { s with draws := d2 } (rspOffset 3)
    simp [runAct, packFirmware, h0, h1, h2, h3]
  | _ => simp [runAct, writeTfi, readResponseByte, readAckByte, readStatusByte, readResult]

end Sys2Proof.Machine
end

