-- ==== Sys2Proof/Laws/Encoding.lean ====
section
/-! SUPPORT. The fields of an operation word as numbers, and the fields of an assembled word (30_encoding.md R100). -/

namespace Sys2Proof

theorem opcField_toNat (w : Word) : (opcField w).toNat = w.toNat % 16 := by simp [opcField]

theorem rsvField_toNat (w : Word) : (rsvField w).toNat = w.toNat / 16 % 16 := by
  simp [rsvField, Nat.shiftRight_eq_div_pow]

theorem arg8Field_toNat (w : Word) : (arg8Field w).toNat = w.toNat / 256 % 256 := by
  simp [arg8Field, Nat.shiftRight_eq_div_pow]

theorem budgetField_toNat (w : Word) : (budgetField w).toNat = w.toNat / 65536 := by
  simp only [budgetField, BitVec.extractLsb'_toNat, Nat.shiftRight_eq_div_pow]
  have := w.isLt
  omega

/-- The number an operation word is, by its fields (R100). -/
theorem operationWord_toNat (b : Half) (a : Byte) (r o : BitVec 4) :
    (operationWord b a r o).toNat = b.toNat * 65536 + a.toNat * 256 + r.toNat * 16 + o.toNat := by
  have ha := a.isLt
  have hr := r.isLt
  have ho := o.isLt
  simp only [operationWord, BitVec.toNat_append]
  rw [← Nat.shiftLeft_add_eq_or_of_lt ha, ← Nat.shiftLeft_add_eq_or_of_lt hr, ← Nat.shiftLeft_add_eq_or_of_lt ho]
  simp only [Nat.shiftLeft_eq]
  omega

/-- The fields of an assembled word are the ones it was assembled from. -/
theorem operationWord_fields (b : Half) (a : Byte) (r o : BitVec 4) :
    opcField (operationWord b a r o) = o ∧ rsvField (operationWord b a r o) = r ∧
      arg8Field (operationWord b a r o) = a ∧ budgetField (operationWord b a r o) = b := by
  have hb := b.isLt
  have ha := a.isLt
  have hr := r.isLt
  have ho := o.isLt
  refine ⟨?_, ?_, ?_, ?_⟩ <;> apply BitVec.eq_of_toNat_eq
  · rw [opcField_toNat, operationWord_toNat]
    omega
  · rw [rsvField_toNat, operationWord_toNat]
    omega
  · rw [arg8Field_toNat, operationWord_toNat]
    omega
  · rw [budgetField_toNat, operationWord_toNat]
    omega

end Sys2Proof
end

