-- ==== Sys2Proof/Laws/Operations.lean ====
section
/-! SUPPORT. What the procedures of the operations do (41_framing.md R163, R164; 42_poll_ack.md R190, R195), each said once
as an equation for the state it leaves. -/

namespace Sys2Proof.Machine

theorem checksumAcc_append (a : Byte) (xs : List Byte) (x : Byte) :
    checksumAcc a (xs ++ [x]) = add8 (checksumAcc a xs) x := by
  simp [checksumAcc]

theorem zipWith_snoc {α β γ : Type} (f : α → β → γ) (xs : List α) (ys : List β) (x : α) (y : β)
    (h : xs.length = ys.length) :
    List.zipWith f (xs ++ [x]) (ys ++ [y]) = List.zipWith f xs ys ++ [f x y] := by
  rw [List.zipWith_append h]
  rfl

/-- The command bytes of a frame: one transfer each, folded into the checksum (R161, R164). -/
theorem writeCommandBytes_spec (src : CmdSource) (n : Nat) (hn : n ≤ 65536) (s : State) :
    ∃ cmd answers d ix, cmd.length = n ∧ answers.length = n ∧ PeerGives s.peer answers ∧
      CommandBytes s src cmd ∧ (SourceWritten s src n → d = s.draws) ∧ (0 < n → ix = BitVec.ofNat 16 (n - 1)) ∧
      runActs ((List.range n).flatMap fun i => [.setIdx i, .writeCommandByte src]) s =
        { s with
          trace := s.trace ++ List.zipWith .xfer (cmd.map rev8) answers
          peer := peerAfter s.peer n
          draws := d
          seq := { s.seq with acc := checksumAcc s.seq.acc cmd, idx := ix } } := by
  induction n with
  | zero =>
    refine ⟨[], [], s.draws, s.seq.idx, rfl, rfl, trivial, ?_, fun _ => rfl, fun h => absurd h (by decide), by simp [checksumAcc]⟩
    cases src <;> simp [CommandBytes]
  | succ n ih =>
    obtain ⟨cmd, answers, d, ix, hc, ha, hp, hcmd, hd, -, hrun⟩ := ih (by omega)
    have hidx : (BitVec.ofNat 16 n).toNat = n := by simp; omega
    rw [List.range_succ, List.flatMap_append, runActs_append, hrun]
    simp only [List.flatMap_cons, List.flatMap_nil, List.append_nil, runActs_cons, runActs_nil, runAct]
    generalize ht : ({ s with
          trace := s.trace ++ List.zipWith .xfer (cmd.map rev8) answers
          peer := peerAfter s.peer n
          draws := d
          seq := { s.seq with acc := checksumAcc s.seq.acc cmd, idx := ix } } : State) = t
    have hb : ∃ b d', commandByte src n (setIdx n t) = (b, { setIdx n t with draws := d' }) ∧
        CommandBytes s src (cmd ++ [b]) ∧ (SourceWritten s src (n + 1) → d' = s.draws) := by
      cases src with
      | cmdBuf =>
        obtain ⟨d', h2, h1⟩ := readByteAt_spec (setIdx n t) (cmdOffset n)
        have hbt : (setIdx n t).byteAt (cmdOffset n) = s.byteAt (cmdOffset n) :=
          byteAt_congr (by simp [← ht]) _
        refine ⟨_, d', Prod.ext rfl h2, ?_, fun hs => ?_⟩
        · intro i hi b hb
          simp only [List.length_append, List.length_cons, List.length_nil] at hi
          by_cases hin : i < n
          · rw [List.getElem_append_left (by omega)]
            exact hcmd i (by omega) b hb
          · have : i = n := by omega
            subst this
            rw [List.getElem_append_right (by omega)]
            simpa [hc, commandByte] using (h1 b (by rw [hbt]; exact hb)).1
        · obtain ⟨b, hb⟩ := Option.isSome_iff_exists.1 (hs n (by omega))
          rw [(h1 b (by rw [hbt]; exact hb)).2]
          simpa [← ht] using hd fun i hi => hs i (by omega)
      | firmware =>
        refine ⟨s.params.fwOpcode, d, by simp [commandByte, ← ht, setIdx], ?_, fun _ => hd trivial⟩
        intro b hb
        rcases List.mem_append.1 hb with hb | hb
        · exact hcmd b hb
        · simpa using hb
    obtain ⟨b, d', hb, hcb, hd'⟩ := hb
    refine ⟨cmd ++ [b], answers ++ [peerAnswer (rev8 b) { setIdx n t with draws := d' }], d',
      BitVec.ofNat 16 n, by simp [hc], by simp [ha], ?_, hcb, hd', fun _ => rfl, ?_⟩
    · rw [PeerGives_append]
      refine ⟨hp, ?_⟩
      have := PeerGives_one (rev8 b) { setIdx n t with draws := d' }
      simpa [← ht, ha] using this
    · rw [List.map_append, List.map_cons, List.map_nil, zipWith_snoc _ _ _ _ _ (by simp [hc, ha]),
        checksumAcc_append, ← peerAfter_add, peerAfter_one]
      have hi : (setIdx n t).seq.idx.toNat = n := by simpa using hidx
      simp only [writeCommandByte, hi, hb]
      simp only [← ht, writeByte, xfer, State.emit, setIdx, List.append_assoc]

/-- Bytes written one after another (R132): one transfer each, nothing else changed. -/
theorem writeBytesOut_spec (bs : List Byte) (s : State) :
    ∃ answers, answers.length = bs.length ∧ PeerGives s.peer answers ∧
      runActs (bs.map .write) s =
        { s with
          trace := s.trace ++ List.zipWith .xfer (bs.map rev8) answers
          peer := peerAfter s.peer bs.length } := by
  induction bs generalizing s with
  | nil => exact ⟨[], rfl, trivial, by simp⟩
  | cons b bs ih =>
    obtain ⟨answers, hl, hp, hrun⟩ := ih (writeByte b s)
    refine ⟨peerAnswer (rev8 b) s :: answers, by simp [hl], ?_, ?_⟩
    · rw [show peerAnswer (rev8 b) s :: answers = [peerAnswer (rev8 b) s] ++ answers from rfl, PeerGives_append]
      exact ⟨PeerGives_one _ _, by simpa [peerAfter_one] using hp⟩
    · rw [List.map_cons, runActs_cons]
      simp only [runAct, hrun, List.length_cons, Nat.add_comm bs.length 1, ← peerAfter_add, peerAfter_one]
      simp [writeByte, xfer, State.emit]

/-- `WriteFrame(src, n)` (R164): the frame of the command bytes goes out and nothing else changes but the answers taken,
the draws, `SEQ.acc` and `SEQ.idx`; chip-select is deasserted after. -/
theorem writeFrame_spec (src : CmdSource) (n : Nat) (hn : n ≤ 65536) (s : State) :
    ∃ cmd answers d ix, cmd.length = n ∧ answers.length = n + 9 ∧ PeerGives s.peer answers ∧
      CommandBytes s src cmd ∧ (SourceWritten s src n → d = s.draws) ∧ (0 < n → ix = BitVec.ofNat 16 (n - 1)) ∧
      writeFrame src n s =
        { s with
          trace := s.trace ++ writeFrameEvents s.params cmd answers
          cs := false
          peer := peerAfter s.peer (n + 9)
          draws := d
          seq := { s.seq with acc := checksumAcc s.params.tfi cmd, idx := ix } } := by
  obtain ⟨a1, l1, g1, e1⟩ := writeBytesOut_spec [s.params.dataWrite, Config.preamble, Config.start0,
    Config.start1, frameLen n, frameLenChecksum n, s.params.tfi] (delay (csAssert s))
  obtain ⟨cmd, a2, d, ix, hc, l2, g2, hcmd, hd, hx, e2⟩ := writeCommandBytes_spec src n hn
    (runAct .writeTfi (runActs ([s.params.dataWrite, Config.preamble, Config.start0, Config.start1, frameLen n,
      frameLenChecksum n].map .write) (delay (csAssert s))))
  obtain ⟨a3, l3, g3, e3⟩ := writeBytesOut_spec [neg8 (checksumAcc s.params.tfi cmd), Config.postamble]
    (runActs ((List.range n).flatMap fun i => [.setIdx i, .writeCommandByte src])
      (runAct .writeTfi (runActs ([s.params.dataWrite, Config.preamble, Config.start0, Config.start1, frameLen n,
        frameLenChecksum n].map .write) (delay (csAssert s)))))
  have e1' : runAct .writeTfi (runActs ([s.params.dataWrite, Config.preamble, Config.start0, Config.start1,
      frameLen n, frameLenChecksum n].map .write) (delay (csAssert s))) =
      { s with
        trace := s.trace ++ [.csOn, .delay] ++ List.zipWith .xfer ([s.params.dataWrite, Config.preamble,
          Config.start0, Config.start1, frameLen n, frameLenChecksum n, s.params.tfi].map rev8) a1
        cs := true
        peer := peerAfter s.peer 7
        seq := { s.seq with acc := s.params.tfi } } := by
    have h : ∀ t : State, t = runActs ([s.params.dataWrite, Config.preamble, Config.start0, Config.start1,
        frameLen n, frameLenChecksum n, s.params.tfi].map .write) (delay (csAssert s)) →
        runAct .writeTfi (runActs ([s.params.dataWrite, Config.preamble, Config.start0, Config.start1,
          frameLen n, frameLenChecksum n].map .write) (delay (csAssert s))) =
        { t with seq := { t.seq with acc := s.params.tfi } } := by
      rintro _ rfl
      rfl
    rw [h _ rfl, e1]
    simp [delay, csAssert, State.emit]
  rw [e1'] at e2 hcmd hd g2 e3 g3
  dsimp only at e2 hd g2 e3 g3
  rw [e2] at e3 g3
  dsimp only at e3 g3
  refine ⟨cmd, a1 ++ (a2 ++ a3), d, ix, hc, by simp [l1, l2, l3]; omega, ?_, ?_, fun h => ?_, hx, ?_⟩
  · rw [PeerGives_append, PeerGives_append]
    refine ⟨by simpa using g1, by simpa [l1] using g2, ?_⟩
    simpa [l1, l2, peerAfter_add] using g3
  · cases src <;> exact hcmd
  · exact hd (by cases src <;> exact h)
  · have hp : runActs [.csAssert, .delay, .write s.params.dataWrite, .write Config.preamble, .write Config.start0,
        .write Config.start1, .write (frameLen n), .write (frameLenChecksum n), .writeTfi] s =
        runAct .writeTfi (runActs ([s.params.dataWrite, Config.preamble, Config.start0, Config.start1, frameLen n,
          frameLenChecksum n].map .write) (delay (csAssert s))) := rfl
    rw [writeFrame, writeFrameCode, runActs_append, runActs_append, hp, e1', e2]
    change csDeassert (delay (runActs ([neg8 (checksumAcc s.params.tfi cmd), Config.postamble].map .write) _)) = _
    rw [e3]
    have hz : List.zipWith Event.xfer ((commandFrame s.params cmd).map rev8) (a1 ++ (a2 ++ a3)) =
        List.zipWith .xfer ([s.params.dataWrite, Config.preamble, Config.start0, Config.start1, frameLen n,
          frameLenChecksum n, s.params.tfi].map rev8) a1 ++ (List.zipWith .xfer (cmd.map rev8) a2 ++
        List.zipWith .xfer ([neg8 (checksumAcc s.params.tfi cmd), Config.postamble].map rev8) a3) := by
      rw [commandFrame, hc, List.append_assoc, List.map_append, List.map_append,
        List.zipWith_append (by simp [l1]), List.zipWith_append (by simp [hc, l2])]
    simp only [csDeassert, delay, State.emit, writeFrameEvents, frameEvents, hz, peerAfter_add]
    simp
    congr 1
    omega

theorem isBufferOffset_rsp {i : Nat} (h : i < 256) : isBufferOffset (rspOffset i) = true := by
  unfold isBufferOffset rspOffset
  simp only [Bool.and_eq_true, decide_eq_true_eq]
  omega

/-- The response bytes of a read (R163): one transfer each, byte i stored reversed at RSP_BUF[i]. -/
theorem readResponseBytes_spec (n : Nat) (hn : n ≤ 65536) (s : State) :
    ∃ answers m ix, ∃ ha : answers.length = n, PeerGives s.peer answers ∧
      (∀ i (h : i < n), assocGet m (rspOffset i) = some (rev8 answers[i])) ∧
      (∀ a, (a < rspOffset 0 ∨ rspOffset n ≤ a) → assocGet m a = s.byteAt a) ∧
      (n ≤ 256 → Memory.wf s.mem = true → Memory.wf m = true) ∧ (0 < n → ix = BitVec.ofNat 16 (n - 1)) ∧
      runActs ((List.range n).flatMap fun i => [.setIdx i, .readResponseByte]) s =
        { s with
          trace := s.trace ++ List.zipWith .xfer (List.replicate n Config.readFill) answers
          peer := peerAfter s.peer n
          mem := m
          seq := { s.seq with idx := ix } } := by
  induction n with
  | zero => exact ⟨[], s.mem, s.seq.idx, rfl, trivial, by simp, fun _ _ => rfl, fun _ h => h,
    fun h => absurd h (by decide), by simp⟩
  | succ n ih =>
    obtain ⟨answers, m, ix, ha, hp, hin, hout, hwf, -, hrun⟩ := ih (by omega)
    have hidx : (BitVec.ofNat 16 n).toNat = n := by simp; omega
    rw [List.range_succ, List.flatMap_append, runActs_append, hrun]
    simp only [List.flatMap_cons, List.flatMap_nil, List.append_nil, runActs_cons, runActs_nil, runAct]
    generalize ht : ({ s with
          trace := s.trace ++ List.zipWith .xfer (List.replicate n Config.readFill) answers
          peer := peerAfter s.peer n
          mem := m
          seq := { s.seq with idx := ix } } : State) = t
    refine ⟨answers ++ [peerAnswer Config.readFill (setIdx n t)],
      assocSet m (rspOffset n) (rev8 (peerAnswer Config.readFill (setIdx n t))), BitVec.ofNat 16 n,
      by simp [ha], ?_, ?_, ?_, ?_, fun _ => rfl, ?_⟩
    · rw [PeerGives_append]
      refine ⟨hp, ?_⟩
      have := PeerGives_one Config.readFill (setIdx n t)
      simpa [← ht, ha] using this
    · intro i hi
      rw [assocGet_assocSet]
      by_cases h : i < n
      · rw [if_neg (by simp [rspOffset]; omega), List.getElem_append_left (by omega)]
        exact hin i h
      · have : i = n := by omega
        subst this
        simp [List.getElem_append_right, ha]
    · intro a hoff
      rw [assocGet_assocSet, if_neg (by simp [rspOffset] at *; omega)]
      exact hout a (by simp [rspOffset] at *; omega)
    · intro h256 h
      exact wf_assocSet (hwf (by omega) h) _ _ (isBufferOffset_rsp (by omega))
    · rw [List.replicate_succ', zipWith_snoc _ _ _ _ _ (by simp [ha]), ← peerAfter_add, peerAfter_one]
      have hi : (setIdx n t).seq.idx.toNat = n := by simpa using hidx
      simp only [readResponseByte]
      simp only [← ht, readByte, xfer, State.emit, State.setByte, setIdx, List.append_assoc, hidx]

/-- `ReadFrame(n)` (R163): RSP_BUF[0..n-1] takes the logical bytes, every other buffer byte is as before, and nothing
else changes but the trace, the answers taken and `SEQ.idx`; chip-select is deasserted after. -/
theorem readFrame_spec (n : Nat) (hn : n ≤ 65536) (s : State) :
    ∃ answers m ix, ∃ ha : answers.length = n + 1, PeerGives s.peer answers ∧
      (∀ i (h : i < n), assocGet m (rspOffset i) = some (rev8 answers[i + 1])) ∧
      (∀ a, (a < rspOffset 0 ∨ rspOffset n ≤ a) → assocGet m a = s.byteAt a) ∧
      (n ≤ 256 → Memory.wf s.mem = true → Memory.wf m = true) ∧ (0 < n → ix = BitVec.ofNat 16 (n - 1)) ∧
      readFrame n s =
        { s with
          trace := s.trace ++ readFrameEvents s.params n answers
          cs := false
          peer := peerAfter s.peer (n + 1)
          mem := m
          seq := { s.seq with idx := ix } } := by
  obtain ⟨answers, m, ix, ha, hp, hin, hout, hwf, hx, hrun⟩ :=
    readResponseBytes_spec n hn (writeByte s.params.dataRead (delay (csAssert s)))
  refine ⟨peerAnswer (rev8 s.params.dataRead) (delay (csAssert s)) :: answers, m, ix, by simp [ha], ?_, ?_, ?_,
    ?_, hx, ?_⟩
  · rw [show ∀ x : Byte, x :: answers = [x] ++ answers from fun _ => rfl, PeerGives_append]
    exact ⟨PeerGives_one _ (delay (csAssert s)), by simpa [peerAfter_one] using hp⟩
  · simpa using hin
  · intro a h
    rw [hout a h]
    exact byteAt_congr (by simp) a
  · simpa using hwf
  · have hcode : readFrame n s = csDeassert (delay (runActs ((List.range n).flatMap fun i =>
        [.setIdx i, .readResponseByte]) (writeByte s.params.dataRead (delay (csAssert s))))) := by
      simp [readFrame, readFrameCode, runActs_append, runAct]
    rw [hcode, hrun]
    simp only [csDeassert, delay, State.emit, readFrameEvents, frameEvents, writeByte, xfer, csAssert,
      Nat.add_comm n 1, ← peerAfter_add, peerAfter_one, Config.readFill]
    simp

/-- One poll iteration's chip-select frame (R190): two answers taken, the status byte in `st`, one more poll. -/
theorem pollFrame_spec (s : State) :
    ∃ x : Byte × Byte, PeerGives s.peer [x.1, x.2] ∧
      runActs (pollFrameCode s.params) s =
        { s with
          trace := s.trace ++ pollEvents s.params x
          cs := false
          peer := peerAfter s.peer 2
          seq := { s.seq with st := rev8 x.2, polls := s.seq.polls + 1 } } := by
  refine ⟨(peerAnswer (rev8 s.params.statusRead) (delay (csAssert s)),
    peerAnswer Config.readFill (writeByte s.params.statusRead (delay (csAssert s)))), ?_, ?_⟩
  · rw [show ∀ x y : Byte, [x, y] = [x] ++ [y] from fun _ _ => rfl, PeerGives_append]
    refine ⟨PeerGives_one _ (delay (csAssert s)), ?_⟩
    simpa [peerAfter_one] using
      PeerGives_one Config.readFill (writeByte s.params.statusRead (delay (csAssert s)))
  · simp [pollFrameCode, runAct, readStatusByte, readByte, writeByte, xfer, State.emit, csAssert, csDeassert, delay,
      countPoll, pollEvents, frameEvents, peerAfter, Config.readFill]
    cases s.peer.script <;> simp

theorem AllMiss_cons (p : Params) (x : Byte × Byte) (xs : List (Byte × Byte)) :
    AllMiss p (x :: xs) ↔ rev8 x.2 ≠ p.ready ∧ AllMiss p xs := List.forall_mem_cons

/-- After a missed poll (R190): one more tick, the budget one less. -/
theorem pollMiss_spec (s : State) :
    runActs pollMissCode s =
      { s with trace := s.trace ++ [.delay], seq := { s.seq with cnt := s.seq.cnt - 1 } } := rfl

/-- `pollLoop` (R190): the missed iterations and, if one read `P_READY`, that one; each takes two answers and counts one
poll, each miss leaves the budget one less. -/
theorem pollLoop_spec (k : Nat) (s : State) :
    ∃ xs hit c, PollOutcome s.params k xs hit ∧ PeerGives s.peer (pollStageAnswers xs hit) ∧
      c = s.seq.cnt - BitVec.ofNat 16 xs.length ∧ (pollLoop k s).1 = hit.isSome ∧
      (pollLoop k s).2 =
        { s with
          trace := s.trace ++ pollStageEvents s.params xs hit
          cs := if pollCount xs hit = 0 then s.cs else false
          peer := peerAfter s.peer (2 * pollCount xs hit)
          seq := { s.seq with
            cnt := c
            st := statusAfter s.seq.st xs hit
            polls := s.seq.polls + BitVec.ofNat 32 (pollCount xs hit) } } := by
  induction k generalizing s with
  | zero =>
    exact ⟨[], none, s.seq.cnt, by simp [PollOutcome, AllMiss], trivial, by simp, rfl,
      by simp [pollLoop, pollStageEvents, missedPollEvents, pollCount, statusAfter]⟩
  | succ k ih =>
    obtain ⟨x, hp, hrun⟩ := pollFrame_spec s
    by_cases hx : rev8 x.2 = s.params.ready
    · refine ⟨[], some x, s.seq.cnt, by simp [PollOutcome, AllMiss, hx], by simpa [pollStageAnswers,
        pollAnswers] using hp, by simp, ?_, ?_⟩ <;>
        simp [pollLoop, hrun, hx, pollStageEvents, missedPollEvents, pollCount, statusAfter]
    · obtain ⟨xs, hit, c, ho, hg, hcc, h1, h2⟩ := ih (runActs pollMissCode (runActs (pollFrameCode s.params) s))
      have hloop : pollLoop (k + 1) s = pollLoop k (runActs pollMissCode (runActs (pollFrameCode s.params) s)) := by
        simp [pollLoop, hrun, hx]
      have hst : statusAfter s.seq.st (x :: xs) hit = statusAfter (rev8 x.2) xs hit := by cases hit <;> rfl
      have hcount : pollCount (x :: xs) hit = pollCount xs hit + 1 := by cases hit <;> simp [pollCount]
      rw [hrun, pollMiss_spec] at hloop ho hg hcc h1 h2
      dsimp only at ho hg hcc h1 h2
      refine ⟨x :: xs, hit, c, ?_, ?_, ?_, by rw [hloop, h1], ?_⟩
      · cases hit with
        | none => exact ⟨(AllMiss_cons _ _ _).2 ⟨hx, ho.1⟩, by simpa using ho.2⟩
        | some y => exact ⟨(AllMiss_cons _ _ _).2 ⟨hx, ho.1⟩, by simpa using ho.2.1, ho.2.2⟩
      · have : pollStageAnswers (x :: xs) hit = [x.1, x.2] ++ pollStageAnswers xs hit := by
          cases hit <;> simp [pollStageAnswers, pollAnswers]
        rw [this, PeerGives_append]
        exact ⟨hp, hg⟩
      · rw [hcc, List.length_cons, BitVec.ofNat_add, BitVec.sub_sub, BitVec.add_comm 1]
        rfl
      · have hev : pollStageEvents s.params (x :: xs) hit =
            pollEvents s.params x ++ [.delay] ++ pollStageEvents s.params xs hit := by
          cases hit <;> simp [pollStageEvents, missedPollEvents]
        rw [hloop, h2, hcount, hev, hst, peerAfter_add]
        simp only [ite_self, Nat.add_eq_zero_iff, Nat.one_ne_zero, and_false, if_false, List.append_assoc,
          State.mk.injEq, SeqState.mk.injEq, and_true, true_and]
        exact ⟨by rw [BitVec.ofNat_add, BitVec.add_assoc, BitVec.add_comm 1]; rfl, by congr 1; omega⟩

/-- `PollReady(b)` (R190): the budget left is b less the misses. -/
theorem pollReady_spec (b : Half) (s : State) :
    ∃ xs hit, PollOutcome s.params b.toNat xs hit ∧ PeerGives s.peer (pollStageAnswers xs hit) ∧
      (pollReady b s).1 = hit.isSome ∧
      (pollReady b s).2 =
        { s with
          trace := s.trace ++ pollStageEvents s.params xs hit
          cs := if pollCount xs hit = 0 then s.cs else false
          peer := peerAfter s.peer (2 * pollCount xs hit)
          seq := { s.seq with
            cnt := BitVec.ofNat 16 (b.toNat - xs.length)
            st := statusAfter s.seq.st xs hit
            polls := s.seq.polls + BitVec.ofNat 32 (pollCount xs hit) } } := by
  obtain ⟨xs, hit, c, o, g, hc, h1, h2⟩ := pollLoop_spec b.toNat (setCnt b s)
  have hl : xs.length ≤ b.toNat := by
    cases hit with
    | none => exact Nat.le_of_eq o.2
    | some x => exact Nat.le_of_lt o.2.1
  have hc' : c = BitVec.ofNat 16 (b.toNat - xs.length) := by
    rw [hc, setCnt_seq]
    apply BitVec.eq_of_toNat_eq
    simp [BitVec.toNat_sub]
    omega
  exact ⟨xs, hit, o, g, h1, hc' ▸ h2⟩

/-- Acknowledgment bytes read one after another (R195): one transfer each, each stored reversed in its place. -/
theorem readAckBytes_spec (is : List (Fin 6)) (s : State) :
    ∃ answers, answers.length = is.length ∧ PeerGives s.peer answers ∧
      runActs (is.map .readAckByte) s =
        { s with
          trace := s.trace ++ List.zipWith .xfer (List.replicate is.length Config.readFill) answers
          peer := peerAfter s.peer is.length
          seq := { s.seq with ack := (is.zip answers).foldl (fun v p => v.set p.1 (rev8 p.2)) s.seq.ack } } := by
  induction is generalizing s with
  | nil => exact ⟨[], rfl, trivial, by simp⟩
  | cons i is ih =>
    obtain ⟨answers, hl, hp, hrun⟩ := ih (readAckByte i s)
    refine ⟨peerAnswer Config.readFill s :: answers, by simp [hl], ?_, ?_⟩
    · rw [show ∀ x : Byte, x :: answers = [x] ++ answers from fun _ => rfl, PeerGives_append]
      exact ⟨PeerGives_one _ _, by simpa [peerAfter_one, readAckByte] using hp⟩
    · rw [List.map_cons, runActs_cons]
      simp only [runAct, hrun, List.length_cons, Nat.add_comm is.length 1, ← peerAfter_add, peerAfter_one]
      rw [Nat.add_comm 1 is.length, List.replicate_succ]
      simp [readAckByte, readByte, xfer, State.emit]

theorem rev8_eq_zero (a : Byte) : rev8 a = 0#8 ↔ a = 0#8 := by
  revert a
  decide

theorem rev8_eq_ones (a : Byte) : rev8 a = 255#8 ↔ a = 255#8 := by
  revert a
  decide

/-- Byte i of `SEQ.ack` after an acknowledgment check is the logical byte of answer i + 1 (R195). -/
theorem heldAck_get (v : Vector Byte 6) {answers : List Byte} (ha : answers.length = 7) (i : Nat) (h : i < 6) :
    (heldAck v (some answers))[i] = rev8 answers[i + 1] := by
  simp [heldAck, List.getElem?_eq_getElem (show i + 1 < answers.length by omega)]

/-- Six acknowledgment bytes stored one after another leave `SEQ.ack` as `heldAck` says (R195). -/
theorem ack_stored (v : Vector Byte 6) (a0 a1 a2 a3 a4 a5 a6 : Byte) :
    (([0, 1, 2, 3, 4, 5] : List (Fin 6)).zip [a1, a2, a3, a4, a5, a6]).foldl (fun v p => v.set p.1 (rev8 p.2)) v =
      heldAck v (some [a0, a1, a2, a3, a4, a5, a6]) := by
  ext i hi
  match i, hi with
  | 0, _ | 1, _ | 2, _ | 3, _ | 4, _ | 5, _ => simp [List.zip, List.zipWith, List.foldl, heldAck]

/-- The six bytes stored in `SEQ.ack` are the ACK frame exactly when the wire bytes are (R196). -/
theorem ack_bytes (v : Vector Byte 6) (a0 a1 a2 a3 a4 a5 a6 : Byte) :
    (heldAck v (some [a0, a1, a2, a3, a4, a5, a6]) == Config.ack) =
      ([a1, a2, a3, a4, a5, a6] == ackBytes) := by
  rw [Bool.eq_iff_iff, beq_iff_eq, beq_iff_eq, ackBytes, Config.ack, ← Vector.toList_inj]
  simp [heldAck, Vector.toList_ofFn, List.ofFn_succ, rev8_eq_zero, rev8_eq_ones]

/-- `AckCheck()` (R195): seven answers taken, the last six stored reversed and compared with the ACK frame. -/
theorem ackCheck_spec (s : State) :
    ∃ answers, answers.length = 7 ∧ PeerGives s.peer answers ∧ (ackCheck s).1 = (answers.tail == ackBytes) ∧
      (ackCheck s).2 =
        { s with
          trace := s.trace ++ readFrameEvents s.params 6 answers
          cs := false
          peer := peerAfter s.peer 7
          seq := { s.seq with ack := heldAck s.seq.ack (some answers) } } := by
  obtain ⟨answers, hl, hp, hrun⟩ := readAckBytes_spec [0, 1, 2, 3, 4, 5]
    (writeByte s.params.dataRead (delay (csAssert s)))
  obtain ⟨a1, a2, a3, a4, a5, a6, rfl⟩ : ∃ a1 a2 a3 a4 a5 a6, answers = [a1, a2, a3, a4, a5, a6] := by
    match answers, hl with
    | [a1, a2, a3, a4, a5, a6], _ => exact ⟨a1, a2, a3, a4, a5, a6, rfl⟩
  have hcode : runActs (ackFrameCode s.params) s = csDeassert (delay (runActs ([0, 1, 2, 3, 4, 5].map .readAckByte)
      (writeByte s.params.dataRead (delay (csAssert s))))) := rfl
  rw [hrun, ack_stored _ (peerAnswer (rev8 s.params.dataRead) (delay (csAssert s)))] at hcode
  refine ⟨peerAnswer (rev8 s.params.dataRead) (delay (csAssert s)) :: [a1, a2, a3, a4, a5, a6], rfl, ?_, ?_, ?_⟩
  · rw [show ∀ x : Byte, x :: [a1, a2, a3, a4, a5, a6] = [x] ++ [a1, a2, a3, a4, a5, a6] from fun _ => rfl,
      PeerGives_append]
    exact ⟨PeerGives_one _ (delay (csAssert s)), by simpa [peerAfter_one] using hp⟩
  · rw [List.tail_cons, ← ack_bytes s.seq.ack (peerAnswer (rev8 s.params.dataRead) (delay (csAssert s)))]
    simp only [ackCheck, hcode]
    rfl
  · simp only [ackCheck, hcode]
    simp only [csDeassert, delay, State.emit, readFrameEvents, frameEvents, writeByte, xfer, csAssert, peerAfter,
      Config.readFill]
    simp

/-! ### The exchange -/

/-- What the gates of an exchange leave of a state with chip-select deasserted: everything as before but STAGE, the
trace, the answers taken, and of the sequencer `cnt`, `st`, `ack` and `polls`. -/
def Leaves (s t : State) (polls : Nat) (evs : List Event) (answers : List Byte) (cnt : Half) (st : Byte)
    (ack : Vector Byte 6) : Prop :=
  PeerGives s.peer answers ∧
  t = { s with
    status := { s.status with stage := t.status.stage }
    trace := s.trace ++ evs
    peer := peerAfter s.peer answers.length
    seq := { s.seq with cnt := cnt, st := st, ack := ack, polls := s.seq.polls + BitVec.ofNat 32 polls } }

theorem Leaves_trans {s t u : State} {j k : Nat} {e f : List Event} {a b : List Byte} {c c' : Half} {x x' : Byte}
    {v v' : Vector Byte 6} (h : Leaves s t j e a c x v) (h' : Leaves t u k f b c' x' v') :
    Leaves s u (j + k) (e ++ f) (a ++ b) c' x' v' := by
  obtain ⟨g, h⟩ := h
  obtain ⟨g', h'⟩ := h'
  refine ⟨(PeerGives_append _ _ _).2 ⟨g, by rw [h] at g'; exact g'⟩, ?_⟩
  rw [h', h]
  simp [peerAfter_add, BitVec.ofNat_add, BitVec.add_assoc]

theorem Leaves_setStage (k : Stage) (s : State) :
    Leaves s (setStage k s) 0 [] [] s.seq.cnt s.seq.st s.seq.ack :=
  ⟨trivial, by simp [setStage]⟩

theorem Leaves_fields {s t : State} {k : Nat} {e : List Event} {a : List Byte} {c : Half} {x : Byte}
    {v : Vector Byte 6} (h : Leaves s t k e a c x v) :
    t.cs = s.cs ∧ t.params = s.params ∧ t.seq.cnt = c ∧ t.seq.st = x ∧ t.seq.ack = v := by
  rw [h.2]
  exact ⟨rfl, rfl, rfl, rfl, rfl⟩

theorem pollStageAnswers_length (xs : List (Byte × Byte)) (hit : Option (Byte × Byte)) :
    (pollStageAnswers xs hit).length = 2 * pollCount xs hit := by
  have : (pollAnswers xs).length = 2 * xs.length := by
    induction xs with
    | nil => rfl
    | cons x xs ih =>
      simp only [pollAnswers, List.flatMap_cons, List.length_append, List.length_cons, List.length_nil] at ih ⊢
      omega
  cases hit <;> simp [pollStageAnswers, pollCount, this, Nat.mul_add]

theorem pollReady_leaves (b : Half) (s : State) (hcs : s.cs = false) :
    ∃ xs hit, PollOutcome s.params b.toNat xs hit ∧ (pollReady b s).1 = hit.isSome ∧
      Leaves s (pollReady b s).2 (pollCount xs hit) (pollStageEvents s.params xs hit) (pollStageAnswers xs hit)
        (BitVec.ofNat 16 (b.toNat - xs.length)) (statusAfter s.seq.st xs hit) s.seq.ack := by
  obtain ⟨xs, hit, o, g, r, e⟩ := pollReady_spec b s
  exact ⟨xs, hit, o, r, g, by rw [e]; simp [hcs, pollStageAnswers_length]⟩

theorem ackCheck_leaves (s : State) (hcs : s.cs = false) :
    ∃ answers, answers.length = 7 ∧ (ackCheck s).1 = (answers.tail == ackBytes) ∧
      Leaves s (ackCheck s).2 0 (readFrameEvents s.params 6 answers) answers s.seq.cnt s.seq.st
        (heldAck s.seq.ack (some answers)) := by
  obtain ⟨answers, hl, g, r, e⟩ := ackCheck_spec s
  exact ⟨answers, hl, r, g, by rw [e]; simp [hcs, hl]⟩

/-- What an exchange's gates leave (R220), as one end of `ExchangeOutcome`. -/
def LeavesEnd (s t : State) (e : ExchangeEnd) : Prop :=
  Leaves s t e.polls e.evs e.answers (BitVec.ofNat 16 e.left) e.st (heldAck s.seq.ack e.ack)

/-- The gates of an exchange after the frame write (R220). -/
theorem exchangePoll1_spec (b : Half) (s : State) (hcs : s.cs = false) :
    ∃ e, ExchangeOutcome s.params b.toNat s.seq.st e ∧ (exchangePoll1 b s).code = e.code ∧
      (exchangePoll1 b s).stage = e.stage ∧ LeavesEnd s (exchangePoll1 b s).state e := by
  obtain ⟨xs, hit, o1, r1, l1⟩ := pollReady_leaves b (setStage .poll1 s) hcs
  have k1 := Leaves_trans (Leaves_setStage .poll1 s) l1
  cases hit with
  | none =>
    have hx : exchangePoll1 b s = ⟨.timeout, .poll1, (pollReady b (setStage .poll1 s)).2⟩ := by
      simp [exchangePoll1, r1]
    rw [hx]
    exact ⟨_, .timeout1 xs o1, rfl, rfl,
      by simpa [LeavesEnd, heldAck, pollCount, pollStageEvents, pollStageAnswers, ← o1.2] using k1⟩
  | some x =>
    have hx : exchangePoll1 b s = exchangeAck b (pollReady b (setStage .poll1 s)).2 := by simp [exchangePoll1, r1]
    rw [hx]
    generalize (pollReady b (setStage .poll1 s)).2 = t at k1
    have c1 := Leaves_fields k1
    obtain ⟨ack, hl, r2, l2⟩ := ackCheck_leaves (setStage .ackCheck t) (by simp [c1.1, hcs])
    have k2 := Leaves_trans k1 (Leaves_trans (Leaves_setStage .ackCheck t) l2)
    simp only [setStage_params, setStage_seq, c1.2] at k2
    cases ha : (ack.tail == ackBytes) with
    | false =>
      have hx : exchangeAck b t = ⟨.nack, .ackCheck, (ackCheck (setStage .ackCheck t)).2⟩ := by
        simp [exchangeAck, r2, ha]
      rw [hx]
      exact ⟨_, .nack xs x ack o1 hl (by simpa using ha), rfl, rfl,
        by simpa [LeavesEnd, heldAck, statusAfter, pollCount, pollStageEvents, pollStageAnswers] using k2⟩
    | true =>
      have hx : exchangeAck b t = exchangePoll2 b (ackCheck (setStage .ackCheck t)).2 := by
        simp [exchangeAck, r2, ha]
      rw [hx]
      generalize (ackCheck (setStage .ackCheck t)).2 = u at k2
      have c2 := Leaves_fields k2
      obtain ⟨ys, hit, o2, r3, l3⟩ := pollReady_leaves b (setStage .poll2 u) (by simp [c2.1, hcs])
      have k3 := Leaves_trans k2 (Leaves_trans (Leaves_setStage .poll2 u) l3)
      simp only [setStage_params, setStage_seq, c2.2] at k3 o2
      have ha' : ack.tail = ackBytes := by simpa using ha
      cases hit with
      | none =>
        have hx : exchangePoll2 b u = ⟨.timeout, .poll2, (pollReady b (setStage .poll2 u)).2⟩ := by
          simp [exchangePoll2, r3]
        rw [hx]
        exact ⟨_, .timeout2 xs x ack ys o1 hl ha' o2, rfl, rfl,
          by simpa [LeavesEnd, heldAck, statusAfter, pollCount, pollStageEvents, pollStageAnswers, ← o2.2] using k3⟩
      | some y =>
        have hx : exchangePoll2 b u = ⟨.ok, .none, (pollReady b (setStage .poll2 u)).2⟩ := by
          simp [exchangePoll2, r3]
        rw [hx]
        exact ⟨_, .ok xs x ack ys y o1 hl ha' o2, rfl, rfl,
          by simpa [LeavesEnd, heldAck, statusAfter, pollCount, pollStageEvents, pollStageAnswers] using k3⟩

/-- `Exchange(src, n, b)` (R220): the frame of the command bytes, then the gates; and the state it leaves. -/
theorem exchange_spec (src : CmdSource) (n : Nat) (hn : n ≤ 65536) (b : Half) (s : State) :
    ∃ cmd fa e d k ix, cmd.length = n ∧ fa.length = n + 9 ∧
      PeerGives s.peer (fa ++ e.answers) ∧ CommandBytes s src cmd ∧ (SourceWritten s src n → d = s.draws) ∧
      ExchangeOutcome s.params b.toNat s.seq.st e ∧ (0 < n → ix = BitVec.ofNat 16 (n - 1)) ∧
      (exchange src n b s).code = e.code ∧ (exchange src n b s).stage = e.stage ∧
      (exchange src n b s).state =
        { s with
          status := { s.status with stage := k }
          trace := s.trace ++ writeFrameEvents s.params cmd fa ++ e.evs
          cs := false
          peer := peerAfter s.peer (n + 9 + e.answers.length)
          draws := d
          seq := { s.seq with
            acc := checksumAcc s.params.tfi cmd
            cnt := BitVec.ofNat 16 e.left
            idx := ix
            polls := s.seq.polls + BitVec.ofNat 32 e.polls
            ack := heldAck s.seq.ack e.ack
            st := e.st } } := by
  obtain ⟨cmd, fa, d, ix, hc, hf, gf, hcmd, hd, hx, ef⟩ := writeFrame_spec src n hn (setStage .frameWrite s)
  obtain ⟨e, o, h1, h2, g, h⟩ :=
    exchangePoll1_spec b (writeFrame src n (setStage .frameWrite s)) (by rw [ef])
  have hxe : exchange src n b s = exchangePoll1 b (writeFrame src n (setStage .frameWrite s)) := rfl
  rw [← hxe] at h1 h2 h
  have hp : (writeFrame src n (setStage .frameWrite s)).params = s.params := by rw [ef]; rfl
  have hs : (writeFrame src n (setStage .frameWrite s)).seq.st = s.seq.st := by rw [ef]; rfl
  rw [hp, hs] at o
  rw [ef] at g h
  refine ⟨cmd, fa, e, d, (exchange src n b s).state.status.stage, ix, hc, hf,
    (PeerGives_append _ _ _).2 ⟨gf, by rw [hf]; exact g⟩, by cases src <;> exact hcmd,
    fun h => hd (by cases src <;> exact h), o, hx, h1, h2, ?_⟩
  conv_lhs => rw [h]
  conv_rhs => rw [h]
  simp [setStage, peerAfter_add]

end Sys2Proof.Machine
end

