-- ==== Sys2Proof/Laws/Sequencer.lean ====
section
/-! SUPPORT. The sequencer a step at a time: what each statement does to a state at a position, and runs of straight-line
code. -/

namespace Sys2Proof.Machine

@[simp] theorem continueWith_continueWith (r r' : List Stmt) (s : State) :
    continueWith r (continueWith r' s) = continueWith r s := rfl

/-- A straight-line statement does not look at the position (R42). -/
theorem runAct_continueWith (a : Act) (r : List Stmt) (s : State) :
    runAct a (continueWith r s) = continueWith r (runAct a s) := by
  have hr : ∀ (t : State) off, (continueWith r t).readByteAt off =
      ((t.readByteAt off).1, continueWith r (t.readByteAt off).2) := by
    intro t off
    have : (continueWith r t).byteAt off = t.byteAt off := rfl
    simp only [State.readByteAt, this]
    cases t.byteAt off <;> rfl
  cases a with
  | writeCommandByte src =>
    cases src with
    | cmdBuf =>
      have hi : (continueWith r s).seq.idx = s.seq.idx := rfl
      simp only [runAct, writeCommandByte, commandByte, hi, hr]
      rfl
    | firmware => rfl
  | packFirmware =>
    simp only [runAct, packFirmware, hr]
    rfl
  | _ => rfl

theorem runActs_continueWith (l : List Act) (r : List Stmt) (s : State) :
    runActs l (continueWith r s) = continueWith r (runActs l s) := by
  induction l generalizing s with
  | nil => rfl
  | cons a l ih => simp only [runActs_cons, runAct_continueWith, ih]

/-- The step at a position runs the statement there (R31, R73). -/
@[simp] theorem seqStep_continueWith (st : Stmt) (rest : List Stmt) (s : State) :
    seqStep (continueWith (st :: rest) s) = runStmt st rest (continueWith (st :: rest) s) := rfl

theorem seqRun_add (j k : Nat) (s : State) : seqRun (j + k) s = seqRun k (seqRun j s) := by
  induction j generalizing s with
  | zero => simp [seqRun]
  | succ j ih => rw [Nat.succ_add]; exact ih _

/-- Straight-line code run a statement at a time is the code run whole (R73). -/
theorem seqRun_straight (l : List Act) (rest : List Stmt) (s : State) :
    seqRun l.length (continueWith (straight l ++ rest) s) = continueWith rest (runActs l s) := by
  induction l generalizing s with
  | nil => rfl
  | cons a l ih =>
    have : seqStep (continueWith (straight (a :: l) ++ rest) s) =
        continueWith (straight l ++ rest) (runAct a s) := by
      change continueWith (straight l ++ rest) (runAct a (continueWith _ s)) = _
      rw [runAct_continueWith]
      rfl
    rw [List.length_cons, seqRun, this, ih]
    rfl

end Sys2Proof.Machine
end

