-- ==== Sys2Proof/Laws/HostBus.lean ====
section
/-! SUPPORT. What a host access can do (20_memory.md R71 to R81), said once: a read draws at most, a write is one of four
things; and every operation on memory keeps the canonical form. -/

namespace Sys2Proof.Machine

/-- The reads the window permits, by offset and width (R71, R74). -/
theorem readPermitted_iff (width off : Nat) :
    readPermitted width off = true ↔
      ((off = 0x004 ∨ off = 0x008) ∧ width = 4) ∨
      (0x100 ≤ off ∧ off < 0x300 ∧ (width = 1 ∨ width = 2 ∨ width = 4) ∧ off % width = 0) := by
  simp only [readPermitted, regionOf]
  split_ifs <;>
    simp only [registerShape, bufferShape, Bool.and_eq_true, Bool.or_eq_true, beq_iff_eq,
      false_iff] <;> omega

/-- The writes the window permits, by offset and width (R71, R74). -/
theorem writePermitted_iff (width off : Nat) :
    writePermitted width off = true ↔
      ((off = 0x000 ∨ off = 0x004) ∧ width = 4) ∨
      (0x100 ≤ off ∧ off < 0x200 ∧ (width = 1 ∨ width = 2 ∨ width = 4) ∧ off % width = 0) := by
  simp only [writePermitted, regionOf]
  split_ifs <;>
    simp only [registerShape, bufferShape, Bool.and_eq_true, Bool.or_eq_true, beq_iff_eq,
      false_iff] <;> omega

/-- A host read changes nothing but the count of draws (R78). -/
theorem hostRead_frame {width off : Nat} {s t : State} {v : Word} (h : hostRead width off s = some (v, t)) :
    ∃ d, t = { s with draws := d } := by
  simp only [hostRead] at h
  split at h
  · split at h <;> simp only [Option.some.injEq, Prod.mk.injEq, reduceCtorEq] at h
    · exact ⟨s.draws, h.2.symm⟩
    · simp only [readResultRegister] at h
      split at h <;> simp only [Prod.mk.injEq] at h
      · exact ⟨_, h.2.symm⟩
      · exact ⟨s.draws, h.2.symm⟩
    · obtain ⟨d, hd⟩ := readBytes_eq width off s
      exact ⟨d, h.2.symm.trans hd⟩
    · simp only [readResponse] at h
      split at h
      · exact ⟨_, h.2.symm.trans (congrArg Prod.snd (drawBytes_spec width s))⟩
      · obtain ⟨d, hd⟩ := readBytes_eq width off s
        exact ⟨d, h.2.symm.trans hd⟩
  · cases h

/-- The offsets a permitted host write to CMD_BUF stores to are buffer bytes. -/
theorem cmdStore_inBuffer {width off : Nat} (h : bufferShape width off = true) (hl : 0x100 ≤ off) (hu : off < 0x200) :
    ∀ j < width, isBufferOffset (off + 0 + j) = true := by
  intro j hj
  simp only [bufferShape, Bool.and_eq_true, Bool.or_eq_true, beq_iff_eq] at h
  unfold isBufferOffset
  simp only [Bool.and_eq_true, decide_eq_true_eq]
  omega

/-- A permitted host write is a dropped one, the acceptance of an operation word, a write to STATUS, or bytes stored in
CMD_BUF (R34, R75, R76, R102). -/
theorem hostWrite_cases {width off : Nat} {v : Word} {s t : State} (h : hostWrite width off v s = some t) :
    (s.status.busy = true ∧ t = setOvr s) ∨ (s.status.busy = false ∧ t = accept v s) ∨ t = writeStatus v s ∨
      (s.status.busy = false ∧ ∃ m, t = { s with mem := m } ∧ (Memory.wf s.mem = true → Memory.wf m = true)) := by
  simp only [hostWrite] at h
  split at h
  · rename_i hp
    simp only [writePermitted] at hp
    have hr : regionOf off = .cmdBuf → 0x100 ≤ off ∧ off < 0x200 := by
      unfold regionOf
      split_ifs <;> intro h <;> cases h <;> omega
    split at h
    all_goals simp only [Option.some.injEq, reduceCtorEq] at h
    · simp only [writeOp] at h
      split at h
      · exact .inl ⟨‹_›, h.symm⟩
      · exact .inr (.inl ⟨Bool.eq_false_iff.2 ‹¬s.status.busy = true›, h.symm⟩)
    · exact .inr (.inr (.inl h.symm))
    · rename_i hc
      simp only [hc] at hp
      simp only [writeCommandBuffer] at h
      split at h
      · exact .inl ⟨‹_›, h.symm⟩
      · obtain ⟨m, hm, hw⟩ := writeBytes_eq width 0 off v s
        exact .inr (.inr (.inr ⟨Bool.eq_false_iff.2 ‹¬s.status.busy = true›, m, h.symm.trans hm, fun hs =>
          hw hs (cmdStore_inBuffer hp (hr hc).1 (hr hc).2)⟩))
  · cases h

/-! ### Host bit slices -/

/-- A slice of bits a host value has is that many bits of it as an unsigned number (R15). -/
theorem bitSlice_toNat {hi lo : Nat} (v : Word) (h : lo ≤ hi) (h' : hi < 32) :
    (bitSlice v hi lo).toNat = v.toNat / 2 ^ lo % 2 ^ (hi + 1 - lo) := by
  rw [bitSlice, if_pos ⟨h, h'⟩, BitVec.toNat_setWidth, BitVec.extractLsb'_toNat, Nat.shiftRight_eq_div_pow]
  exact Nat.mod_eq_of_lt (Nat.lt_of_lt_of_le (Nat.mod_lt _ (Nat.two_pow_pos _))
    (Nat.pow_le_pow_right (by decide) (by omega)))

/-- Any other slice is a free value (log entry 26). -/
theorem bitSlice_unstated {hi lo : Nat} (v : Word) (h : hi < lo ∨ 32 ≤ hi) :
    bitSlice v hi lo = Config.unstatedSlice v hi lo := by
  rw [bitSlice, if_neg (by omega)]

/-! ### Every memory operation keeps the canonical form -/

theorem hostRead_wf {width off : Nat} {s t : State} {v : Word} (h : hostRead width off s = some (v, t))
    (hs : Memory.wf s.mem = true) : Memory.wf t.mem = true := by
  obtain ⟨d, rfl⟩ := hostRead_frame h
  exact hs

theorem hostWrite_wf {width off : Nat} {v : Word} {s t : State} (h : hostWrite width off v s = some t)
    (hs : Memory.wf s.mem = true) : Memory.wf t.mem = true := by
  rcases hostWrite_cases h with ⟨-, rfl⟩ | ⟨-, rfl⟩ | rfl | ⟨-, m, rfl, hm⟩
  · exact hs
  · exact hs
  · exact hs
  · exact hm hs

theorem readResponseByte_wf {s : State} (hi : s.seq.idx.toNat < 256) (hs : Memory.wf s.mem = true) :
    Memory.wf (readResponseByte s).mem = true :=
  wf_assocSet hs _ _ (isBufferOffset_rsp hi)

/-- A straight-line statement keeps the canonical form; the index of a response byte is below 256 (R45, R163). -/
theorem runAct_wf {a : Act} {s : State} (hi : a = .readResponseByte → s.seq.idx.toNat < 256)
    (hs : Memory.wf s.mem = true) : Memory.wf (runAct a s).mem = true := by
  cases a with
  | readResponseByte => exact readResponseByte_wf (hi rfl) hs
  | writeCommandByte src =>
    cases src with
    | cmdBuf =>
      obtain ⟨d, h, -⟩ := readByteAt_spec s (cmdOffset s.seq.idx.toNat)
      simpa [runAct, writeCommandByte, commandByte, h] using hs
    | firmware => simpa [runAct, writeCommandByte, commandByte] using hs
  | packFirmware =>
    simpa [runAct, packFirmware] using hs
  | _ => simpa [runAct, writeTfi, readAckByte, readStatusByte, readResult] using hs

theorem resetInput_wf (s : State) : Memory.wf (resetInput s).mem = true := rfl

/-- The buffers at reset are in canonical form. -/
theorem reset_wf : Memory.wf State.reset.mem = true := rfl

end Sys2Proof.Machine
end

