-- ==== Sys2Proof/Laws/PerInstr.lean ====
section
/-! SUPPORT. What holds of every operation as syntax: the word it assembles to carries its operation code, RSV 0 (R105), its
operands, and 0 in every field it does not use (30_encoding.md R100, R101, R109). -/

namespace Sys2Proof.Laws.WordFields

/-- The fields of the word of an operation, each number as R100 places it. -/
def Statement (i : Instr) : Prop :=
  (encode i).toNat % 16 = i.opcode.toNat ∧ (encode i).toNat / 16 % 16 = 0 ∧
    (encode i).toNat / 256 % 256 = i.arg8.toNat ∧ (encode i).toNat / 65536 = i.budget.toNat

theorem fields (i : Instr) : Statement i := by
  obtain ⟨h1, h2, h3, h4⟩ := operationWord_fields i.budget i.arg8 0 i.opcode
  exact ⟨by rw [← opcField_toNat]; exact congrArg BitVec.toNat h1,
    by rw [← rsvField_toNat]; exact congrArg BitVec.toNat h2,
    by rw [← arg8Field_toNat]; exact congrArg BitVec.toNat h3,
    by rw [← budgetField_toNat]; exact congrArg BitVec.toNat h4⟩

theorem bitrev (v : Byte) : Statement (.bitrev v) := fields _
theorem xferWr (v : Byte) : Statement (.xferWr v) := fields _
theorem xferRd : Statement .xferRd := fields _
theorem writeCmd (n : Nat) : Statement (.writeCmd n) := fields _
theorem readData (n : Nat) : Statement (.readData n) := fields _
theorem waitReady (b : Nat) : Statement (.waitReady b) := fields _
theorem checkAck : Statement .checkAck := fields _
theorem execute (n b : Nat) : Statement (.execute n b) := fields _
theorem getFw : Statement .getFw := fields _

end Sys2Proof.Laws.WordFields
end

