-- ==== Sys2Proof/Tests/Slice0.lean ====
section
/-! SUPPORT. The model's own tests. Every expected value is a vector of 95_test_vectors.md (its name stands at the test) or is
worked out by hand from the rule named there. Then, for every statement with hypotheses, a witness that meets them. -/

namespace Sys2Proof.Tests

open Sys2Proof Sys2Proof.Machine

/-! ### WellFormed refuses each ill-formed operand (R109) -/

theorem test_wf_refuses_write_length : (Instr.writeCmd 256).wf = false := by decide
theorem test_wf_refuses_read_length : (Instr.readData 256).wf = false := by decide
theorem test_wf_refuses_budget : (Instr.waitReady 65536).wf = false := by decide
theorem test_wf_refuses_execute_length : (Instr.execute 256 0).wf = false := by decide
theorem test_wf_refuses_execute_budget : (Instr.execute 0 65536).wf = false := by decide
theorem test_wf_keeps_illegal_lengths :
    (Instr.writeCmd 0).wf = true ∧ (Instr.writeCmd 255).wf = true ∧ (Instr.readData 0).wf = true := by decide

/-! ### Decoding of words written out from R100 and R101: BUDGET, ARG8, RSV, OPC, most significant first -/

theorem test_decode_bitrev :
    decode 0b0000000011111111_00000001_0000_0001#32 = .ok (.bitrev 0x01) := by decide
theorem test_decode_xferWr :
    decode 0b0000000000000000_00000010_0000_0010#32 = .ok (.xferWr 0x02) := by decide
theorem test_decode_xferRd :
    decode 0b1111111111111111_00000000_0000_0011#32 = .ok .xferRd := by decide
theorem test_decode_writeCmd :
    decode 0b0000000000000000_11111110_0000_0100#32 = .ok (.writeCmd 254) := by decide
theorem test_decode_readData :
    decode 0b0000000000000000_00001100_0000_0101#32 = .ok (.readData 12) := by decide
theorem test_decode_waitReady :
    decode 0b1000000000000001_00000000_0000_0110#32 = .ok (.waitReady 32769) := by decide
theorem test_decode_checkAck :
    decode 0b0000000000000000_00000000_0000_0111#32 = .ok .checkAck := by decide
theorem test_decode_execute :
    decode 0b0000000001100100_00000001_0000_1000#32 = .ok (.execute 1 100) := by decide
theorem test_decode_getFw :
    decode 0b0001001000110100_01010110_0000_1001#32 = .ok .getFw := by decide
/-- The rows of §2.9 that select no operation. -/
theorem test_decode_refuses :
    decode 0x00000000#32 = .error (.reservedOpcode 0) ∧ decode 0x0000000A#32 = .error (.reservedOpcode 0xA) ∧
    decode 0x0000000F#32 = .error (.reservedOpcode 0xF) ∧ decode 0x00000010#32 = .error (.reservedField 1) ∧
    decode 0x00000019#32 = .error (.reservedField 1) ∧ decode 0x000000F1#32 = .error (.reservedField 0xF) := by decide
theorem test_decodeTableWord :
    decodeTableWord 32 0x00000C05 = some (.readData 12) ∧ decodeTableWord 32 0 = none ∧
    decodeTableWord 8 0x00000009 = some .getFw := by decide

/-! ### Small states -/

/-- A scripted peer that answers these wire bytes and then 00 (95_test_vectors.md's convention). -/
def scripted (answers : List Byte) : State := { State.reset with peer := ⟨answers, some 0x00⟩ }

/-- CMD_BUF[0..] holds these bytes. -/
def withCommand (bytes : List Byte) (s : State) : State :=
  { s with mem := (bytes.zipIdx).map fun c => (cmdOffset c.2, c.1) }

/-- RESULT, STATUS and the number of events after one step that runs the word. -/
def outcome (w : Nat) (s : State) : Option (Word × Word × Nat) :=
  match step (s.withFetchWord 32 w) with
  | .next t => some (t.result, statusWord t, t.trace.length)
  | _ => none

/-- The trace after one step that runs the word. -/
def traceOf (w : Nat) (s : State) : Option (List Event) :=
  match step (s.withFetchWord 32 w) with
  | .next t => some t.trace
  | _ => none

/-- RSP_BUF[0..n-1] after one step that runs the word. -/
def responseOf (n w : Nat) (s : State) : Option (List (Option Byte)) :=
  match step (s.withFetchWord 32 w) with
  | .next t => some ((List.range n).map fun i => t.byteAt (rspOffset i))
  | _ => none

/-- An operation that has just been accepted (V10-9's "BUSY = 1"). -/
def busyState : State := accept 0x00000104 (withCommand [0x02] State.reset)

/-- A host about to run these lines. -/
def hostState (prog : List HostStmt) (s : State) : State := { s with host := ⟨prog, 0, []⟩ }

/-! ### Operations -/

/-- V1-1. -/
theorem test_bitrev : outcome 0x0000B101 (scripted []) = some (0x0000008D, 0x00000002, 0) := by decide
/-- V1-5: the BUDGET field is ignored. -/
theorem test_bitrev_unused_field : outcome 0x00FF0101 (scripted []) = some (0x00000080, 0x00000002, 0) := by decide
/-- V2-1. -/
theorem test_xferWr : traceOf 0x00000202 (scripted [0x33]) = some [.xfer 0x40 0x33] := by decide
/-- V2-5: bit 0 is the first on the wire. -/
theorem test_xferRd : outcome 0x00000003 (scripted [0x01]) = some (0x00000080, 0x00000002, 1) := by decide
/-- V2-6: fields 31:8 are ignored, and the placeholder goes out as it stands. -/
theorem test_xferRd_unused_fields : traceOf 0xFFFF0003 (scripted [0xFF]) = some [.xfer 0x00 0xFF] := by decide
/-- V3-2: wire bytes 80 00 00 FF 20 3F 80 52 80 00 2D 00. -/
theorem test_writeCmd :
    traceOf 0x00000304 (withCommand [0x4A, 0x01, 0x00] (scripted [])) =
      some ([.csOn, .delay, .xfer 0x80 0, .xfer 0x00 0, .xfer 0x00 0, .xfer 0xFF 0, .xfer 0x20 0, .xfer 0x3F 0,
        .xfer 0x80 0] ++ [.xfer 0x52 0, .xfer 0x80 0, .xfer 0x00 0, .xfer 0x2D 0, .xfer 0x00 0, .delay, .csOff]) := by
  decide
/-- V3-9: n = 255. -/
theorem test_writeCmd_argErr : outcome 0x0000FF04 (scripted []) = some (0, 0x00000042, 0) := by decide
/-- V4-1. -/
theorem test_readData :
    responseOf 5 0x00000405 (scripted [0x00, 0x00, 0x00, 0xFF, 0xC0]) =
      some [some 0x00, some 0x00, some 0xFF, some 0x03, none] := by decide
/-- V4-3: n = 0. -/
theorem test_readData_argErr : outcome 0x00000005 (scripted []) = some (0, 0x00000042, 0) := by decide
/-- V5-1. -/
theorem test_waitReady : outcome 0x00030006 (scripted [0x00, 0x00, 0x00, 0x80]) = some (1, 0x00020002, 13) := by decide
/-- V5-4: wire 01 is logical 80, not ready. -/
theorem test_waitReady_timeout : outcome 0x00010006 (scripted [0x00, 0x01]) = some (0, 0x00010012, 7) := by decide
/-- V6-2: the byte answered to the indicator is discarded. -/
theorem test_checkAck :
    outcome 0x00000007 (scripted [0x5A, 0x00, 0x00, 0xFF, 0x00, 0xFF, 0x00]) = some (1, 0x00000002, 11) := by decide
/-- R195, R47: the six logical bytes are held for the comparison, and none is kept once the operation has completed. -/
theorem test_checkAck_keeps_no_copy :
    (ackCheck (scripted [0x00, 0x00, 0x00, 0xFF, 0x00, 0xFF, 0x80])).2.seq.ack.toList =
      [0x00, 0x00, 0xFF, 0x00, 0xFF, 0x01] ∧
    (match exec .checkAck (scripted [0x00, 0x00, 0x00, 0xFF, 0x00, 0xFF, 0x80]) with
      | .next t => t.seq.ack == noAck
      | _ => false) = true := by decide
/-- V6-8: a deviation in the last byte. -/
theorem test_checkAck_nack :
    outcome 0x00000007 (scripted [0x00, 0x00, 0x00, 0xFF, 0x00, 0xFF, 0x01]) = some (0, 0x00000022, 11) := by decide

/-- Ten bytes answered to a frame of one command byte, then "ready". -/
def frameThenReady : List Byte := List.replicate 11 0x00 ++ [0x80]

/-- V7-1. -/
theorem test_execute :
    outcome 0x00640108 (withCommand [0x02]
      (scripted (frameThenReady ++ [0x00, 0x00, 0x00, 0xFF, 0x00, 0xFF, 0x00] ++ [0x00, 0x80]))) =
      some (1, 0x00020002, 37) := by decide
/-- V7-3: TIMEOUT at stage 4. -/
theorem test_execute_timeout4 :
    outcome 0x00020108 (withCommand [0x02]
      (scripted (frameThenReady ++ [0x00, 0x00, 0x00, 0xFF, 0x00, 0xFF, 0x00]))) = some (0, 0x00030412, 45) := by decide
/-- V8-4: the first four logical bytes are 32 01 06 07. -/
theorem test_getFw :
    outcome 0x00000009 (scripted (frameThenReady ++ [0x00, 0x00, 0x00, 0xFF, 0x00, 0xFF, 0x00] ++ [0x00, 0x80] ++
      [0x00, 0x4C, 0x80, 0x60, 0xE0])) = some (0x32010607, 0x00020002, 54) := by decide
/-- V8-3 (W8): the acknowledgment is corrupted, and no response is read. -/
theorem test_getFw_nack :
    outcome 0x00000009 (scripted (frameThenReady ++ [0x00, 0x00, 0x00, 0xFF, 0x00, 0xFF, 0x01])) =
      some (0, 0x00010322, 31) := by decide
/-- R39, R220: after Dispatch and the length check an EXECUTE 1 shows stage 1 for the 15 statements of its frame write (12
transfers, each command byte's index set first, and the four others), then stage 2. -/
theorem test_execute_stages :
    (seqRun 3 (accept 0x00640108 (withCommand [0x02] State.reset))).status.stage = .frameWrite ∧
    (seqRun 18 (accept 0x00640108 (withCommand [0x02] State.reset))).status.stage = .frameWrite ∧
    (seqRun 19 (accept 0x00640108 (withCommand [0x02] State.reset))).status.stage = .poll1 := by decide
/-- §2.9: a reserved operation code completes with ILLEGAL_OP and no event. -/
theorem test_illegalOp : outcome 0x0000000A (scripted []) = some (0, 0x00000032, 0) := by decide

/-! ### The host window (§2.10) -/

/-- V10-1. -/
theorem test_store_word :
    (hostWrite 4 0x100 0x0000014A State.reset).map (·.mem) =
      some [(0x100, 0x4A), (0x101, 0x01), (0x102, 0x00), (0x103, 0x00)] := by decide
/-- V10-2, V10-3. -/
theorem test_load_parts :
    (hostRead 1 0x101 (withCommand [0x4A, 0x01, 0x00, 0x00] State.reset)).map (·.1) = some 0x01 ∧
    (hostRead 2 0x100 (withCommand [0x4A, 0x01, 0x00, 0x00] State.reset)).map (·.1) = some 0x014A := by decide
/-- V10-4 to V10-8: accesses the window does not permit. -/
theorem test_forbidden :
    hostRead 4 0x102 busyState = none ∧ hostWrite 1 0x200 1 busyState = none ∧ hostRead 4 0x000 busyState = none ∧
    hostWrite 1 0x004 4 busyState = none ∧ hostRead 4 0x00C busyState = none := by decide
/-- V10-9, V10-10: dropped writes set OVR and nothing else. -/
theorem test_dropped :
    hostWrite 4 0x000 0x101 busyState = some (setOvr busyState) ∧
    hostWrite 1 0x100 0x55 busyState = some (setOvr busyState) := by decide
/-- V10-11. -/
theorem test_clear_ovr : hostWrite 4 0x004 0x00000004 (setOvr State.reset) = some State.reset := by decide
/-- R255: a host line with a forbidden access is a fault of the host program. -/
theorem test_host_fault :
    (match step (hostState [.load 4 0x000 0] State.reset) with
      | .fault f => f == .hostAccess 0x000 4 false
      | _ => false) = true := by decide
/-- R291: reset between two steps aborts the operation. -/
theorem test_reset_aborts :
    (match step { busyState with sched := [.reset], cs := true, trace := [.csOn] } with
      | .next t => statusWord t == 0 && !t.cs && t.trace.isEmpty && t.mem.isEmpty
      | _ => false) = true := by decide
/-- R40: POLLS saturates. -/
theorem test_polls_saturate :
    statusWord { State.reset with seq := { SeqState.reset with polls := 0x00010001 } } = 0xFFFF0000 := by decide
/-- R33, R71: RESULT read while idle. -/
theorem test_read_result : (hostRead 4 0x008 { State.reset with result := 0x0000008D }).map (·.1) = some 0x8D := by decide
/-- R110, R15: a difference below 0 wraps, and a slice is an unsigned number. -/
theorem test_host_expressions :
    evalHost [] (.sub (.const 0) (.const 1)) = 0xFFFFFFFF ∧
    evalHost [(0, 0x00030412)] (.slice (.name 0) 10 8) = 4 ∧
    evalHost [] (.compare .lt (.const 1) (.const 0x80000000)) = 1 := by decide
/-- R109, log entry 25: the assembler refuses a length out of range, and `issue` cuts it to its field. -/
theorem test_issue_out_of_range :
    assemble (.writeCmd 257) = none ∧ issue (.writeCmd 257) = [.store 4 0x000 (.const 0x00000104)] := by decide
/-- From reset with nothing placed, a step leaves the state as it is: the host has no program (log entry 2). -/
theorem test_reset_idles : step State.reset = .next State.reset := rfl

/-! ### Witnesses: the hypotheses of each statement are met together -/

theorem witness_DecodeOfEncodeIsTheOperation :
    (Instr.execute 255 65535).wf = true ∧ (Instr.writeCmd 0).wf = true ∧ (Instr.waitReady 0).wf = true := by decide

theorem witness_OperandsComeFromTheWord :
    ∀ k ∈ [1, 2, 3, 4, 5, 6, 7, 8, 9],
      (BitVec.ofNat 32 (0xFFFFFF00 + k)).toNat / 16 % 16 = 0 ∧ (BitVec.ofNat 32 (0xFFFFFF00 + k)).toNat % 16 = k := by
  decide

theorem witness_UnusedFieldsAreIgnored :
    (decode 0x00000009#32 = .ok .getFw ∧ (0x00000009#32).toNat % 256 = (0x12345609#32).toNat % 256) ∧
    (decode 0x0000B101#32 = .ok (.bitrev 0xB1) ∧ (0x0000B101#32).toNat % 256 = (0xFFFFB101#32).toNat % 256 ∧
      (0x0000B101#32).toNat / 256 % 256 = (0xFFFFB101#32).toNat / 256 % 256) ∧
    (decode 0x00030006#32 = .ok (.waitReady 3) ∧ (0x00030006#32).toNat % 256 = (0x0003FF06#32).toNat % 256 ∧
      (0x00030006#32).toNat / 65536 = (0x0003FF06#32).toNat / 65536) := by decide

theorem witness_ReservedWordsCompleteWithIllegalOp :
    (0x00000000#32).toNat % 16 = 0 ∧ 10 ≤ (0x0000000A#32).toNat % 16 ∧ 10 ≤ (0x0000000F#32).toNat % 16 ∧
    (0x00000019#32).toNat / 16 % 16 ≠ 0 ∧ (0x000000F1#32).toNat / 16 % 16 ≠ 0 := by decide

theorem witness_StepRunsTheDecodedOperation :
    busyState.seq.phase = .running [.dispatch] ∧ decode busyState.seq.opw = .ok (.writeCmd 1) ∧
    { busyState with sched := [.operation, .host] }.sched = .operation :: [.host] ∧ busyState.sched = [] ∧
    decode (BitVec.ofNat 32 0x104) = .ok (.writeCmd 1) := by decide

theorem witness_StepTakesTheScheduledTurn :
    State.reset.seq.phase ≠ .running [.dispatch] ∧ (seqStep busyState).seq.phase ≠ .running [.dispatch] := by decide

theorem witness_EveryOperationCompletes : busyState.cs = false := rfl

theorem witness_SequencerStepsRefineExec :
    busyState.seq.phase = .running [.dispatch] ∧ decode busyState.seq.opw = .ok (.writeCmd 1) := by decide

theorem witness_ByteTransport :
    (scripted [0x33]).peer.script = [0x33] ∧
    ((scripted []).peer.script = [] ∧ (scripted []).peer.rest = some 0x00) ∧ State.reset.peer.script = [] ∧ State.reset.peer.rest = none := by decide

theorem witness_WriteCmdSendsTheCommandFrame :
    (1 ≤ 1 ∧ 1 ≤ 254) ∧ (1 ≤ 254 ∧ 254 ≤ 254) ∧ SourceWritten (withCommand [0x02] State.reset) .cmdBuf 1 :=
  ⟨by decide, by decide, fun i h => by obtain rfl : i = 0 := by omega
                                       rfl⟩

theorem witness_CommandFrameLayoutAndChecksums :
    (1 ≤ [0xFF#8].length ∧ [0xFF#8].length ≤ 254) ∧
    (1 ≤ (List.replicate 254 0xFF#8).length ∧ (List.replicate 254 0xFF#8).length ≤ 254) := by
  rw [List.length_replicate]
  decide

theorem witness_ReadDataStoresTheResponse : (1 ≤ 1 ∧ 1 ≤ 255) ∧ (1 ≤ 255 ∧ 255 ≤ 255) := by decide

theorem witness_ArgErrExactlyForIllegalLengths :
    (¬(1 ≤ 0 ∧ 0 ≤ 254) ∧ ¬(1 ≤ 255 ∧ 255 ≤ 254)) ∧ (¬(1 ≤ 0 ∧ 0 ≤ 255) ∧ ¬(1 ≤ 256 ∧ 256 ≤ 255)) ∧
    ∃ t, exec (.writeCmd 255) (accept 0xFF04 State.reset) = .next t ∧ t.status.code = .argErr :=
  ⟨by decide, by decide, _, rfl, by decide⟩

theorem witness_WaitReadyOutcome : 0 < 65536 ∧ 65535 < 65536 := by decide

theorem witness_BudgetZeroPollsNothing : (1 ≤ 1 ∧ 1 ≤ 254) ∧ (1 ≤ 254 ∧ 254 ≤ 254) := by decide

theorem witness_NeverReadyPeerTimesOut :
    65535 < 65536 ∧ (scripted []).peer = ⟨[], some 0x00⟩ ∧ rev8 0x00 ≠ (scripted []).params.ready := by decide

theorem witness_ScriptedPeerReadyWithinBudget :
    3 < 65536 ∧ (scripted [0x00, 0x00, 0x00, 0x80]).peer.script = pollAnswers [(0x00, 0x00)] ++ [0x00, 0x80] ++ [] ∧
    AllMiss Params.reference [(0x00, 0x00)] ∧ rev8 0x80 = Params.reference.ready ∧
    [((0x00 : Byte), (0x00 : Byte))].length < 3 :=
  ⟨by decide, by decide, by intro x hx; obtain rfl := List.mem_singleton.1 hx; decide, by decide, by decide⟩

theorem witness_ExecuteOutcome :
    (1 ≤ 1 ∧ 1 ≤ 254 ∧ 0 < 65536) ∧ (1 ≤ 254 ∧ 254 ≤ 254 ∧ 65535 < 65536) := by decide

theorem witness_ScriptedExchangeSucceeds :
    1 ≤ 1 ∧ 1 ≤ 254 ∧ (List.replicate 10 (0x00 : Byte)).length = 1 + 9 ∧ rev8 0x80 = Params.reference.ready ∧
    (scripted (frameThenReady ++ [0x00, 0x00, 0x00, 0xFF, 0x00, 0xFF, 0x00] ++ [0x00, 0x80])).peer.script =
      List.replicate 10 0x00 ++ [0x00, 0x80] ++ (0x00 :: ackBytes) ++ [0x00, 0x80] ++ [] := by decide

/-- A peer that answers 00 and a chip whose `P_FW_BUDGET` is 0 (V8-7). -/
def noBudget : State := { scripted [] with params := { Params.reference with fwBudget := 0 } }

/-- Both clauses of the statement of GET_FW are reached. -/
theorem witness_GetFwOutcome :
    (∃ t, exec .getFw (accept 9 noBudget) = .next t ∧ t.status.code ≠ .ok) ∧
    (match exec .getFw (accept 9 (scripted (frameThenReady ++ [0x00, 0x00, 0x00, 0xFF, 0x00, 0xFF, 0x00] ++
      [0x00, 0x80]))) with
      | .next t => t.status.code == .ok
      | _ => false) = true :=
  ⟨⟨_, rfl, by decide⟩, by decide⟩

/-- An operation of each kind gives a next state: what the statements about `exec` giving one start from. -/
theorem witness_exec :
    (∃ t, exec (.bitrev 0xB1) State.reset = .next t) ∧ (∃ t, exec (.xferWr 0x02) State.reset = .next t) ∧
    (∃ t, exec .xferRd State.reset = .next t) ∧ (∃ t, exec (.writeCmd 1) State.reset = .next t) ∧
    (∃ t, exec (.readData 255) State.reset = .next t) ∧ (∃ t, exec (.waitReady 1) State.reset = .next t) ∧
    (∃ t, exec .checkAck State.reset = .next t) ∧ (∃ t, exec (.execute 1 1) State.reset = .next t) ∧
    ∃ t, exec .getFw State.reset = .next t :=
  ⟨⟨_, rfl⟩, ⟨_, rfl⟩, ⟨_, rfl⟩, ⟨_, rfl⟩, ⟨_, rfl⟩, ⟨_, rfl⟩, ⟨_, rfl⟩, ⟨_, rfl⟩, ⟨_, rfl⟩⟩

/-- For OperationsWriteOnlyTheResponse and OperationsLeaveOtherRegisters: also a GET_FW that does not end with OK. -/
theorem witness_OperationsWriteOnlyTheResponse :
    ∃ t, exec .getFw noBudget = .next t ∧ t.status.code ≠ .ok := ⟨_, rfl, by decide⟩

theorem witness_StageEndsAtZeroOutsideFailedExchanges :
    (∃ t, exec (.execute 1 0) (scripted []) = .next t ∧ t.status.stage ≠ .none) ∧
    ∃ t, exec .getFw noBudget = .next t ∧ t.status.stage ≠ .none :=
  ⟨⟨_, rfl, by decide⟩, ⟨_, rfl, by decide⟩⟩

theorem witness_WritesWhileBusyAreDropped :
    busyState.status.busy = true ∧ (0x000 = 0x000 ∧ 4 = 4) ∧
    (0x100 ≤ 0x1FF ∧ 0x1FF < 0x200 ∧ (1 = 1 ∨ 1 = 2 ∨ 1 = 4) ∧ 0x1FF % 1 = 0) ∧
    (0x100 ≤ 0x100 ∧ 0x100 < 0x200 ∧ (4 = 1 ∨ 4 = 2 ∨ 4 = 4) ∧ 0x100 % 4 = 0) := by decide

theorem witness_HostAccessesAreThoseOfTheWindowMap :
    (hostState [.load 4 0x000 0] State.reset).host.prog[0]? = some (.load 4 0x000 0) ∧
    (hostState [.load 4 0x2FC 0] State.reset).host.prog[0]? = some (.load 4 0x2FC 0) ∧
    (hostState [.store 1 0x200 (.const 1)] State.reset).host.prog[0]? = some (.store 1 0x200 (.const 1)) ∧
    (hostState [.store 1 0x1FF (.const 1)] State.reset).host.prog[0]? = some (.store 1 0x1FF (.const 1)) := by decide

/-- One step for each clause: an acceptance, a Finish, a dropped write, and a write of 1 to STATUS bit 2. -/
theorem witness_BusyOvrAndWordChangeOnlyAsStated :
    (match step (hostState [.store 4 0x000 (.const 0x101)] State.reset) with
      | .next t => t.status.busy && t.seq.opw == 0x101 | _ => false) = true ∧
    (match step { accept 0x0 State.reset with sched := [.sequencer] } with
      | .next t => !t.status.busy | _ => false) = true ∧
    (match step { hostState [.store 1 0x100 (.const 1)] busyState with sched := [.host] } with
      | .next t => t.status.ovr | _ => false) = true ∧
    (match step (hostState [.store 4 0x004 (.const 4)] (setOvr State.reset)) with
      | .next t => !t.status.ovr | _ => false) = true := by decide

theorem witness_CommandBufferWritesAreLittleEndian :
    State.reset.status.busy = false ∧ (0x100 ≤ 0x1FC ∧ 0x1FC < 0x200 ∧ 0x1FC % 4 = 0) ∧
    (0x100 ≤ 0x1FF ∧ 0x1FF < 0x200 ∧ 0x1FF % 1 = 0) := by decide

theorem witness_BufferReadsAreLittleEndian :
    (0x100 ≤ 0x100 ∧ 0x100 < 0x300 ∧ 0x100 % [(0x4A : Byte), 0x01].length = 0 ∧ 0x100 < 0x200 ∧
      ∀ k (h : k < [(0x4A : Byte), 0x01].length),
        (withCommand [0x4A, 0x01] busyState).byteAt (0x100 + k) = some [(0x4A : Byte), 0x01][k]) ∧
    (0x100 ≤ 0x2FF ∧ 0x2FF < 0x300 ∧ 0x2FF % [(0x07 : Byte)].length = 0 ∧ State.reset.status.busy = false ∧
      ∀ k (h : k < [(0x07 : Byte)].length),
        { State.reset with mem := [(0x2FF, 0x07)] }.byteAt (0x2FF + k) = some [(0x07 : Byte)][k]) := by
  refine ⟨⟨by decide, by decide, by decide, by decide, ?_⟩, by decide, by decide, by decide, by decide, ?_⟩
  · intro k h
    match k, h with
    | 0, _ => rfl
    | 1, _ => rfl
  · intro k h
    match k, h with
    | 0, _ => rfl

theorem witness_StoreThenLoadReturnsTheValue :
    State.reset.status.busy = false ∧ 0x100 ≤ 0x100 ∧ 0x100 < 0x200 ∧
    ∃ t, hostWrite 4 0x100 0x0000014A State.reset = some t := ⟨rfl, by decide, by decide, _, rfl⟩

theorem witness_ReadsHaveNoSideEffects :
    (∃ v t, hostRead 4 0x004 busyState = some (v, t)) ∧
    (∃ v t, hostRead 4 0x008 State.reset = some (v, t) ∧ State.reset.status.busy = false) ∧
    ∃ v t, hostRead 1 0x2FF State.reset = some (v, t) :=
  ⟨⟨_, _, rfl⟩, ⟨_, _, rfl, rfl⟩, ⟨_, _, rfl⟩⟩

theorem witness_ReadsWhileBusy :
    busyState.status.busy = true ∧ (0x200 ≤ 0x200 ∧ 0x200 < 0x300) ∧ (0x200 ≤ 0x2FF ∧ 0x2FF < 0x300) ∧
    (4 = 4 ∧ 0x200 % 4 = 0) ∧ (1 = 1 ∧ 0x2FF % 1 = 0) ∧
    (0x100 ≤ 0x100 ∧ 0x100 < 0x200) ∧ (0x100 ≤ 0x1FF ∧ 0x1FF < 0x200) := by decide

theorem witness_UnwrittenBytesAreDraws :
    State.reset.byteAt 0x100 = none ∧ (withCommand [0x02] State.reset).byteAt 0x100 = some 0x02 := by decide

theorem witness_HostLinesLeaveARunningOperationAlone :
    (hostState [.load 4 0x008 0] busyState).status.busy = true ∧
    ∃ t, hostStep (hostState [.load 4 0x008 0] busyState) = .next t := ⟨rfl, _, rfl⟩

theorem witness_CompletionIsAtomic :
    (accept 0x0 State.reset).status.busy = true ∧ (seqStep (accept 0x0 State.reset)).status.busy = false ∧
    Inv (accept 0x0 State.reset) :=
  ⟨by decide, by decide, by decide, by decide, by intro rest h; cases h; decide, by decide, by decide, by decide, by decide⟩

theorem witness_ResetInputAbortsAtOnce : { busyState with sched := [.reset, .host] }.sched = .reset :: [.host] := rfl

/-- A state in the middle of an operation that meets both invariants, and a step from it. -/
theorem witness_EveryStepKeepsInv : Inv busyState ∧ StageConfined busyState ∧ ∃ t, step busyState = .next t :=
  ⟨⟨by decide, by decide, by intro rest h; cases h; decide, by decide, by decide, by decide, by decide⟩,
    fun _ => ⟨rfl, by intro rest h; cases h; decide⟩, _, rfl⟩

/-- An EXECUTE 1, 100 two sequencer steps after its length check: the frame write has begun (R220). -/
def executingState : State := seqRun 4 (accept 0x00640108 (withCommand [0x02] State.reset))

/-- An exchange in progress that meets the stage invariant, showing stage 1 with chip-select asserted, and a step from it. -/
theorem witness_EveryStepKeepsStageConfined :
    isExchangeWord executingState.seq.opw = true ∧ executingState.seq.phase ≠ .idle ∧ StageShown executingState ∧
    executingState.status.stage = .frameWrite ∧ executingState.cs = true ∧
    ∃ t, step { executingState with sched := [.sequencer] } = .next t :=
  ⟨by decide, by decide, by intro _ rest h; cases h; decide, by decide, by decide, _, rfl⟩

/-- For TraceOnlyGrows and ParametersNeverChange: a step that is no reset and one that is. -/
theorem witness_step :
    (∃ t, step busyState = .next t) ∧ ∃ t, step { busyState with sched := [.reset] } = .next t :=
  ⟨⟨_, rfl⟩, _, rfl⟩

theorem witness_EventCountsPerOperation :
    decode 0x0000000A#32 = .error (.reservedOpcode 0xA) ∧
    (Instr.execute 254 2).wf = true ∧ ∃ t, exec (.execute 254 2) (accept 0x2FE08 State.reset) = .next t :=
  ⟨by decide, by decide, _, rfl⟩

theorem witness_ExchangesAreBounded : (0 < 256 ∧ 0 < 65536) ∧ (255 < 256 ∧ 65535 < 65536) := by decide

theorem witness_HostLines :
    (hostState [.store 4 0x100 (.const 7)] State.reset).host.prog[0]? = some (.store 4 0x100 (.const 7)) ∧
    (∃ t, hostWrite 4 0x100 7 (hostState [.store 4 0x100 (.const 7)] State.reset) = some t) ∧
    (hostState [.load 4 0x004 0] State.reset).host.prog[0]? = some (.load 4 0x004 0) ∧
    (∃ v t, hostRead 4 0x004 (hostState [.load 4 0x004 0] State.reset) = some (v, t)) ∧
    (hostState [.assign 0 (.const 7)] State.reset).host.prog[0]? = some (.assign 0 (.const 7)) ∧
    (hostState [.branch (.const 1) 0] State.reset).host.prog[0]? = some (.branch (.const 1) 0) ∧
    assocGet [(2, (7 : Word))] 2 = some 7 ∧ assocGet [(2, (7 : Word))] 3 = none ∧
    (0 ≤ 31 ∧ 31 < 32) ∧ (31 ≤ 31 ∧ 31 < 32) ∧ (0 < 1 ∨ 32 ≤ 0) ∧ (32 < 0 ∨ 32 ≤ 32) :=
  ⟨by decide, ⟨_, rfl⟩, by decide, ⟨_, _, rfl⟩, by decide, by decide, by decide, by decide, by decide, by decide, by decide, by decide⟩

theorem witness_WaitIdleEndsWithStatusWhenIdle :
    (hostState (waitIdle 0 3) State.reset).host.prog = [] ++ waitIdle 0 3 ++ [] ∧
    (hostState (waitIdle 0 3) State.reset).host.pos = 0 := by decide

end Sys2Proof.Tests
end

section
/-! PROOF. An operation run whole: the states it can end in, said once, and what every completed operation leaves. -/

namespace Sys2Proof.Machine

/-! ### An operation run whole -/

/-- The buffers `m` after a response of `n` bytes was read in state `s` (R49, R163): only RSP_BUF[0..n-1] can differ, and
the canonical form is kept. -/
structure WritesResponse (n : Nat) (s : State) (m : List Host.Cell) : Prop where
  outside : ∀ a, (a < rspOffset 0 ∨ rspOffset n ≤ a) → assocGet m a = s.byteAt a
  canonical : Memory.wf s.mem = true → Memory.wf m = true

/-- The states an operation run whole can end in, one constructor for each way a rule ends it, with the fields that rule
writes left open. -/
inductive ExecEnds (s : State) : Instr → State → Prop where
  | bitrev (v : Byte) (r : Word) : ExecEnds s (.bitrev v) (finish .ok .none { s with result := r })
  | xferWr (v : Byte) (evs : List Event) (p : PeerAgent) :
      ExecEnds s (.xferWr v) (finish .ok .none { s with trace := s.trace ++ evs, peer := p })
  | xferRd (evs : List Event) (p : PeerAgent) (r : Word) :
      ExecEnds s .xferRd (finish .ok .none { s with trace := s.trace ++ evs, peer := p, result := r })
  | writeCmdRefused (n : Nat) : ExecEnds s (.writeCmd n) (finish .argErr .none s)
  | writeCmd (n : Nat) (evs : List Event) (p : PeerAgent) (d : Nat) (acc : Byte) (ix : Half) :
      ExecEnds s (.writeCmd n) (finish .ok .none
        { s with
          trace := s.trace ++ evs, cs := false, peer := p, draws := d, seq := { s.seq with acc := acc, idx := ix } })
  | readDataRefused (n : Nat) : ExecEnds s (.readData n) (finish .argErr .none s)
  | readData (n : Nat) (evs : List Event) (p : PeerAgent) (m : List Host.Cell) (ix : Half)
      (hm : WritesResponse n s m) :
      ExecEnds s (.readData n) (finish .ok .none
        { s with trace := s.trace ++ evs, cs := false, peer := p, mem := m, seq := { s.seq with idx := ix } })
  | waitReady (b : Nat) (code : Code) (evs : List Event) (cs : Bool) (p : PeerAgent) (cnt : Half) (st : Byte)
      (polls : Word) (r : Word) (hcode : code = .ok ∨ code = .timeout) (hcs : s.cs = false → cs = false) :
      ExecEnds s (.waitReady b) (finish code .none
        { s with
          trace := s.trace ++ evs, cs := cs, peer := p, result := r
          seq := { s.seq with cnt := cnt, st := st, polls := polls } })
  | checkAck (code : Code) (evs : List Event) (p : PeerAgent) (ack : Vector Byte 6) (r : Word)
      (hcode : code = .ok ∨ code = .nack) :
      ExecEnds s .checkAck (finish code .none
        { s with trace := s.trace ++ evs, cs := false, peer := p, result := r, seq := { s.seq with ack := ack } })
  | executeRefused (n b : Nat) : ExecEnds s (.execute n b) (finish .argErr .none s)
  | execute (n b : Nat) (code : Code) (stage k : Stage) (evs : List Event) (p : PeerAgent) (d : Nat) (q : SeqState)
      (r : Word) (hend : legalEnding code stage = true) (hopw : q.opw = s.seq.opw) :
      ExecEnds s (.execute n b) (finish code stage
        { s with
          status := { s.status with stage := k }
          trace := s.trace ++ evs, cs := false, peer := p, draws := d, result := r, seq := q })
  | getFwFailed (code : Code) (stage k : Stage) (evs : List Event) (p : PeerAgent) (q : SeqState) (r : Word)
      (hend : legalEnding code stage = true) (hcode : code ≠ .ok) (hopw : q.opw = s.seq.opw) :
      ExecEnds s .getFw (finish code stage
        { s with
          status := { s.status with stage := k }
          trace := s.trace ++ evs, cs := false, peer := p, result := r, seq := q })
  | getFw (k : Stage) (evs : List Event) (p : PeerAgent) (m : List Host.Cell) (q : SeqState) (r : Word)
      (hm : WritesResponse 12 s m) (hopw : q.opw = s.seq.opw) :
      ExecEnds s .getFw (finish .ok .none
        { s with
          status := { s.status with stage := k }
          trace := s.trace ++ evs, cs := false, peer := p, mem := m, result := r, seq := q })

/-- A legal length is at most the operation's maximum (R108). -/
theorem lengthLegal_le {n max : Nat} (h : lengthLegal n max = true) : n ≤ max := by
  simp only [lengthLegal, Bool.and_eq_true, decide_eq_true_eq] at h
  exact h.2

theorem execBitrev_ends (v : Byte) (s : State) : ∃ t, exec (.bitrev v) s = .next t ∧ ExecEnds s (.bitrev v) t :=
  ⟨_, rfl, .bitrev v _⟩

theorem execXferWr_ends (v : Byte) (s : State) : ∃ t, exec (.xferWr v) s = .next t ∧ ExecEnds s (.xferWr v) t :=
  ⟨_, rfl, .xferWr v [_] _⟩

theorem execXferRd_ends (s : State) : ∃ t, exec .xferRd s = .next t ∧ ExecEnds s .xferRd t :=
  ⟨_, rfl, .xferRd [_] _ _⟩

theorem execWriteCmd_ends (n : Nat) (s : State) :
    ∃ t, exec (.writeCmd n) s = .next t ∧ ExecEnds s (.writeCmd n) t := by
  refine ⟨_, rfl, ?_⟩
  split
  · rename_i hn
    have hle := lengthLegal_le hn
    obtain ⟨cmd, answers, d, ix, -, -, -, -, -, -, e⟩ :=
      writeFrame_spec .cmdBuf n (Nat.le_trans hle (by decide)) s
    rw [e]
    exact .writeCmd n _ _ d _ ix
  · exact .writeCmdRefused n

theorem execReadData_ends (n : Nat) (s : State) :
    ∃ t, exec (.readData n) s = .next t ∧ ExecEnds s (.readData n) t := by
  refine ⟨_, rfl, ?_⟩
  split
  · rename_i hn
    have hle : n ≤ 255 := lengthLegal_le hn
    obtain ⟨answers, m, ix, -, -, -, hout, hwf, -, e⟩ := readFrame_spec n (Nat.le_trans hle (by decide)) s
    rw [e]
    exact .readData n _ _ m ix ⟨hout, hwf (Nat.le_trans hle (by decide))⟩
  · exact .readDataRefused n

theorem execWaitReady_ends (b : Nat) (s : State) :
    ∃ t, exec (.waitReady b) s = .next t ∧ ExecEnds s (.waitReady b) t := by
  obtain ⟨xs, hit, -, -, -, e⟩ := pollReady_spec (BitVec.ofNat 16 b) s
  have hcs : s.cs = false → (if pollCount xs hit = 0 then s.cs else false) = false := by
    intro h
    simp [h]
  refine ⟨_, rfl, ?_⟩
  rw [e]
  split
  · exact .waitReady b .ok _ _ _ _ _ _ _ (.inl rfl) hcs
  · exact .waitReady b .timeout _ _ _ _ _ _ _ (.inr rfl) hcs

theorem execCheckAck_ends (s : State) : ∃ t, exec .checkAck s = .next t ∧ ExecEnds s .checkAck t := by
  obtain ⟨answers, -, -, -, e⟩ := ackCheck_spec s
  refine ⟨_, rfl, ?_⟩
  rw [e]
  split
  · exact .checkAck .ok _ _ _ _ (.inl rfl)
  · exact .checkAck .nack _ _ _ _ (.inr rfl)

/-- The code and stage an exchange returns are a pair a Finish may write (R39, R250). -/
theorem ExchangeOutcome.legal {p : Params} {b : Nat} {st : Byte} {e : ExchangeEnd} (h : ExchangeOutcome p b st e) :
    legalEnding e.code e.stage = true := by
  cases h <;> rfl

theorem execExecute_ends (n b : Nat) (s : State) :
    ∃ t, exec (.execute n b) s = .next t ∧ ExecEnds s (.execute n b) t := by
  refine ⟨_, rfl, ?_⟩
  split
  · rename_i hn
    have hle := lengthLegal_le hn
    obtain ⟨cmd, fa, e, d, k, ix, -, -, -, -, -, ho, -, hc, hk, he⟩ :=
      exchange_spec .cmdBuf n (Nat.le_trans hle (by decide)) (BitVec.ofNat 16 b) s
    simp only [executeExchange]
    rw [he, hc, hk, List.append_assoc]
    exact .execute n b _ _ k _ _ d _ _ ho.legal rfl
  · exact .executeRefused n b

/-- RESULT packed from four response bytes that have been written (R225): nothing else changes. -/
theorem packFirmware_written {s : State} (h : ∀ i < 4, ∃ b, s.byteAt (rspOffset i) = some b) :
    ∃ r, packFirmware s = { s with result := r } := by
  obtain ⟨b0, h0⟩ := h 0 (by decide)
  obtain ⟨b1, h1⟩ := h 1 (by decide)
  obtain ⟨b2, h2⟩ := h 2 (by decide)
  obtain ⟨b3, h3⟩ := h 3 (by decide)
  exact ⟨firmwareValue b0 b1 b2 b3, by
    simp [packFirmware, readByteAt_written h0, readByteAt_written h1, readByteAt_written h2, readByteAt_written h3]⟩

theorem execGetFw_ends (s : State) : ∃ t, exec .getFw s = .next t ∧ ExecEnds s .getFw t := by
  obtain ⟨cmd, fa, e, d, k, ix, -, -, -, -, hd, ho, -, hc, hk, he⟩ :=
    exchange_spec .firmware 1 (by decide) s.params.fwBudget s
  obtain rfl : d = s.draws := hd trivial
  refine ⟨_, rfl, ?_⟩
  split
  · obtain ⟨answers, m, ix', ha, -, hin, hout, hwf, -, hr⟩ := readFrame_spec Config.fwRspLen (by decide)
      (setStage .responseRead (exchange .firmware 1 s.params.fwBudget s).state)
    obtain ⟨r, hp⟩ := packFirmware_written
      (s := readFrame Config.fwRspLen (setStage .responseRead (exchange .firmware 1 s.params.fwBudget s).state))
      fun i hi => ⟨_, by
        rw [hr]
        exact hin i (Nat.lt_trans hi (by decide))⟩
    rw [he] at hout hwf
    rw [hp, hr, he]
    simp only [setStage, List.append_assoc]
    exact .getFw _ _ _ m _ r ⟨hout, hwf (by decide)⟩ rfl
  · rename_i hne
    rw [hc] at hne ⊢
    rw [he, hk, List.append_assoc]
    exact .getFwFailed _ _ k _ _ _ _ ho.legal hne rfl

/-- Every operation run whole ends in one of the states of `ExecEnds`. -/
theorem exec_ends (i : Instr) (s : State) : ∃ t, exec i s = .next t ∧ ExecEnds s i t := by
  cases i with
  | bitrev v => exact execBitrev_ends v s
  | xferWr v => exact execXferWr_ends v s
  | xferRd => exact execXferRd_ends s
  | writeCmd n => exact execWriteCmd_ends n s
  | readData n => exact execReadData_ends n s
  | waitReady b => exact execWaitReady_ends b s
  | checkAck => exact execCheckAck_ends s
  | execute n b => exact execExecute_ends n b s
  | getFw => exact execGetFw_ends s

theorem execEnds_of_exec {i : Instr} {s t : State} (h : exec i s = .next t) : ExecEnds s i t := by
  obtain ⟨u, hu, he⟩ := exec_ends i s
  rw [h] at hu
  cases hu
  exact he

/-! ### What every completed operation leaves -/

/-- What an operation run whole leaves, whichever it is: complete and idle (R253), its code and stage legal, no
acknowledgment byte kept (R47), the trace extended, and everything outside its reach as before. -/
structure Completes (s t : State) : Prop where
  busy : t.status.busy = false
  done : t.status.done = true
  phase : t.seq.phase = .idle
  ack : t.seq.ack = noAck
  ending : legalEnding t.status.code t.status.stage = true
  trace : s.trace <+: t.trace
  cs : s.cs = false → t.cs = false
  memory : Memory.wf s.mem = true → Memory.wf t.mem = true
  ovr : t.status.ovr = s.status.ovr
  opw : t.seq.opw = s.seq.opw
  params : t.params = s.params
  host : t.host = s.host
  sched : t.sched = s.sched
  resets : t.resets = s.resets

/-- A Finish with a legal code and stage completes the operation whose body left the state `u`. -/
theorem completes_finish {s u : State} {code : Code} {stage : Stage} (hend : legalEnding code stage = true)
    (htrace : s.trace <+: u.trace) (hcs : s.cs = false → u.cs = false)
    (hmem : Memory.wf s.mem = true → Memory.wf u.mem = true) (hopw : u.seq.opw = s.seq.opw)
    (hframe : u.status.ovr = s.status.ovr ∧ u.params = s.params ∧ u.host = s.host ∧ u.sched = s.sched ∧
      u.resets = s.resets) : Completes s (finish code stage u) := by
  obtain ⟨hovr, hparams, hhost, hsched, hresets⟩ := hframe
  exact ⟨rfl, rfl, rfl, rfl, hend, htrace, hcs, hmem, hovr, hopw, hparams, hhost, hsched, hresets⟩

/-- A Finish that nothing came before completes the operation. -/
theorem completes_finish_self (s : State) {code : Code} {stage : Stage} (hend : legalEnding code stage = true) :
    Completes s (finish code stage s) :=
  completes_finish hend (List.prefix_refl _) id id rfl ⟨rfl, rfl, rfl, rfl, rfl⟩

theorem ExecEnds.completes {i : Instr} {s t : State} (h : ExecEnds s i t) : Completes s t := by
  cases h with
  | bitrev v r => exact completes_finish rfl (List.prefix_refl _) id id rfl ⟨rfl, rfl, rfl, rfl, rfl⟩
  | xferWr v evs p => exact completes_finish rfl (List.prefix_append _ _) id id rfl ⟨rfl, rfl, rfl, rfl, rfl⟩
  | xferRd evs p r => exact completes_finish rfl (List.prefix_append _ _) id id rfl ⟨rfl, rfl, rfl, rfl, rfl⟩
  | writeCmdRefused n => exact completes_finish_self s rfl
  | writeCmd n evs p d acc ix =>
    exact completes_finish rfl (List.prefix_append _ _) (fun _ => rfl) id rfl ⟨rfl, rfl, rfl, rfl, rfl⟩
  | readDataRefused n => exact completes_finish_self s rfl
  | readData n evs p m ix hm =>
    exact completes_finish rfl (List.prefix_append _ _) (fun _ => rfl) hm.canonical rfl ⟨rfl, rfl, rfl, rfl, rfl⟩
  | waitReady b code evs cs p cnt st polls r hcode hcs =>
    exact completes_finish (by rcases hcode with rfl | rfl <;> rfl) (List.prefix_append _ _) hcs id rfl
      ⟨rfl, rfl, rfl, rfl, rfl⟩
  | checkAck code evs p ack r hcode =>
    exact completes_finish (by rcases hcode with rfl | rfl <;> rfl) (List.prefix_append _ _) (fun _ => rfl) id rfl
      ⟨rfl, rfl, rfl, rfl, rfl⟩
  | executeRefused n b => exact completes_finish_self s rfl
  | execute n b code stage k evs p d q r hend hopw =>
    exact completes_finish hend (List.prefix_append _ _) (fun _ => rfl) id hopw ⟨rfl, rfl, rfl, rfl, rfl⟩
  | getFwFailed code stage k evs p q r hend hcode hopw =>
    exact completes_finish hend (List.prefix_append _ _) (fun _ => rfl) id hopw ⟨rfl, rfl, rfl, rfl, rfl⟩
  | getFw k evs p m q r hm hopw =>
    exact completes_finish rfl (List.prefix_append _ _) (fun _ => rfl) hm.canonical hopw ⟨rfl, rfl, rfl, rfl, rfl⟩

/-- An operation turn (R73) refuses a word that selects no operation, or runs the one it selects (R103). -/
theorem operationTurn_cases {s t : State} (h : operationTurn s = .next t) :
    t = finish .illegalOp .none s ∨ ∃ i, decode s.seq.opw = .ok i ∧ ExecEnds s i t := by
  unfold operationTurn at h
  split at h
  · exact .inl (Host.Outcome.next.inj h).symm
  · rename_i i hi
    exact .inr ⟨i, hi, execEnds_of_exec h⟩

theorem operationTurn_completes {s t : State} (h : operationTurn s = .next t) : Completes s t := by
  obtain rfl | ⟨i, -, he⟩ := operationTurn_cases h
  · exact completes_finish_self s rfl
  · exact he.completes

end Sys2Proof.Machine
end

section
/-! PROOF. One sequencer step, one host line and one step of the machine: what each can do, said once, for every statement about
what steps keep. -/

namespace Sys2Proof.Machine

/-- A sequencer step does nothing, runs a straight-line statement, moves the position, or finishes (R42, R73). -/
theorem seqStep_cases (s : State) :
    seqStep s = s ∨ (∃ a rest, seqStep s = continueWith rest (runAct a s)) ∨
      (∃ rest, seqStep s = continueWith rest s) ∨ ∃ code stage, seqStep s = finish code stage s := by
  unfold seqStep
  split
  · exact .inl rfl
  · exact .inl rfl
  · rename_i st rest hp
    cases st with
    | dispatch =>
      simp only [runStmt, dispatchStep]
      split
      · exact .inr (.inr (.inr ⟨_, _, rfl⟩))
      · exact .inr (.inr (.inl ⟨_, rfl⟩))
    | act a => exact .inr (.inl ⟨a, rest, rfl⟩)
    | finish code stage => exact .inr (.inr (.inr ⟨code, stage, rfl⟩))
    | _ => exact .inr (.inr (.inl ⟨_, rfl⟩))

/-- What no sequencer step changes. -/
theorem seqStep_frame (s : State) :
    (seqStep s).params = s.params ∧ (seqStep s).seq.opw = s.seq.opw ∧ (seqStep s).status.ovr = s.status.ovr := by
  obtain h | ⟨a, rest, h⟩ | ⟨rest, h⟩ | ⟨code, stage, h⟩ := seqStep_cases s
  · rw [h]
    exact ⟨rfl, rfl, rfl⟩
  · obtain ⟨hparams, -, -, -, -, hopw, -, -, hovr, -⟩ := runAct_frame a s
    rw [h]
    exact ⟨hparams, hopw, hovr⟩
  · rw [h]
    exact ⟨rfl, rfl, rfl⟩
  · rw [h]
    exact ⟨rfl, rfl, rfl⟩

/-- A sequencer step leaves BUSY as it is, or completes the operation (R35). -/
theorem seqStep_busy (s : State) :
    (seqStep s).status.busy = s.status.busy ∨
      ((seqStep s).status.busy = false ∧ (seqStep s).status.done = true ∧ (seqStep s).seq.phase = .idle) := by
  obtain h | ⟨a, rest, h⟩ | ⟨rest, h⟩ | ⟨code, stage, h⟩ := seqStep_cases s
  · exact .inl (by rw [h])
  · obtain ⟨-, -, -, -, -, -, hbusy, -⟩ := runAct_frame a s
    exact .inl (by rw [h]; exact hbusy)
  · exact .inl (by rw [h]; rfl)
  · exact .inr (by rw [h]; exact ⟨rfl, rfl, rfl⟩)

/-- A sequencer step leaves the trace as it is or adds one event (R73). -/
theorem seqStep_trace (s : State) :
    (seqStep s).trace = s.trace ∨ ∃ e, (seqStep s).trace = s.trace ++ [e] := by
  obtain h | ⟨a, rest, h⟩ | ⟨rest, h⟩ | ⟨code, stage, h⟩ := seqStep_cases s
  · exact .inl (by rw [h])
  · rw [h]
    exact runAct_trace a s
  · exact .inl (by rw [h]; rfl)
  · exact .inl (by rw [h]; rfl)

theorem seqStep_trace_prefix (s : State) : s.trace <+: (seqStep s).trace := by
  obtain h | ⟨e, h⟩ := seqStep_trace s <;> rw [h]
  exact List.prefix_append _ _

/-- Where a permitted host write went (R71): OP, STATUS or CMD_BUF. -/
theorem hostWrite_region {width off : Nat} {v : Word} {s t : State} (h : hostWrite width off v s = some t) :
    (off = 0x000 ∧ width = 4 ∧ t = writeOp v s) ∨ (off = 0x004 ∧ width = 4 ∧ t = writeStatus v s) ∨
      (0x100 ≤ off ∧ off < 0x200 ∧ t = writeCommandBuffer width off v s) := by
  have hperm : writePermitted width off = true := by
    by_contra hn
    simp [hostWrite, hn] at h
  obtain ⟨rfl | rfl, rfl⟩ | ⟨hlo, hhi, -⟩ := (writePermitted_iff width off).1 hperm
  · exact .inl ⟨rfl, rfl, (Option.some.inj h).symm⟩
  · exact .inr (.inl ⟨rfl, rfl, (Option.some.inj h).symm⟩)
  · have hr : regionOf off = .cmdBuf := by
      rw [regionOf, if_neg (by omega), if_neg (by omega), if_neg (by omega), if_neg (by omega), if_pos hhi]
    simp only [hostWrite, hperm, hr, if_true, Option.some.injEq] at h
    exact .inr (.inr ⟨hlo, hhi, h.symm⟩)

/-- A host line that does not fault (R110): a permitted store, or a line that changes at most the count of draws and the
host itself. -/
theorem hostStep_cases {s t : State} (h : hostStep s = .next t) :
    (∃ width off e u, s.host.prog[s.host.pos]? = some (.store width off e) ∧
      hostWrite width off (evalHost s.host.vars e) s = some u ∧ t = hostGoto (s.host.pos + 1) u) ∨
    ∃ d a, t = { s with draws := d, host := a } := by
  unfold hostStep at h
  split at h
  · exact .inr ⟨_, _, (Host.Outcome.next.inj h).symm⟩
  · rename_i st hst
    cases st with
    | store width off e =>
      simp only [runHostStmt] at h
      split at h
      · rename_i u hu
        exact .inl ⟨width, off, e, u, hst, hu, (Host.Outcome.next.inj h).symm⟩
      · cases h
    | load width off name =>
      simp only [runHostStmt] at h
      split at h
      · rename_i r hr
        obtain ⟨d, hd⟩ := hostRead_frame (v := r.1) (t := r.2) hr
        rw [hd] at h
        exact .inr ⟨d, _, (Host.Outcome.next.inj h).symm⟩
      · cases h
    | assign name e => exact .inr ⟨_, _, (Host.Outcome.next.inj h).symm⟩
    | branch e target => exact .inr ⟨_, _, (Host.Outcome.next.inj h).symm⟩

/-- The turn of one agent (R73). -/
theorem turnStep_cases {turn : Turn} {s t : State} (h : turnStep turn s = .next t) :
    hostStep s = .next t ∨ t = seqStep s ∨ (s.seq.phase = .running [.dispatch] ∧ operationTurn s = .next t) ∨
      (turn = .reset ∧ t = resetInput s) := by
  cases turn with
  | host => exact .inl h
  | sequencer => exact .inr (.inl (Host.Outcome.next.inj h).symm)
  | operation =>
    simp only [turnStep] at h
    split at h
    · rename_i hp
      exact .inr (.inr (.inl ⟨hp, h⟩))
    · exact .inr (.inl (Host.Outcome.next.inj h).symm)
  | reset => exact .inr (.inr (.inr ⟨rfl, (Host.Outcome.next.inj h).symm⟩))

/-- A step (R73): a host line, a sequencer step, an operation run whole, or the reset input if it is scheduled, from the
state with the turn used up. -/
theorem step_cases {s t : State} (h : step s = .next t) :
    ∃ r, hostStep { s with sched := r } = .next t ∨ t = seqStep { s with sched := r } ∨
      (s.seq.phase = .running [.dispatch] ∧ operationTurn { s with sched := r } = .next t) ∨
      (s.sched = .reset :: r ∧ t = resetInput { s with sched := r }) := by
  unfold step at h
  split at h
  · rename_i hs
    refine ⟨[], ?_⟩
    have hs' : { s with sched := [] } = s := by rw [← hs]
    rw [hs']
    obtain h | h | h | ⟨hd, -⟩ := turnStep_cases h
    · exact .inl h
    · exact .inr (.inl h)
    · exact .inr (.inr (.inl h))
    · unfold defaultTurn at hd
      split at hd <;> cases hd
  · rename_i turn r hs
    refine ⟨r, ?_⟩
    obtain h | h | h | ⟨rfl, ht⟩ := turnStep_cases h
    · exact .inl h
    · exact .inr (.inl h)
    · exact .inr (.inr (.inl h))
    · exact .inr (.inr (.inr ⟨hs, ht⟩))

/-- Every step keeps a property that does not look at the schedule and that every kind of turn keeps. -/
theorem step_keeps {P : State → Prop} (hsched : ∀ s r, P s → P { s with sched := r })
    (hhost : ∀ s t, P s → hostStep s = .next t → P t) (hseq : ∀ s, P s → P (seqStep s))
    (hop : ∀ s t, P s → s.seq.phase = .running [.dispatch] → operationTurn s = .next t → P t)
    (hreset : ∀ s, P s → P (resetInput s)) {s t : State} (hs : P s) (h : step s = .next t) : P t := by
  obtain ⟨r, h | rfl | ⟨hp, h⟩ | ⟨-, rfl⟩⟩ := step_cases h
  · exact hhost _ t (hsched s r hs) h
  · exact hseq _ (hsched s r hs)
  · exact hop _ t (hsched s r hs) hp h
  · exact hreset _ (hsched s r hs)

/-- What no host line changes: the parameters (R53) and the trace (R52). -/
theorem hostStep_frame {s t : State} (h : hostStep s = .next t) : t.params = s.params ∧ t.trace = s.trace := by
  obtain ⟨width, off, e, u, -, hw, rfl⟩ | ⟨d, a, rfl⟩ := hostStep_cases h
  · obtain ⟨-, rfl⟩ | ⟨-, rfl⟩ | rfl | ⟨-, m, rfl, -⟩ := hostWrite_cases hw <;> exact ⟨rfl, rfl⟩
  · exact ⟨rfl, rfl⟩

end Sys2Proof.Machine
end

section
/-! PROOF. The statements about what operations and steps leave and change: the trace, the parameters, memory, the registers,
STATUS, unwritten bytes and the values after reset (O12, O33 to O35, O39, O40, O46, O51, O55, O56). -/

namespace Sys2Proof.Machine

/-! ### The obligations on operations, the registers and the trace -/

/-- Settles O12: a step does nothing to the trace or is one straight-line statement. -/
theorem sequencerStepEmitsAtMostOneEvent : Obligations.SequencerStepEmitsAtMostOneEvent := seqStep_trace

/-- Settles O55: a host line emits nothing, a sequencer step and an operation only append. -/
theorem traceOnlyGrows : Obligations.TraceOnlyGrows := by
  intro s t h
  obtain ⟨r, h | rfl | ⟨-, h⟩ | ⟨hr, -⟩⟩ := step_cases h
  · exact .inr (by rw [(hostStep_frame h).2])
  · exact .inr (seqStep_trace_prefix { s with sched := r })
  · exact .inr (operationTurn_completes h).trace
  · exact .inl ⟨r, hr⟩

/-- Settles O56: no turn of an agent, nor the reset input, writes the parameters. -/
theorem parametersNeverChange : Obligations.ParametersNeverChange := by
  intro s t h
  obtain ⟨r, h | rfl | ⟨-, h⟩ | ⟨-, rfl⟩⟩ := step_cases h
  · exact (hostStep_frame h).1
  · exact (seqStep_frame { s with sched := r }).1
  · exact (operationTurn_completes h).params
  · rfl

/-- CMD_BUF lies below RSP_BUF (R71), so a response leaves it (R306). -/
theorem WritesResponse.cmdBuf {n : Nat} {s : State} {m : List Host.Cell} (h : WritesResponse n s m) (k : Nat)
    (hk : k < 256) : assocGet m (cmdOffset k) = s.byteAt (cmdOffset k) :=
  h.outside _ (.inl (by unfold cmdOffset rspOffset; omega))

/-- Settles O33: of the states an operation ends in, only those of READ_DATA and a successful GET_FW hold other buffers. -/
theorem operationsWriteOnlyTheResponse : Obligations.OperationsWriteOnlyTheResponse := by
  intro i s t h
  cases execEnds_of_exec h with
  | readData n evs p m ix hm => exact ⟨hm.cmdBuf, hm.outside⟩
  | getFw k evs p m q r hm hopw => exact ⟨hm.cmdBuf, fun hne => absurd rfl hne, hm.outside⟩
  | readDataRefused n => exact ⟨fun _ _ => rfl, fun _ _ => rfl⟩
  | getFwFailed code stage k evs p q r hend hcode hopw =>
    exact ⟨fun _ _ => rfl, fun _ _ => rfl, fun _ _ => rfl⟩
  | _ => exact ⟨fun _ _ => rfl, fun _ => rfl⟩

/-- Settles O34: the registers a rule does not write are the ones its ending state takes from `s`. -/
theorem operationsLeaveOtherRegisters : Obligations.OperationsLeaveOtherRegisters := by
  intro i s t h
  have he := execEnds_of_exec h
  have hc := he.completes
  refine ⟨⟨hc.ovr, hc.opw, hc.params, hc.host, hc.sched, hc.resets⟩, ?_⟩
  cases he with
  | bitrev | xferWr | readDataRefused | readData => exact ⟨rfl, rfl, rfl⟩
  | xferRd | writeCmdRefused | writeCmd | waitReady | checkAck | getFwFailed | getFw => exact ⟨rfl, rfl⟩
  | executeRefused | execute => rfl

/-- A stage other than 0 is legal only with TIMEOUT and NACK (R39, R250). -/
theorem legalEnding_stage {code : Code} {stage : Stage} (h : legalEnding code stage = true) (hne : stage ≠ .none) :
    code = .timeout ∨ code = .nack := by
  cases code with
  | timeout => exact .inl rfl
  | nack => exact .inr rfl
  | ok | illegalOp | argErr => exact absurd (eq_of_beq h) hne

/-- An operation that is no exchange ends with STAGE 0 (R39). -/
theorem ExecEnds.stage_eq_none {i : Instr} {s t : State} (h : ExecEnds s i t) (hex : ∀ n b, i ≠ .execute n b)
    (hfw : i ≠ .getFw) : t.status.stage = .none := by
  cases h with
  | executeRefused n b => exact absurd rfl (hex n b)
  | execute n b => exact absurd rfl (hex n b)
  | getFwFailed => exact absurd rfl hfw
  | getFw => exact absurd rfl hfw
  | _ => rfl

/-- Settles O35: the code and stage of an ending are legal together, and only an exchange ends with a stage. -/
theorem stageEndsAtZeroOutsideFailedExchanges : Obligations.StageEndsAtZeroOutsideFailedExchanges := by
  intro i s t h hne
  have he := execEnds_of_exec h
  refine ⟨?_, legalEnding_stage he.completes.ending hne⟩
  by_contra hno
  obtain ⟨hex, hfw⟩ := not_or.1 hno
  exact hne (he.stage_eq_none (fun n b hi => hex ⟨n, b, hi⟩) hfw)

/-! ### BUSY, OVR, the operation word and STATUS -/

/-- What a host line does to BUSY, OVR and the operation word (R34, R37, R41, R76, R102): a store to OP while idle is
accepted, a store to OP or CMD_BUF while busy sets OVR, a store to STATUS clears OVR where bit 2 is 1, and every other
line leaves the three as they are. -/
theorem hostStep_registers {s t : State} (h : hostStep s = .next t) :
    (s.status.busy = false ∧ t.status.ovr = s.status.ovr ∧
      ∃ e, s.host.prog[s.host.pos]? = some (.store 4 0x000 e) ∧ t.seq.opw = evalHost s.host.vars e) ∨
    (t.status.busy = s.status.busy ∧ t.seq.opw = s.seq.opw ∧
      (t.status.ovr = s.status.ovr ∨
        (t.status.ovr = true ∧ s.status.busy = true ∧
          ∃ width off e, s.host.prog[s.host.pos]? = some (.store width off e) ∧
            (off = 0x000 ∨ (0x100 ≤ off ∧ off < 0x200))) ∨
        ∃ e, s.host.prog[s.host.pos]? = some (.store 4 0x004 e) ∧
          t.status.ovr = ovrAfterStatusWrite s.status.ovr (evalHost s.host.vars e))) := by
  obtain ⟨width, off, e, u, hst, hw, rfl⟩ | ⟨d, a, rfl⟩ := hostStep_cases h
  · obtain ⟨rfl, rfl, rfl⟩ | ⟨rfl, rfl, rfl⟩ | ⟨hlo, hhi, rfl⟩ := hostWrite_region hw
    · unfold writeOp
      split
      · rename_i hb
        exact .inr ⟨rfl, rfl, .inr (.inl ⟨rfl, hb, _, _, e, hst, .inl rfl⟩)⟩
      · rename_i hb
        exact .inl ⟨Bool.eq_false_iff.2 hb, rfl, e, hst, rfl⟩
    · exact .inr ⟨rfl, rfl, .inr (.inr ⟨e, hst, rfl⟩)⟩
    · unfold writeCommandBuffer
      split
      · rename_i hb
        exact .inr ⟨rfl, rfl, .inr (.inl ⟨rfl, hb, _, _, e, hst, .inr ⟨hlo, hhi⟩⟩)⟩
      · obtain ⟨m, hm, -⟩ := writeBytes_eq width 0 off (evalHost s.host.vars e) s
        rw [hm]
        exact .inr ⟨rfl, rfl, .inl rfl⟩
  · exact .inr ⟨rfl, rfl, .inl rfl⟩

/-- OVR falls on a write to STATUS exactly where bit 2 of the value is 1 (R34). -/
theorem ovrAfterStatusWrite_cleared {ovr : Bool} {v : Word} (h : ovr = true)
    (h' : ovrAfterStatusWrite ovr v = false) : v.getLsbD 2 = true := by
  simpa [ovrAfterStatusWrite, h] using h'

/-- A write to STATUS sets no OVR (R34). -/
theorem ovrAfterStatusWrite_false (v : Word) : ovrAfterStatusWrite false v = false := rfl

/-- The changes O39 allows in a step from `s` to `t`. -/
def ChangesAsStated (s t : State) : Prop :=
  (s.status.busy = false → t.status.busy = true → ∃ e, s.host.prog[s.host.pos]? = some (.store 4 0x000 e)) ∧
  (s.status.busy = true → t.status.busy = false → t.status.done = true ∧ t.seq.phase = .idle) ∧
  (s.status.ovr = false → t.status.ovr = true → s.status.busy = true ∧
    ∃ width off e, s.host.prog[s.host.pos]? = some (.store width off e) ∧
      (off = 0x000 ∨ (0x100 ≤ off ∧ off < 0x200))) ∧
  (s.status.ovr = true → t.status.ovr = false → ∃ e, s.host.prog[s.host.pos]? = some (.store 4 0x004 e) ∧
    (evalHost s.host.vars e).getLsbD 2 = true) ∧
  (t.seq.opw ≠ s.seq.opw → s.status.busy = false ∧ ∃ e, s.host.prog[s.host.pos]? = some (.store 4 0x000 e) ∧
    t.seq.opw = evalHost s.host.vars e)

/-- A step of the sequencer or a whole operation: OVR and the operation word stay, and BUSY stays or falls with
completion. -/
theorem changesAsStated_of_block {s t : State} (hovr : t.status.ovr = s.status.ovr) (hopw : t.seq.opw = s.seq.opw)
    (hbusy : t.status.busy = s.status.busy ∨
      (t.status.busy = false ∧ t.status.done = true ∧ t.seq.phase = .idle)) : ChangesAsStated s t := by
  refine ⟨fun h h' => ?_, fun h h' => ?_, fun h h' => ?_, fun h h' => ?_, fun h => absurd hopw h⟩
  · obtain hb | ⟨hb, -⟩ := hbusy <;> simp [hb, h] at h'
  · obtain hb | ⟨-, hdone⟩ := hbusy
    · simp [hb, h] at h'
    · exact hdone
  · simp [hovr, h] at h'
  · simp [hovr, h] at h'

theorem changesAsStated_of_hostStep {s t : State} (h : hostStep s = .next t) : ChangesAsStated s t := by
  obtain ⟨hb, hovr, e, hst, hopw⟩ | ⟨hbusy, hopw, hovr⟩ := hostStep_registers h
  · exact ⟨fun _ _ => ⟨e, hst⟩, fun h => by simp [hb] at h, fun h h' => by simp [hovr, h] at h',
      fun h h' => by simp [hovr, h] at h', fun _ => ⟨hb, e, hst, hopw⟩⟩
  · refine ⟨fun h h' => by simp [hbusy, h] at h', fun h h' => by simp [hbusy, h] at h', fun h h' => ?_,
      fun h h' => ?_, fun h => absurd hopw h⟩
    · obtain ho | ⟨-, hb, hst⟩ | ⟨e, -, ho⟩ := hovr
      · simp [ho, h] at h'
      · exact ⟨hb, hst⟩
      · rw [ho, h, ovrAfterStatusWrite_false] at h'
        cases h'
    · obtain ho | ⟨ho, -⟩ | ⟨e, hst, ho⟩ := hovr
      · simp [ho, h] at h'
      · simp [ho] at h'
      · exact ⟨e, hst, ovrAfterStatusWrite_cleared h (ho ▸ h')⟩

/-- Settles O39: each kind of turn but the reset input changes the three as stated. -/
theorem busyOvrAndWordChangeOnlyAsStated : Obligations.BusyOvrAndWordChangeOnlyAsStated := by
  intro s t h hno
  obtain ⟨r, h | rfl | ⟨-, h⟩ | ⟨hr, -⟩⟩ := step_cases h
  · have hc := changesAsStated_of_hostStep h
    exact hc
  · obtain ⟨-, hopw, hovr⟩ := seqStep_frame { s with sched := r }
    exact changesAsStated_of_block hovr hopw (seqStep_busy { s with sched := r })
  · have hc := operationTurn_completes h
    exact changesAsStated_of_block hc.ovr hc.opw (.inr ⟨hc.busy, hc.done, hc.phase⟩)
  · exact absurd ⟨r, hr⟩ hno

/-- Bits placed above `n` others weigh `2 ^ n` (R15). -/
theorem append_toNat {m n : Nat} (x : BitVec m) (y : BitVec n) : (x ++ y).toNat = x.toNat * 2 ^ n + y.toNat := by
  rw [BitVec.toNat_append, ← Nat.shiftLeft_add_eq_or_of_lt y.isLt, Nat.shiftLeft_eq]

/-- POLLS saturates at 0xFFFF (R40). -/
theorem pollsField_toNat (polls : Word) : (pollsField polls).toNat = min polls.toNat 0xFFFF := by
  simp only [pollsField, BitVec.toNat_ofNat]
  omega

/-- The STATUS word as the number its fields make (R34). -/
theorem statusWord_toNat (s : State) :
    (statusWord s).toNat = s.status.busy.toNat + 2 * s.status.done.toNat + 4 * s.status.ovr.toNat +
      16 * (codeBits s.status.code).toNat + 256 * (stageBits s.status.stage).toNat +
      65536 * min s.seq.polls.toNat 0xFFFF := by
  simp only [statusWord, append_toNat, pollsField_toNat, BitVec.toNat_ofBool]
  simp only [BitVec.ofNat_eq_ofNat, BitVec.toNat_ofNat]
  omega

/-- Settles O40: the fields of the STATUS word weigh what R34 says, and its accesses are those of the register. -/
theorem statusRegister : Obligations.StatusRegister := by
  intro v s
  refine ⟨rfl, ?_, rfl⟩
  rw [statusWord_toNat]
  cases s.status.code <;> cases s.status.stage <;> rfl

/-! ### Unwritten bytes and the state after reset -/

/-- Settles O46: R55's read, and the frame writer's read is the same one. -/
theorem unwrittenBytesAreDraws : Obligations.UnwrittenBytesAreDraws := by
  intro off s
  refine ⟨fun h => ?_, fun b h => readByteAt_written h, fun _ => rfl⟩
  simp only [State.readByteAt, h, State.drawByte]

/-- Settles O51: the values of R54. -/
theorem resetState : Obligations.ResetState :=
  ⟨by decide, rfl, rfl, rfl, rfl, rfl, fun _ => rfl⟩

end Sys2Proof.Machine
end

section
/-! PROOF. The invariant of the machine (O52, O53): every operation's statements are at good positions, and each turn keeps
`Inv`. -/

namespace Sys2Proof.Machine

/-! ### The statements of an operation are good positions

Each piece of code is a good position when what follows it is, whatever `SEQ.idx` holds. -/

/-- The index loop of a frame (R163, R164) in front of a good position, with chip-select asserted. -/
theorem positionOk_indexLoop {a : Act} {rest : List Stmt} (ha : ∀ i < 256, actInPlace a true i = true)
    (hcs : csAfter a true = true) (hidx : ∀ i, idxAfter a i = i) (l : List Nat) (hl : ∀ i ∈ l, i < 256)
    (hrest : ∀ idx, positionOk true idx rest = true) (idx : Nat) :
    positionOk true idx (straight (l.flatMap fun i => [.setIdx i, a]) ++ rest) = true := by
  induction l generalizing idx with
  | nil => exact hrest idx
  | cons i l ih =>
    have hi : i < 256 := hl i List.mem_cons_self
    have htail := ih (fun j hj => hl j (List.mem_cons_of_mem i hj)) i
    change (decide (i < 256) && (actInPlace a true i && positionOk (csAfter a true) (idxAfter a i)
      (straight (l.flatMap fun i => [.setIdx i, a]) ++ rest))) = true
    rw [decide_eq_true hi, ha i hi, hcs, hidx, htail]
    rfl

theorem positionOk_writeFrame (p : Params) (src : CmdSource) {n : Nat} (hn : n < 256) {rest : List Stmt}
    (hrest : ∀ idx, positionOk false idx rest = true) (idx : Nat) :
    positionOk false idx (straight (writeFrameCode p src n) ++ rest) = true := by
  have hloop := positionOk_indexLoop (a := .writeCommandByte src)
    (rest := straight [.writeDataChecksum, .write Config.postamble, .delay, .csDeassert] ++ rest)
    (fun _ _ => rfl) rfl (fun _ => rfl) (List.range n) (fun i hi => Nat.lt_trans (List.mem_range.1 hi) hn)
    (fun i => by simpa [straight, positionOk, actInPlace, csAfter, idxAfter] using hrest i) idx
  simpa [writeFrameCode, straight, positionOk, actInPlace, csAfter, idxAfter] using hloop

theorem positionOk_readFrame (p : Params) {n : Nat} (hn : n < 256) {rest : List Stmt}
    (hrest : ∀ idx, positionOk false idx rest = true) (idx : Nat) :
    positionOk false idx (straight (readFrameCode p n) ++ rest) = true := by
  have hloop := positionOk_indexLoop (a := .readResponseByte) (rest := straight [.delay, .csDeassert] ++ rest)
    (fun i hi => by simpa [actInPlace] using hi) rfl (fun _ => rfl) (List.range n)
    (fun i hi => Nat.lt_trans (List.mem_range.1 hi) hn)
    (fun i => by simpa [straight, positionOk, actInPlace, csAfter, idxAfter] using hrest i) idx
  simpa [readFrameCode, straight, positionOk, actInPlace, csAfter, idxAfter] using hloop

theorem positionOk_poll (b : Half) {stage : Stage} (hstage : legalEnding .timeout stage = true) {rest : List Stmt}
    {idx : Nat} (hrest : positionOk false idx rest = true) :
    positionOk false idx (pollCode b stage ++ rest) = true := by
  simp [pollCode, positionOk, actInPlace, csAfter, idxAfter, hstage, hrest]

theorem positionOk_ack (p : Params) {stage : Stage} (hstage : legalEnding .nack stage = true) {rest : List Stmt}
    {idx : Nat} (hrest : positionOk false idx rest = true) :
    positionOk false idx (ackCode p stage ++ rest) = true := by
  simp [ackCode, ackFrameCode, straight, positionOk, actInPlace, csAfter, idxAfter, hstage, hrest]

theorem positionOk_setStage (k : Stage) {rest : List Stmt} {idx : Nat} (hrest : positionOk false idx rest = true) :
    positionOk false idx (.act (.setStage k) :: rest) = true := by
  simp [positionOk, actInPlace, csAfter, idxAfter, hrest]

theorem positionOk_exchange (p : Params) (src : CmdSource) {n : Nat} (hn : n < 256) (b : Half) {rest : List Stmt}
    (hrest : ∀ idx, positionOk false idx rest = true) (idx : Nat) :
    positionOk false idx (exchangeCode p src n b ++ rest) = true := by
  simp only [exchangeCode, List.append_assoc, List.cons_append]
  exact positionOk_setStage _ (positionOk_writeFrame p src hn (fun i =>
    positionOk_setStage _ (positionOk_poll b rfl (positionOk_setStage _ (positionOk_ack p rfl
      (positionOk_setStage _ (positionOk_poll b rfl (hrest i))))))) idx)

/-- RESULT written and Finish with OK, the end of most operations. -/
theorem positionOk_setResult_finish (v : Word) (idx : Nat) :
    positionOk false idx [.act (.setResult v), .finish .ok .none] = true := rfl

/-- The length operand of a decoded operation fits its field (R107). -/
theorem decode_wf {w : Word} {i : Instr} (h : decode w = .ok i) : i.wf = true := by
  have h8 := (arg8Field w).isLt
  have h16 := (budgetField w).isLt
  unfold decode at h
  split at h
  · cases h
  · split at h <;> cases h <;> simp only [Instr.wf, lengthFits, budgetFits, Bool.and_eq_true, decide_eq_true_eq] <;>
      omega

/-- After Dispatch, the statements of a well-formed operation are a good position (R229). -/
theorem positionOk_operationCode (p : Params) {i : Instr} (hi : i.wf = true) (idx : Nat) :
    positionOk false idx (operationCode p i) = true := by
  cases i with
  | bitrev v => rfl
  | xferWr v => rfl
  | xferRd => rfl
  | writeCmd n =>
    exact positionOk_writeFrame p .cmdBuf (of_decide_eq_true hi) (fun _ => rfl) idx
  | readData n => exact positionOk_readFrame p (of_decide_eq_true hi) (fun _ => rfl) idx
  | waitReady b => exact positionOk_poll _ rfl (positionOk_setResult_finish 1 idx)
  | checkAck => exact positionOk_ack p rfl (positionOk_setResult_finish 1 idx)
  | execute n b =>
    have hn : n < 256 := of_decide_eq_true (Bool.and_eq_true_iff.1 hi).1
    exact positionOk_exchange p .cmdBuf hn _ (positionOk_setResult_finish 1) idx
  | getFw =>
    exact positionOk_exchange p .firmware (by decide) _ (fun j =>
      positionOk_setStage _ (positionOk_readFrame p (by decide) (fun _ => rfl) j)) idx

/-! ### A sequencer step keeps the position good -/

/-- A command byte read for a frame (R164) changes at most the count of draws. -/
theorem commandByte_eq (src : CmdSource) (i : Nat) (s : State) :
    ∃ d, (commandByte src i s).2 = { s with draws := d } := by
  cases src with
  | cmdBuf =>
    obtain ⟨d, h, -⟩ := readByteAt_spec s (cmdOffset i)
    exact ⟨d, h⟩
  | firmware => exact ⟨s.draws, rfl⟩

/-- The firmware value packed (R225) changes RESULT and at most the count of draws. -/
theorem packFirmware_eq (s : State) : ∃ r d, packFirmware s = { s with result := r, draws := d } := by
  obtain ⟨d0, h0, -⟩ := readByteAt_spec s (rspOffset 0)
  obtain ⟨d1, h1, -⟩ := readByteAt_spec { s with draws := d0 } (rspOffset 1)
  obtain ⟨d2, h2, -⟩ := readByteAt_spec { s with draws := d1 } (rspOffset 2)
  obtain ⟨d3, h3, -⟩ := readByteAt_spec { s with draws := d2 } (rspOffset 3)
  exact ⟨(packFirmware s).result, d3, by simp only [packFirmware, h0, h1, h2, h3]⟩

/-- `SEQ.idx` after a straight-line statement in its place (R45). -/
theorem runAct_idx {a : Act} {cs : Bool} {s : State} (h : actInPlace a cs s.seq.idx.toNat = true) :
    (runAct a s).seq.idx.toNat = idxAfter a s.seq.idx.toNat := by
  cases a with
  | setIdx i =>
    have hi : i < 256 := of_decide_eq_true h
    simp only [runAct, setIdx_seq, idxAfter, BitVec.toNat_ofNat]
    omega
  | writeCommandByte src =>
    obtain ⟨d, hd⟩ := commandByte_eq src s.seq.idx.toNat s
    simp [runAct, writeCommandByte, hd, idxAfter]
  | packFirmware =>
    obtain ⟨r, d, hp⟩ := packFirmware_eq s
    simp [runAct, hp, idxAfter]
  | _ => rfl

theorem positionOk_act {a : Act} {rest : List Stmt} {cs : Bool} {idx : Nat}
    (h : positionOk cs idx (.act a :: rest) = true) :
    actInPlace a cs idx = true ∧ positionOk (csAfter a cs) (idxAfter a idx) rest = true :=
  Bool.and_eq_true_iff.1 h

/-- A state at a good position of a running operation meets `Inv`. -/
theorem inv_running {s : State} {rest : List Stmt} (hbusy : s.status.busy = true)
    (hcode : s.status.code = .ok ∧ s.status.done = false) (hpos : positionOk s.cs s.seq.idx.toNat rest = true)
    (hmem : Memory.wf s.mem = true) : Inv (continueWith rest s) where
  busy_iff := ⟨fun _ h => Phase.noConfusion h, fun _ => hbusy⟩
  idle_cs h := absurd (hbusy.symm.trans h) (by decide)
  position _ h := Phase.running.inj h ▸ hpos
  busy_code _ := hcode
  ending h := absurd (hbusy.symm.trans h) (by decide)
  idle_ack h := absurd (hbusy.symm.trans h) (by decide)
  memory := hmem

/-- An idle state with chip-select deasserted, a legal code and stage and no acknowledgment byte meets `Inv`. -/
theorem inv_idle {s : State} (hbusy : s.status.busy = false) (hphase : s.seq.phase = .idle) (hcs : s.cs = false)
    (hend : legalEnding s.status.code s.status.stage = true) (hack : s.seq.ack = noAck)
    (hmem : Memory.wf s.mem = true) : Inv s where
  busy_iff := by simp [hbusy, hphase]
  idle_cs _ := hcs
  position rest h := by simp [hphase] at h
  busy_code h := by simp [hbusy] at h
  ending _ := hend
  idle_ack _ := hack
  memory := hmem

theorem Completes.inv {s t : State} (h : Completes s t) (hcs : s.cs = false) (hmem : Memory.wf s.mem = true) :
    Inv t :=
  inv_idle h.busy h.phase (h.cs hcs) h.ending h.ack (h.memory hmem)

/-- `Inv` looks at nothing but the sequencer, chip-select, the buffers and STATUS without OVR. -/
theorem Inv.congr {s t : State} (h : Inv s) (hseq : t.seq = s.seq) (hcs : t.cs = s.cs)
    (hstatus : t.status = { s.status with ovr := t.status.ovr }) (hmem : Memory.wf t.mem = true) : Inv t where
  busy_iff := by
    rw [hstatus, hseq]
    exact h.busy_iff
  idle_cs := by
    rw [hstatus, hcs]
    exact h.idle_cs
  position := by
    rw [hseq, hcs]
    exact h.position
  busy_code := by
    rw [hstatus]
    exact h.busy_code
  ending := by
    rw [hstatus]
    exact h.ending
  idle_ack := by
    rw [hstatus, hseq]
    exact h.idle_ack
  memory := hmem

/-- The statement at the position of a state that meets `Inv` leaves one that meets it (R42, R73, R253). -/
theorem inv_runStmt {s : State} (h : Inv s) {st : Stmt} {rest : List Stmt} (hp : s.seq.phase = .running (st :: rest)) :
    Inv (runStmt st rest s) := by
  have hbusy : s.status.busy = true := h.busy_iff.2 (by simp [hp])
  have hcode := h.busy_code hbusy
  have hpos := h.position _ hp
  have hmem := h.memory
  cases st with
  | dispatch =>
    have hcs : s.cs = false := by simpa using (Bool.and_eq_true_iff.1 hpos).1
    simp only [runStmt, dispatchStep]
    split
    · exact (completes_finish_self s rfl).inv hcs hmem
    · rename_i i hi
      exact inv_running hbusy hcode (hcs ▸ positionOk_operationCode s.params (decode_wf hi) _) hmem
  | act a =>
    obtain ⟨hplace, hrest⟩ := positionOk_act hpos
    obtain ⟨-, -, -, -, -, -, hb, hd, -, hc⟩ := runAct_frame a s
    refine inv_running (hb.trans hbusy) ⟨hc.trans hcode.1, hd.trans hcode.2⟩ ?_ (runAct_wf ?_ hmem)
    · rwa [(runAct_csStage a s).1, runAct_idx hplace]
    · rintro rfl
      exact of_decide_eq_true hplace
  | lengthGate n max =>
    obtain ⟨hcs, hrest⟩ := Bool.and_eq_true_iff.1 hpos
    refine inv_running hbusy hcode ?_ hmem
    split
    · exact hrest
    · simpa [positionOk, legalEnding] using hcs
  | pollHead stage =>
    simp only [positionOk, Bool.and_eq_true, Bool.not_eq_true'] at hpos
    obtain ⟨⟨hcs, hstage⟩, hrest⟩ := hpos
    refine inv_running hbusy hcode ?_ hmem
    rw [hcs] at hrest ⊢
    split
    · simpa [failCode, positionOk, actInPlace, csAfter] using hstage
    · simpa [straight, pollFrameCode, positionOk, actInPlace, csAfter, idxAfter] using ⟨hstage, hrest⟩
  | pollTest stage =>
    simp only [positionOk, Bool.and_eq_true, Bool.not_eq_true'] at hpos
    obtain ⟨⟨hcs, hstage⟩, hrest⟩ := hpos
    refine inv_running hbusy hcode ?_ hmem
    rw [hcs] at hrest ⊢
    split
    · exact hrest
    · simpa [straight, pollMissCode, positionOk, actInPlace, csAfter, idxAfter] using ⟨hstage, hrest⟩
  | ackGate stage =>
    simp only [positionOk, Bool.and_eq_true, Bool.not_eq_true'] at hpos
    obtain ⟨⟨hcs, hstage⟩, hrest⟩ := hpos
    refine inv_running hbusy hcode ?_ hmem
    rw [hcs] at hrest ⊢
    split
    · exact hrest
    · simpa [failCode, positionOk, actInPlace, csAfter] using hstage
  | finish code stage =>
    simp only [positionOk, Bool.and_eq_true, Bool.not_eq_true'] at hpos
    obtain ⟨⟨hcs, -⟩, hend⟩ := hpos
    exact (completes_finish_self s hend).inv hcs hmem

theorem inv_seqStep {s : State} (h : Inv s) : Inv (seqStep s) := by
  unfold seqStep
  split
  · exact h
  · exact h
  · rename_i st rest hp
    exact inv_runStmt h hp

/-! ### The other turns -/

theorem inv_accept {s : State} (h : Inv s) (hidle : s.status.busy = false) (w : Word) : Inv (accept w s) := by
  have hpos : positionOk s.cs s.seq.idx.toNat [.dispatch] = true := by simp [positionOk, h.idle_cs hidle]
  exact inv_running (s := accept w s) rfl ⟨rfl, rfl⟩ hpos h.memory

theorem inv_hostStep {s t : State} (h : Inv s) (ht : hostStep s = .next t) : Inv t := by
  obtain ⟨width, off, e, u, -, hw, rfl⟩ | ⟨d, a, rfl⟩ := hostStep_cases ht
  · have hu : Inv u := by
      obtain ⟨-, rfl⟩ | ⟨hidle, rfl⟩ | rfl | ⟨-, m, rfl, hm⟩ := hostWrite_cases hw
      · exact h.congr rfl rfl rfl h.memory
      · exact inv_accept h hidle _
      · exact h.congr rfl rfl rfl h.memory
      · exact h.congr rfl rfl rfl (hm h.memory)
    exact hu.congr rfl rfl rfl hu.memory
  · exact h.congr rfl rfl rfl h.memory

/-- A just accepted operation has chip-select deasserted, so run whole it leaves an idle good state. -/
theorem inv_operationTurn {s t : State} (h : Inv s) (hp : s.seq.phase = .running [.dispatch])
    (ht : operationTurn s = .next t) : Inv t := by
  have hcs : s.cs = false := by simpa using (Bool.and_eq_true_iff.1 (h.position _ hp)).1
  exact (operationTurn_completes ht).inv hcs h.memory

theorem inv_resetInput (s : State) : Inv (resetInput s) := inv_idle rfl rfl rfl rfl rfl rfl

/-- Settles O53: every kind of turn keeps `Inv`, which does not look at the schedule. -/
theorem everyStepKeepsInv : Obligations.EveryStepKeepsInv := by
  intro s t hs h
  exact step_keeps (fun s r hs => hs.congr rfl rfl rfl hs.memory) (fun s t => inv_hostStep) (fun s => inv_seqStep)
    (fun s t => inv_operationTurn) (fun s _ => inv_resetInput s) hs h

/-- Settles O52: the state after reset is idle with STAGE 0 and chip-select deasserted. -/
theorem resetStateSatisfiesInv : Obligations.ResetStateSatisfiesInv := by
  refine ⟨inv_idle rfl rfl rfl rfl rfl reset_wf, fun _ => ⟨rfl, fun rest h => ?_⟩, fun _ rest h => ?_, rfl, rfl⟩
  · cases h
  · cases h

end Sys2Proof.Machine
end

section
/-! PROOF. STAGE outside exchanges and in them (O54): the stage every statement of an operation belongs to, and what each turn
does to the two stage predicates. -/

namespace Sys2Proof.Machine

/-! ### Straight-line code that belongs to one stage -/

/-- The straight-line code belongs to the exchange stage `k` and writes no other (R39). -/
def StaysIn (k : Stage) (l : List Act) : Prop := ∀ a ∈ l, actInStage a k = true ∧ stageAfter a k = k

theorem StaysIn.append {k : Stage} {l l' : List Act} (h : StaysIn k l) (h' : StaysIn k l') : StaysIn k (l ++ l') :=
  fun a ha => (List.mem_append.1 ha).elim (h a) (h' a)

theorem staysIn_indexLoop {k : Stage} {a : Act} (hidx : ∀ i, actInStage (.setIdx i) k = true)
    (ha : actInStage a k = true ∧ stageAfter a k = k) (n : Nat) :
    StaysIn k ((List.range n).flatMap fun i => [.setIdx i, a]) := by
  intro b hb
  obtain ⟨i, -, hb⟩ := List.mem_flatMap.1 hb
  obtain rfl | rfl : b = .setIdx i ∨ b = a := by simpa using hb
  · exact ⟨hidx i, rfl⟩
  · exact ha

theorem staysIn_writeFrame (p : Params) (src : CmdSource) (n : Nat) :
    StaysIn .frameWrite (writeFrameCode p src n) := by
  refine (StaysIn.append ?_ (staysIn_indexLoop (fun _ => rfl) ⟨rfl, rfl⟩ n)).append ?_ <;>
    simp [StaysIn, actInStage, stageAfter]

theorem staysIn_readFrame (p : Params) (n : Nat) : StaysIn .responseRead (readFrameCode p n) := by
  refine (StaysIn.append ?_ (staysIn_indexLoop (fun _ => rfl) ⟨rfl, rfl⟩ n)).append ?_ <;>
    simp [StaysIn, actInStage, stageAfter]

theorem staysIn_ackFrame (p : Params) : StaysIn .ackCheck (ackFrameCode p) := by
  simp [StaysIn, ackFrameCode, actInStage, stageAfter]

theorem isPollStage_ne_none {k : Stage} (hk : isPollStage k = true) : (k != .none) = true := by
  cases k with
  | poll1 | poll2 => rfl
  | none | frameWrite | ackCheck | responseRead => cases hk

theorem staysIn_pollFrame {k : Stage} (hk : isPollStage k = true) (p : Params) : StaysIn k (pollFrameCode p) := by
  simp [StaysIn, pollFrameCode, actInStage, stageAfter, hk, isPollStage_ne_none hk]

theorem staysIn_pollMiss {k : Stage} (hk : isPollStage k = true) : StaysIn k pollMissCode := by
  simp [StaysIn, pollMissCode, actInStage, stageAfter, hk, isPollStage_ne_none hk]

/-- A statement that belongs to a stage and writes no other writes none at all. -/
theorem stageFree_of_stays {k : Stage} {a : Act} (h : actInStage a k = true) (h' : stageAfter a k = k) :
    stageFree (.act a) = true := by
  cases a with
  | setStage j =>
    obtain rfl : j = k := h'
    cases j <;> cases h
  | _ => rfl

theorem StaysIn.straight_stageFree {k : Stage} {l : List Act} (h : StaysIn k l) : (straight l).all stageFree = true := by
  rw [straight, List.all_map, List.all_eq_true]
  exact fun a ha => stageFree_of_stays (h a ha).1 (h a ha).2

theorem StaysIn.straight_stageOk {k last : Stage} {l : List Act} (h : StaysIn k l) {rest : List Stmt}
    (hrest : stageOk last k rest = true) : stageOk last k (straight l ++ rest) = true := by
  induction l with
  | nil => exact hrest
  | cons a l ih =>
    obtain ⟨hin, hkeep⟩ := h a List.mem_cons_self
    have htail := ih fun b hb => h b (List.mem_cons_of_mem a hb)
    change (actInStage a k && stageOk last (stageAfter a k) (straight l ++ rest)) = true
    rw [hin, hkeep, htail]
    rfl

/-! ### Operations that are no exchange -/

theorem decode_opcode {w : Word} {i : Instr} (h : decode w = .ok i) : opcField w = i.opcode := by
  unfold decode at h
  split at h
  · cases h
  · split at h <;> cases h <;> rename_i hopc <;> exact BitVec.eq_of_toNat_eq hopc

/-- What is left to run of an operation that is no exchange writes no stage (R39). -/
theorem operationCode_stageFree (p : Params) {i : Instr} (hex : ∀ n b, i ≠ .execute n b) (hfw : i ≠ .getFw) :
    (operationCode p i).all stageFree = true := by
  cases i with
  | writeCmd n => simp [operationCode, stageFree, (staysIn_writeFrame p .cmdBuf n).straight_stageFree]
  | readData n => simp [operationCode, stageFree, (staysIn_readFrame p n).straight_stageFree]
  | execute n b => exact absurd rfl (hex n b)
  | getFw => exact absurd rfl hfw
  | _ => rfl

/-- A word that is no exchange's decodes to no exchange. -/
theorem decode_not_exchange {w : Word} {i : Instr} (h : decode w = .ok i) (hw : isExchangeWord w = false) :
    (∀ n b, i ≠ .execute n b) ∧ i ≠ .getFw := by
  rw [isExchangeWord, decode_opcode h] at hw
  constructor
  · rintro n b rfl
    cases hw
  · rintro rfl
    cases hw

/-- STAGE is 0 and no statement left to run writes another (what `StageConfined` says of an operation that is no
exchange). -/
def Confined (s : State) : Prop :=
  s.status.stage = .none ∧ ∀ rest, s.seq.phase = .running rest → rest.all stageFree = true

theorem confined_running {s : State} {rest : List Stmt} (hs : s.status.stage = .none)
    (hrest : rest.all stageFree = true) : Confined (continueWith rest s) :=
  ⟨hs, fun _ h => Phase.running.inj h ▸ hrest⟩

theorem confined_idle {s : State} (hs : s.status.stage = .none) (hp : s.seq.phase = .idle) : Confined s :=
  ⟨hs, fun rest h => by simp [hp] at h⟩

theorem confined_runStmt {s : State} {st : Stmt} {rest : List Stmt} (hw : isExchangeWord s.seq.opw = false)
    (hs : s.status.stage = .none) (hfree : (st :: rest).all stageFree = true) : Confined (runStmt st rest s) := by
  rw [List.all_cons, Bool.and_eq_true] at hfree
  obtain ⟨hst, hrest⟩ := hfree
  cases st with
  | dispatch =>
    simp only [runStmt, dispatchStep]
    split
    · exact confined_idle rfl rfl
    · rename_i i hi
      obtain ⟨hex, hfw⟩ := decode_not_exchange hi hw
      exact confined_running hs (operationCode_stageFree _ hex hfw)
  | act a =>
    refine confined_running ?_ hrest
    rw [(runAct_csStage a s).2, hs]
    cases a with
    | setStage k => exact eq_of_beq hst
    | _ => rfl
  | lengthGate n max =>
    refine confined_running hs ?_
    split
    · exact hrest
    · rfl
  | pollHead stage =>
    obtain rfl : stage = .none := eq_of_beq hst
    refine confined_running hs ?_
    split
    · rfl
    · rw [List.all_append, List.all_cons, hrest]
      rfl
  | pollTest stage =>
    obtain rfl : stage = .none := eq_of_beq hst
    refine confined_running hs ?_
    split
    · exact hrest
    · rw [List.all_append, List.all_cons, hrest]
      rfl
  | ackGate stage =>
    obtain rfl : stage = .none := eq_of_beq hst
    refine confined_running hs ?_
    split
    · exact hrest
    · rfl
  | finish code stage =>
    obtain rfl : stage = .none := eq_of_beq hst
    exact confined_idle rfl rfl

theorem stageConfined_seqStep {s : State} (h : StageConfined s) : StageConfined (seqStep s) := by
  intro hw
  rw [(seqStep_frame s).2.1] at hw
  obtain ⟨hs, hfree⟩ := h hw
  unfold seqStep
  split
  · exact ⟨hs, hfree⟩
  · exact ⟨hs, hfree⟩
  · rename_i st rest hp
    exact confined_runStmt hw hs (hfree _ hp)

theorem stageConfined_operationTurn {s t : State} (ht : operationTurn s = .next t) : StageConfined t := by
  intro hw
  have hc := operationTurn_completes ht
  rw [hc.opw] at hw
  obtain rfl | ⟨i, hi, he⟩ := operationTurn_cases ht
  · exact confined_idle rfl rfl
  · obtain ⟨hex, hfw⟩ := decode_not_exchange hi hw
    exact confined_idle (he.stage_eq_none hex hfw) hc.phase

/-- A host line accepts an operation word, or leaves the sequencer and STAGE as they are (R72, R102). -/
theorem hostStep_accepts {s t : State} (h : hostStep s = .next t) :
    (t.status.stage = .none ∧ t.seq.phase = .running [.dispatch]) ∨
      (t.status.stage = s.status.stage ∧ t.seq = s.seq) := by
  obtain ⟨width, off, e, u, -, hw, rfl⟩ | ⟨d, a, rfl⟩ := hostStep_cases h
  · obtain ⟨-, rfl⟩ | ⟨-, rfl⟩ | rfl | ⟨-, m, rfl, -⟩ := hostWrite_cases hw
    · exact .inr ⟨rfl, rfl⟩
    · exact .inl ⟨rfl, rfl⟩
    · exact .inr ⟨rfl, rfl⟩
    · exact .inr ⟨rfl, rfl⟩
  · exact .inr ⟨rfl, rfl⟩

theorem stageConfined_hostStep {s t : State} (h : StageConfined s) (ht : hostStep s = .next t) : StageConfined t := by
  unfold StageConfined
  obtain ⟨hs, hp⟩ | ⟨hs, hq⟩ := hostStep_accepts ht
  · intro _
    refine ⟨hs, fun rest hr => ?_⟩
    rw [hp] at hr
    cases hr
    rfl
  · rw [hs, hq]
    exact h

/-! ### Exchanges -/

theorem stageOk_setStage {last k k' : Stage} (hnext : nextStage k = some k') {rest : List Stmt}
    (hrest : stageOk last k' rest = true) : stageOk last k (.act (.setStage k') :: rest) = true := by
  simp [stageOk, actInStage, stageAfter, hnext, hrest]

theorem stageOk_poll {k last : Stage} (hk : isPollStage k = true) (b : Half) {rest : List Stmt}
    (hrest : stageOk last k rest = true) : stageOk last k (pollCode b k ++ rest) = true := by
  simp [pollCode, stageOk, actInStage, stageAfter, hk, hrest]

theorem stageOk_ack {last : Stage} (p : Params) {rest : List Stmt} (hrest : stageOk last .ackCheck rest = true) :
    stageOk last .ackCheck (ackCode p .ackCheck ++ rest) = true := by
  rw [ackCode, List.append_assoc]
  exact (staysIn_ackFrame p).straight_stageOk hrest

/-- An exchange started with STAGE 0 shows stages 1 to 4 in turn, and what follows it starts in stage 4 (R220). -/
theorem stageOk_exchange {last : Stage} (p : Params) (src : CmdSource) (n : Nat) (b : Half) {rest : List Stmt}
    (hrest : stageOk last .poll2 rest = true) :
    stageOk last .none (exchangeCode p src n b ++ rest) = true := by
  simp only [exchangeCode, List.append_assoc, List.cons_append]
  exact stageOk_setStage rfl ((staysIn_writeFrame p src n).straight_stageOk
    (stageOk_setStage rfl (stageOk_poll rfl b (stageOk_setStage rfl (stageOk_ack p
      (stageOk_setStage rfl (stageOk_poll rfl b hrest)))))))

theorem stageOk_execute (p : Params) (n b : Nat) : stageOk .poll2 .none (operationCode p (.execute n b)) = true :=
  stageOk_exchange p .cmdBuf n _ rfl

theorem stageOk_getFw (p : Params) : stageOk .responseRead .none (operationCode p .getFw) = true :=
  stageOk_exchange p .firmware 1 _ (stageOk_setStage rfl ((staysIn_readFrame p Config.fwRspLen).straight_stageOk rfl))

/-- After Dispatch, the statements of an exchange agree with STAGE 0 (R39). -/
theorem stageOk_operationCode (p : Params) {w : Word} {i : Instr} (h : decode w = .ok i)
    (hw : isExchangeWord w = true) : stageOk (lastStage w) .none (operationCode p i) = true := by
  rw [isExchangeWord, decode_opcode h] at hw
  rw [lastStage, decode_opcode h]
  cases i with
  | execute n b => exact stageOk_execute p n b
  | getFw => exact stageOk_getFw p
  | _ => cases hw

/-- The statements left to run agree with the stage shown (what `StageShown` says of an exchange whose last stage is
`last`). -/
def Shows (last : Stage) (s : State) : Prop :=
  ∀ rest, s.seq.phase = .running rest → stageOk last s.status.stage rest = true

theorem shows_running {last : Stage} {s : State} {rest : List Stmt} (h : stageOk last s.status.stage rest = true) :
    Shows last (continueWith rest s) :=
  fun _ hr => Phase.running.inj hr ▸ h

theorem shows_idle {last : Stage} {s : State} (h : s.seq.phase = .idle) : Shows last s :=
  fun rest hr => by simp [h] at hr

/-- A failed gate's statements agree with the stage in progress, whose number its Finish writes. -/
theorem stageOk_failCode {last k : Stage} {code : Code} (hk : (k != .none) = true) (hcode : code ≠ .ok) :
    stageOk last k (failCode code k) = true := by
  simp [failCode, stageOk, actInStage, stageAfter, hk, hcode]

theorem shows_runStmt {s : State} {st : Stmt} {rest : List Stmt} (hw : isExchangeWord s.seq.opw = true)
    (h : stageOk (lastStage s.seq.opw) s.status.stage (st :: rest) = true) :
    Shows (lastStage s.seq.opw) (runStmt st rest s) := by
  cases st with
  | dispatch =>
    have hs : s.status.stage = .none := eq_of_beq (Bool.and_eq_true_iff.1 h).1
    simp only [runStmt, dispatchStep]
    split
    · exact shows_idle rfl
    · rename_i i hi
      exact shows_running (hs ▸ stageOk_operationCode s.params hi hw)
  | act a =>
    have hrest := (Bool.and_eq_true_iff.1 h).2
    rw [← (runAct_csStage a s).2] at hrest
    exact shows_running hrest
  | lengthGate n max =>
    obtain ⟨hs, hrest⟩ := Bool.and_eq_true_iff.1 h
    refine shows_running ?_
    split
    · exact hrest
    · rw [eq_of_beq hs]
      rfl
  | pollHead stage =>
    simp only [stageOk, Bool.and_eq_true] at h
    obtain ⟨⟨hk, hs⟩, hrest⟩ := h
    obtain rfl : stage = s.status.stage := eq_of_beq hs
    refine shows_running ?_
    split
    · exact stageOk_failCode (isPollStage_ne_none hk) (by decide)
    · refine (staysIn_pollFrame hk s.params).straight_stageOk ?_
      simp [stageOk, hk, hrest]
  | pollTest stage =>
    simp only [stageOk, Bool.and_eq_true] at h
    obtain ⟨⟨hk, hs⟩, hrest⟩ := h
    obtain rfl : stage = s.status.stage := eq_of_beq hs
    refine shows_running ?_
    split
    · exact hrest
    · refine (staysIn_pollMiss hk).straight_stageOk ?_
      simp [stageOk, hk, hrest]
  | ackGate stage =>
    simp only [stageOk, Bool.and_eq_true] at h
    obtain ⟨⟨hk, hs⟩, hrest⟩ := h
    obtain rfl : stage = s.status.stage := eq_of_beq hs
    refine shows_running ?_
    split
    · exact hrest
    · exact stageOk_failCode (by rw [eq_of_beq hk]; rfl) (by decide)
  | finish code stage => exact shows_idle rfl

theorem stageShown_seqStep {s : State} (h : StageShown s) : StageShown (seqStep s) := by
  intro hw
  rw [(seqStep_frame s).2.1] at hw ⊢
  have hs := h hw
  unfold seqStep
  split
  · exact hs
  · exact hs
  · rename_i st rest hp
    exact shows_runStmt hw (hs _ hp)

theorem stageShown_hostStep {s t : State} (h : StageShown s) (ht : hostStep s = .next t) : StageShown t := by
  unfold StageShown
  obtain ⟨hs, hp⟩ | ⟨hs, hq⟩ := hostStep_accepts ht
  · intro _ rest hr
    rw [hp] at hr
    cases hr
    rw [hs]
    rfl
  · rw [hs, hq]
    exact h

theorem stageShown_operationTurn {s t : State} (ht : operationTurn s = .next t) : StageShown t :=
  fun _ => shows_idle (operationTurn_completes ht).phase

/-- Settles O54: each kind of turn keeps the two stage predicates, which do not look at the schedule. -/
theorem everyStepKeepsStageConfined : Obligations.EveryStepKeepsStageConfined := by
  constructor
  · intro s t hs h
    exact step_keeps (fun s r hs => hs) (fun s t => stageConfined_hostStep) (fun s => stageConfined_seqStep)
      (fun s t _ _ => stageConfined_operationTurn) (fun s _ _ => confined_idle rfl rfl) hs h
  · intro s t hs h
    exact step_keeps (fun s r hs => hs) (fun s t => stageShown_hostStep) (fun s => stageShown_seqStep)
      (fun s t _ _ => stageShown_operationTurn) (fun s _ _ => shows_idle rfl) hs h

end Sys2Proof.Machine
end

section
/-! PROOF. The sequencer a statement at a time ends where an operation run whole ends (O11), and it neither reads nor
writes the schedule or OVR (O9, O48; 20_memory.md R73, R76). -/

namespace Sys2Proof.Machine

/-! ### The schedule and OVR do not touch the sequencer -/

/-- The state with another schedule and another OVR: the two things no sequencer step reads (R37, R73). -/
def withUnread (r : List Turn) (o : Bool) (s : State) : State :=
  { s with sched := r, status := { s.status with ovr := o } }

theorem readByteAt_withUnread (r : List Turn) (o : Bool) (s : State) (off : Nat) :
    (withUnread r o s).readByteAt off = ((s.readByteAt off).1, withUnread r o (s.readByteAt off).2) := by
  have hbyte : (withUnread r o s).byteAt off = s.byteAt off := rfl
  simp only [State.readByteAt, hbyte]
  cases s.byteAt off <;> rfl

theorem commandByte_withUnread (r : List Turn) (o : Bool) (src : CmdSource) (i : Nat) (s : State) :
    commandByte src i (withUnread r o s) = ((commandByte src i s).1, withUnread r o (commandByte src i s).2) := by
  cases src with
  | cmdBuf => exact readByteAt_withUnread r o s (cmdOffset i)
  | firmware => rfl

theorem runAct_withUnread (r : List Turn) (o : Bool) (a : Act) (s : State) :
    runAct a (withUnread r o s) = withUnread r o (runAct a s) := by
  cases a with
  | writeCommandByte src =>
    have hidx : (withUnread r o s).seq.idx = s.seq.idx := rfl
    simp only [runAct, writeCommandByte, hidx, commandByte_withUnread]
    rfl
  | packFirmware =>
    simp only [runAct, packFirmware, readByteAt_withUnread]
    rfl
  | _ => rfl

theorem runStmt_withUnread (r : List Turn) (o : Bool) (st : Stmt) (rest : List Stmt) (s : State) :
    runStmt st rest (withUnread r o s) = withUnread r o (runStmt st rest s) := by
  cases st with
  | dispatch =>
    have hopw : (withUnread r o s).seq.opw = s.seq.opw := rfl
    simp only [runStmt, dispatchStep, hopw]
    cases decode s.seq.opw <;> rfl
  | act a =>
    simp only [runStmt, runAct_withUnread]
    rfl
  | _ => rfl

/-- A sequencer step neither reads nor writes the schedule or OVR. -/
theorem seqStep_withUnread (r : List Turn) (o : Bool) (s : State) :
    seqStep (withUnread r o s) = withUnread r o (seqStep s) := by
  have hphase : (withUnread r o s).seq.phase = s.seq.phase := rfl
  simp only [seqStep, hphase]
  split
  · rfl
  · rfl
  · exact runStmt_withUnread r o _ _ s

theorem seqStep_sched (s : State) (r : List Turn) :
    seqStep { s with sched := r } = { seqStep s with sched := r } := by
  have hovr := (seqStep_frame s).2.2
  calc seqStep { s with sched := r }
      = withUnread r s.status.ovr (seqStep s) := seqStep_withUnread r s.status.ovr s
    _ = { seqStep s with sched := r } := by rw [← hovr]; rfl

/-- Settles O48: a step carries OVR and the schedule along. -/
theorem droppedWritesCommuteWithSequencerSteps : Obligations.DroppedWritesCommuteWithSequencerSteps := by
  intro s
  have hsched : (seqStep s).sched = s.sched := (congrArg State.sched (seqStep_sched s s.sched) :)
  calc seqStep (setOvr s)
      = withUnread s.sched true (seqStep s) := seqStep_withUnread s.sched true s
    _ = setOvr (seqStep s) := by rw [← hsched]; rfl

/-- Settles O9: the scheduled turn is the head of the list, and an `operation` turn looks at the phase. -/
theorem stepTakesTheScheduledTurn : Obligations.StepTakesTheScheduledTurn :=
  fun _ _ => ⟨rfl, rfl, rfl, fun hp => if_neg hp⟩

theorem goodRun_succ {k : Nat} {s u t : State} (h : step s = .next u) (hu : GoodRun k u t) :
    GoodRun (k + 1) s t := by
  have hcore : Sys2Proof.core.step s = .next u := h
  simp only [GoodRun, Host.Core.run, hcore]
  exact hu

/-- With k sequencer turns scheduled first, k steps of the machine are k sequencer steps in a row (R73). -/
theorem goodRun_seqRun (k : Nat) (s : State) (r : List Turn) :
    GoodRun k { s with sched := List.replicate k .sequencer ++ r } (seqRun k { s with sched := r }) := by
  induction k generalizing s with
  | zero => rfl
  | succ k ih =>
    have hstep : step { s with sched := List.replicate (k + 1) .sequencer ++ r } =
        .next { seqStep s with sched := List.replicate k .sequencer ++ r } := by
      rw [← seqStep_sched]
      rfl
    have hrun : seqRun (k + 1) { s with sched := r } = seqRun k { seqStep s with sched := r } := by
      rw [← seqStep_sched]
      rfl
    rw [hrun]
    exact goodRun_succ hstep (ih (seqStep s))

/-! ### Runs of the sequencer -/

/-- Some number of sequencer steps in a row leads from one state to the other. -/
def Reaches (s t : State) : Prop := ∃ k, seqRun k s = t

theorem Reaches.trans {s t u : State} (h : Reaches s t) (h' : Reaches t u) : Reaches s u := by
  obtain ⟨j, rfl⟩ := h
  obtain ⟨k, rfl⟩ := h'
  exact ⟨j + k, seqRun_add j k s⟩

theorem reaches_seqStep (s : State) : Reaches s (seqStep s) := ⟨1, rfl⟩

theorem reaches_straight (l : List Act) (rest : List Stmt) (s : State) :
    Reaches (continueWith (straight l ++ rest) s) (continueWith rest (runActs l s)) :=
  ⟨l.length, seqRun_straight l rest s⟩

theorem reaches_act (a : Act) (rest : List Stmt) (s : State) :
    Reaches (continueWith (.act a :: rest) s) (continueWith rest (runAct a s)) :=
  reaches_straight [a] rest s

theorem reaches_finish (code : Code) (stage : Stage) (s : State) :
    Reaches (continueWith [.finish code stage] s) (finish code stage s) :=
  reaches_seqStep (continueWith [.finish code stage] s)

/-- The end of most operations: RESULT written, then Finish with OK. -/
theorem reaches_setResult_finish (v : Word) (s : State) :
    Reaches (continueWith [.act (.setResult v), .finish .ok .none] s) (finish .ok .none (setResult v s)) :=
  (reaches_act (.setResult v) _ s).trans (reaches_finish .ok .none _)

/-- A failed gate writes RESULT 0 and finishes (R194, R197, R222, R226). -/
theorem reaches_failCode (code : Code) (stage : Stage) (s : State) :
    Reaches (continueWith (failCode code stage) s) (finish code stage (setResult 0 s)) :=
  (reaches_act (.setResult 0) _ s).trans (reaches_finish code stage _)

/-- The length check (R165, R168, R222): on with the operation, or Finish with ARG_ERR. -/
theorem reaches_lengthGate {n max : Nat} {rest : List Stmt} {s t : State}
    (h : lengthLegal n max = true → Reaches (continueWith rest s) t) :
    Reaches (continueWith (.lengthGate n max :: rest) s)
      (if lengthLegal n max then t else finish .argErr .none s) := by
  have hgate : Reaches (continueWith (.lengthGate n max :: rest) s)
      (continueWith (if lengthLegal n max then rest else [.finish .argErr .none]) s) := reaches_seqStep _
  by_cases hn : lengthLegal n max = true
  · rw [if_pos hn] at hgate ⊢
    exact hgate.trans (h hn)
  · rw [if_neg hn] at hgate ⊢
    exact hgate.trans (reaches_finish .argErr .none s)

/-! ### The gates -/

/-- Where a gate leads that returned `r.1` and left the state `r.2` (R190, R195, R220): on to `rest`, or to RESULT 0 and
a Finish with its code and stage. -/
def afterGate (rest : List Stmt) (code : Code) (stage : Stage) (r : Bool × State) : State :=
  if r.1 then continueWith rest r.2 else finish code stage (setResult 0 r.2)

/-- What is reached once a gate has succeeded is reached from its outcome; failed, it has finished already. -/
theorem reaches_afterGate {rest : List Stmt} {code : Code} {stage : Stage} {r : Bool × State} {t : State}
    (h : Reaches (continueWith rest r.2) t) :
    Reaches (afterGate rest code stage r) (if r.1 then t else finish code stage (setResult 0 r.2)) := by
  unfold afterGate
  split
  · exact h
  · exact ⟨0, rfl⟩

/-- The poll loop (R190) with `SEQ.cnt` iterations left, a statement at a time. -/
theorem reaches_pollLoop (k : Nat) (stage : Stage) (rest : List Stmt) (s : State) (hk : s.seq.cnt.toNat = k) :
    Reaches (continueWith (.pollHead stage :: rest) s) (afterGate rest .timeout stage (pollLoop k s)) := by
  have hhead : Reaches (continueWith (.pollHead stage :: rest) s)
      (continueWith (if s.seq.cnt = 0 then failCode .timeout stage
        else straight (pollFrameCode s.params) ++ .pollTest stage :: rest) s) := reaches_seqStep _
  induction k generalizing s with
  | zero =>
    have h0 : s.seq.cnt = 0 := BitVec.eq_of_toNat_eq hk
    rw [if_pos h0] at hhead
    exact hhead.trans (reaches_failCode .timeout stage s)
  | succ k ih =>
    have h0 : s.seq.cnt ≠ 0 := fun h => by simp [h] at hk
    rw [if_neg h0] at hhead
    have hframe := hhead.trans (reaches_straight (pollFrameCode s.params) (.pollTest stage :: rest) s)
    have hcnt : (runActs (pollFrameCode s.params) s).seq.cnt = s.seq.cnt := by
      obtain ⟨x, -, e⟩ := pollFrame_spec s
      rw [e]
    have hloop : pollLoop (k + 1) s =
        if (runActs (pollFrameCode s.params) s).seq.st = (runActs (pollFrameCode s.params) s).params.ready
        then (true, runActs (pollFrameCode s.params) s)
        else pollLoop k (runActs pollMissCode (runActs (pollFrameCode s.params) s)) := rfl
    rw [hloop]
    generalize runActs (pollFrameCode s.params) s = u at hframe hcnt
    have htest : Reaches (continueWith (.pollTest stage :: rest) u)
        (continueWith (if u.seq.st = u.params.ready then rest
          else straight pollMissCode ++ .pollHead stage :: rest) u) := reaches_seqStep _
    have hu := hframe.trans htest
    by_cases hready : u.seq.st = u.params.ready
    · rw [if_pos hready] at hu ⊢
      exact hu
    · rw [if_neg hready] at hu ⊢
      have hleft : (runActs pollMissCode u).seq.cnt.toNat = k := by
        rw [pollMiss_spec, hcnt]
        bv_omega
      exact hu.trans ((reaches_straight pollMissCode (.pollHead stage :: rest) u).trans
        (ih (runActs pollMissCode u) hleft (reaches_seqStep _)))

/-- `PollReady(b)` (R190) a statement at a time. -/
theorem reaches_poll (b : Half) (stage : Stage) (rest : List Stmt) (s : State) :
    Reaches (continueWith (pollCode b stage ++ rest) s) (afterGate rest .timeout stage (pollReady b s)) :=
  (reaches_act (.setCnt b) (.pollHead stage :: rest) s).trans
    (reaches_pollLoop b.toNat stage rest (setCnt b s) rfl)

/-- `AckCheck()` (R195) a statement at a time. -/
theorem reaches_ack (stage : Stage) (rest : List Stmt) (s : State) :
    Reaches (continueWith (ackCode s.params stage ++ rest) s) (afterGate rest .nack stage (ackCheck s)) := by
  have hframe := reaches_straight (ackFrameCode s.params) (.ackGate stage :: rest) s
  have hcheck : ackCheck s = (ackMatches (runActs (ackFrameCode s.params) s), runActs (ackFrameCode s.params) s) := rfl
  rw [ackCode, List.append_assoc, hcheck]
  generalize runActs (ackFrameCode s.params) s = u at hframe
  have hgate : Reaches (continueWith (.ackGate stage :: rest) u)
      (continueWith (if ackMatches u then rest else failCode .nack stage) u) := reaches_seqStep _
  have hu := hframe.trans hgate
  by_cases hm : ackMatches u = true
  · simp only [afterGate, hm, if_true] at hu ⊢
    exact hu
  · simp only [afterGate, hm] at hu ⊢
    exact hu.trans (reaches_failCode .nack stage u)

/-! ### The exchange -/

@[simp] theorem pollReady_params (b : Half) (s : State) : (pollReady b s).2.params = s.params := by
  obtain ⟨xs, hit, -, -, -, e⟩ := pollReady_spec b s
  rw [e]

@[simp] theorem writeFrame_params (src : CmdSource) (n : Nat) (s : State) :
    (writeFrame src n s).params = s.params :=
  (runActs_frame (writeFrameCode s.params src n) s).1

/-- Where an exchange leads that returned `r` (R220, R222, R226): on to `rest`, or to RESULT 0 and Finish. -/
def afterExchange (rest : List Stmt) (r : ExchangeResult) : State :=
  if r.code = .ok then continueWith rest r.state else finish r.code r.stage (setResult 0 r.state)

/-- The second readiness poll, the exchange's last gate. -/
theorem reaches_exchangePoll2 (b : Half) (rest : List Stmt) (s : State) :
    Reaches (continueWith (.act (.setStage .poll2) :: pollCode b .poll2 ++ rest) s)
      (afterExchange rest (exchangePoll2 b s)) := by
  have hpoll := (reaches_act (.setStage .poll2) (pollCode b .poll2 ++ rest) s).trans
    (reaches_poll b .poll2 rest (setStage .poll2 s))
  have hout : afterExchange rest (exchangePoll2 b s) =
      afterGate rest .timeout .poll2 (pollReady b (setStage .poll2 s)) := by
    simp only [exchangePoll2, afterGate]
    split <;> rfl
  rw [hout]
  exact hpoll

/-- The acknowledgment check and the gate after it. -/
theorem reaches_exchangeAck (b : Half) (rest : List Stmt) (s : State) :
    Reaches (continueWith (.act (.setStage .ackCheck) :: ackCode s.params .ackCheck ++
      (.act (.setStage .poll2) :: pollCode b .poll2 ++ rest)) s) (afterExchange rest (exchangeAck b s)) := by
  have hack := (reaches_act (.setStage .ackCheck) _ s).trans (reaches_ack .ackCheck
    (.act (.setStage .poll2) :: pollCode b .poll2 ++ rest) (setStage .ackCheck s))
  have hout : afterExchange rest (exchangeAck b s) =
      if (ackCheck (setStage .ackCheck s)).1
      then afterExchange rest (exchangePoll2 b (ackCheck (setStage .ackCheck s)).2)
      else finish .nack .ackCheck (setResult 0 (ackCheck (setStage .ackCheck s)).2) := by
    simp only [exchangeAck]
    split <;> rfl
  rw [hout]
  exact hack.trans (reaches_afterGate (reaches_exchangePoll2 b rest _))

/-- The first readiness poll and the gates after it. -/
theorem reaches_exchangePoll1 (b : Half) (rest : List Stmt) (s : State) :
    Reaches (continueWith (.act (.setStage .poll1) :: pollCode b .poll1 ++
      (.act (.setStage .ackCheck) :: ackCode s.params .ackCheck ++
        (.act (.setStage .poll2) :: pollCode b .poll2 ++ rest))) s) (afterExchange rest (exchangePoll1 b s)) := by
  have hpoll := (reaches_act (.setStage .poll1) _ s).trans (reaches_poll b .poll1
    (.act (.setStage .ackCheck) :: ackCode s.params .ackCheck ++
      (.act (.setStage .poll2) :: pollCode b .poll2 ++ rest)) (setStage .poll1 s))
  have hack := reaches_exchangeAck b rest (pollReady b (setStage .poll1 s)).2
  rw [pollReady_params, setStage_params] at hack
  have hout : afterExchange rest (exchangePoll1 b s) =
      if (pollReady b (setStage .poll1 s)).1
      then afterExchange rest (exchangeAck b (pollReady b (setStage .poll1 s)).2)
      else finish .timeout .poll1 (setResult 0 (pollReady b (setStage .poll1 s)).2) := by
    simp only [exchangePoll1]
    split <;> rfl
  rw [hout]
  exact hpoll.trans (reaches_afterGate hack)

/-- `Exchange(src, n, b)` (R220) a statement at a time. -/
theorem reaches_exchange (src : CmdSource) (n : Nat) (b : Half) (rest : List Stmt) (s : State) :
    Reaches (continueWith (exchangeCode s.params src n b ++ rest) s)
      (afterExchange rest (exchange src n b s)) := by
  have hstage := reaches_act (.setStage .frameWrite) (straight (writeFrameCode s.params src n) ++
    (.act (.setStage .poll1) :: pollCode b .poll1 ++ (.act (.setStage .ackCheck) :: ackCode s.params .ackCheck ++
      (.act (.setStage .poll2) :: pollCode b .poll2 ++ rest)))) s
  have hwrite := hstage.trans (reaches_straight (writeFrameCode s.params src n) _ _)
  have hgates := reaches_exchangePoll1 b rest (writeFrame src n (setStage .frameWrite s))
  rw [writeFrame_params, setStage_params] at hgates
  have hcode : exchangeCode s.params src n b ++ rest = .act (.setStage .frameWrite) ::
      (straight (writeFrameCode s.params src n) ++ (.act (.setStage .poll1) :: pollCode b .poll1 ++
        (.act (.setStage .ackCheck) :: ackCode s.params .ackCheck ++
          (.act (.setStage .poll2) :: pollCode b .poll2 ++ rest)))) := by
    simp [exchangeCode]
  rw [hcode]
  exact hwrite.trans hgates

/-- What is reached once an exchange has succeeded is reached from its outcome; failed, it has finished already. -/
theorem reaches_afterExchange {rest : List Stmt} {r : ExchangeResult} {t : State}
    (h : Reaches (continueWith rest r.state) t) :
    Reaches (afterExchange rest r) (if r.code = .ok then t else finish r.code r.stage (setResult 0 r.state)) := by
  unfold afterExchange
  split
  · exact h
  · exact ⟨0, rfl⟩

/-- An exchange that succeeds returns stage 0 (R220). -/
theorem exchange_stage_of_ok {src : CmdSource} {n : Nat} (hn : n ≤ 65536) {b : Half} {s : State}
    (h : (exchange src n b s).code = .ok) : (exchange src n b s).stage = .none := by
  obtain ⟨_, _, e, _, _, _, -, -, -, -, -, ho, -, hc, hk, -⟩ := exchange_spec src n hn b s
  have hend := ho.legal
  rw [← hc, ← hk, h] at hend
  exact eq_of_beq hend

theorem exchange_params {src : CmdSource} {n : Nat} (hn : n ≤ 65536) (b : Half) (s : State) :
    (exchange src n b s).state.params = s.params := by
  obtain ⟨_, _, _, _, _, _, -, -, -, -, -, -, -, -, -, e⟩ := exchange_spec src n hn b s
  rw [e]

/-! ### The operations -/

/-- EXECUTE past its length check (R222) a statement at a time. -/
theorem reaches_executeExchange {n : Nat} (hn : n ≤ 65536) (b : Nat) (s : State) :
    Reaches (continueWith (exchangeCode s.params .cmdBuf n (BitVec.ofNat 16 b) ++
      [.act (.setResult 1), .finish .ok .none]) s) (executeExchange n b s) := by
  have hex := (reaches_exchange .cmdBuf n (BitVec.ofNat 16 b) [.act (.setResult 1), .finish .ok .none] s).trans
    (reaches_afterExchange (reaches_setResult_finish 1 _))
  simp only [executeExchange]
  by_cases hok : (exchange .cmdBuf n (BitVec.ofNat 16 b) s).code = .ok
  · rw [if_pos hok] at hex ⊢
    rw [hok, exchange_stage_of_ok hn hok]
    exact hex
  · rw [if_neg hok] at hex ⊢
    exact hex

/-- The response read of GET_FW (R226) a statement at a time, RESULT packed after it. -/
theorem reaches_firmwareResponse (s : State) :
    Reaches (continueWith (.act (.setStage .responseRead) :: (straight (readFrameCode s.params Config.fwRspLen) ++
      [.act .packFirmware, .finish .ok .none])) s)
      (finish .ok .none (packFirmware (readFrame Config.fwRspLen (setStage .responseRead s)))) :=
  ((reaches_act (.setStage .responseRead) _ s).trans (reaches_straight _ _ (setStage .responseRead s))).trans
    ((reaches_act .packFirmware _ _).trans (reaches_finish .ok .none _))

/-- Past Dispatch, the statements of an operation end where the operation run whole ends (R229). -/
theorem reaches_exec (i : Instr) (s : State) :
    ∃ t, exec i s = .next t ∧ Reaches (continueWith (operationCode s.params i) s) t := by
  cases i with
  | bitrev v => exact ⟨_, rfl, reaches_setResult_finish _ s⟩
  | xferWr v => exact ⟨_, rfl, (reaches_act (.write v) _ s).trans (reaches_finish .ok .none _)⟩
  | xferRd => exact ⟨_, rfl, (reaches_act .readResult _ s).trans (reaches_finish .ok .none _)⟩
  | writeCmd n =>
    exact ⟨_, rfl, reaches_lengthGate fun _ =>
      (reaches_straight (writeFrameCode s.params .cmdBuf n) _ s).trans (reaches_finish .ok .none _)⟩
  | readData n =>
    exact ⟨_, rfl, reaches_lengthGate fun _ =>
      (reaches_straight (readFrameCode s.params n) _ s).trans (reaches_finish .ok .none _)⟩
  | waitReady b =>
    exact ⟨_, rfl, (reaches_poll (BitVec.ofNat 16 b) .none _ s).trans
      (reaches_afterGate (reaches_setResult_finish 1 _))⟩
  | checkAck =>
    exact ⟨_, rfl, (reaches_ack .none _ s).trans (reaches_afterGate (reaches_setResult_finish 1 _))⟩
  | execute n b =>
    exact ⟨_, rfl, reaches_lengthGate fun hn =>
      reaches_executeExchange (Nat.le_trans (lengthLegal_le hn) (by decide)) b s⟩
  | getFw =>
    have hresponse := reaches_firmwareResponse (exchange .firmware 1 s.params.fwBudget s).state
    rw [exchange_params (by decide)] at hresponse
    have hex := (reaches_exchange .firmware 1 s.params.fwBudget _ s).trans (reaches_afterExchange hresponse)
    exact ⟨_, rfl, hex⟩

/-- Settles O11: Dispatch goes on to the operation's statements, whose run ends where `exec` does. -/
theorem sequencerStepsRefineExec : Obligations.SequencerStepsRefineExec := by
  intro s i r hp hi
  obtain ⟨t, ht, hreach⟩ := reaches_exec i { s with sched := r }
  have hdispatch : seqStep { s with sched := r } =
      continueWith (operationCode s.params i) { s with sched := r } := by
    simp only [seqStep, hp, runStmt, dispatchStep, hi]
  obtain ⟨k, hk⟩ := (reaches_seqStep { s with sched := r }).trans (hdispatch ▸ hreach)
  exact ⟨k, t, ht, hk ▸ goodRun_seqRun k s r⟩

end Sys2Proof.Machine
end

section
/-! PROOF. Host accesses (20_memory.md R71 to R81): which are performed, what each reads and stores, and that none touches
a running operation (O37, O38, O41 to O45, O47). -/

namespace Sys2Proof.Machine

/-! ### Which accesses are performed -/

theorem regionOf_cmdBuf {off : Nat} (hlo : 0x100 ≤ off) (hhi : off < 0x200) : regionOf off = .cmdBuf := by
  rw [regionOf, if_neg (by omega), if_neg (by omega), if_neg (by omega), if_neg (by omega), if_pos hhi]

theorem regionOf_rspBuf {off : Nat} (hlo : 0x200 ≤ off) (hhi : off < 0x300) : regionOf off = .rspBuf := by
  rw [regionOf, if_neg (by omega), if_neg (by omega), if_neg (by omega), if_neg (by omega), if_neg (by omega),
    if_pos hhi]

/-- A host read is performed exactly where the window permits it (R71, R255). -/
theorem hostRead_isSome (width off : Nat) (s : State) : (hostRead width off s).isSome = readPermitted width off := by
  unfold hostRead
  cases hp : readPermitted width off with
  | false => rfl
  | true =>
    unfold readPermitted at hp
    cases hr : regionOf off with
    | status | result | cmdBuf | rspBuf => rfl
    | op | reserved =>
      rw [hr] at hp
      cases hp

/-- A host write is performed exactly where the window permits it (R71, R255). -/
theorem hostWrite_isSome (width off : Nat) (v : Word) (s : State) :
    (hostWrite width off v s).isSome = writePermitted width off := by
  unfold hostWrite
  cases hp : writePermitted width off with
  | false => rfl
  | true =>
    unfold writePermitted at hp
    cases hr : regionOf off with
    | op | status | cmdBuf => rfl
    | result | rspBuf | reserved =>
      rw [hr] at hp
      cases hp

/-- A load is performed exactly where the window permits the read; any other faults (R255). -/
theorem runHostStmt_load (width off name : Nat) (s : State) :
    if readPermitted width off then ∃ t, runHostStmt (.load width off name) s = .next t
    else runHostStmt (.load width off name) s = .fault (.hostAccess off width false) := by
  rw [← hostRead_isSome width off s]
  cases h : hostRead width off s with
  | none => simp [runHostStmt, h]
  | some r => simp [runHostStmt, h]

/-- A store is performed exactly where the window permits the write; any other faults (R255). -/
theorem runHostStmt_store (width off : Nat) (e : HostExpr) (s : State) :
    if writePermitted width off then ∃ t, runHostStmt (.store width off e) s = .next t
    else runHostStmt (.store width off e) s = .fault (.hostAccess off width true) := by
  rw [← hostWrite_isSome width off (evalHost s.host.vars e) s]
  cases h : hostWrite width off (evalHost s.host.vars e) s with
  | none => simp [runHostStmt, h]
  | some r => simp [runHostStmt, h]

theorem hostStep_of_line {s : State} {st : HostStmt} (h : s.host.prog[s.host.pos]? = some st) :
    hostStep s = runHostStmt st s := by
  simp only [hostStep, h]

/-- Settles O38: the permitted accesses are those of `readPermitted` and `writePermitted`. -/
theorem hostAccessesAreThoseOfTheWindowMap : Obligations.HostAccessesAreThoseOfTheWindowMap := by
  intro width off name e s
  refine ⟨fun h => ?_, fun h => ?_⟩
  · simpa only [hostStep_of_line h, readPermitted_iff] using runHostStmt_load width off name s
  · simpa only [hostStep_of_line h, writePermitted_iff] using runHostStmt_store width off e s

/-! ### What an access of each region is -/

theorem hostRead_status (s : State) : hostRead 4 0x004 s = some (statusWord s, s) := rfl

theorem hostRead_result (s : State) : hostRead 4 0x008 s = some (readResultRegister s) := rfl

theorem hostRead_cmdBuf {off : Nat} (hlo : 0x100 ≤ off) (hhi : off < 0x200) (width : Nat) (s : State) :
    hostRead width off s =
      if readPermitted width off then some (leValue (readBytes width off s).1, (readBytes width off s).2)
      else none := by
  simp only [hostRead, regionOf_cmdBuf hlo hhi]

theorem hostRead_rspBuf {off : Nat} (hlo : 0x200 ≤ off) (hhi : off < 0x300) (width : Nat) (s : State) :
    hostRead width off s =
      if readPermitted width off then some (leValue (readResponse width off s).1, (readResponse width off s).2)
      else none := by
  simp only [hostRead, regionOf_rspBuf hlo hhi]

theorem hostWrite_cmdBuf {width off : Nat} (hlo : 0x100 ≤ off) (hhi : off < 0x200)
    (hw : width = 1 ∨ width = 2 ∨ width = 4) (ha : off % width = 0) (v : Word) (s : State) :
    hostWrite width off v s = some (writeCommandBuffer width off v s) := by
  have hp : writePermitted width off = true := (writePermitted_iff width off).2 (.inr ⟨hlo, hhi, hw, ha⟩)
  simp only [hostWrite, hp, regionOf_cmdBuf hlo hhi, if_true]

/-- A read of RESULT while idle is RESULT (R33). -/
theorem readResultRegister_idle {s : State} (h : s.status.busy = false) : readResultRegister s = (s.result, s) := by
  simp [readResultRegister, h]

/-- A read of RESULT while busy is 0 or the register (R81, U5). -/
theorem readResultRegister_busy {s : State} (h : s.status.busy = true) :
    (readResultRegister s).1 = 0 ∨ (readResultRegister s).1 = s.result := by
  simp only [readResultRegister, h, if_true]
  split
  · exact .inr rfl
  · exact .inl rfl

theorem readResponse_idle {s : State} (h : s.status.busy = false) (width off : Nat) :
    readResponse width off s = readBytes width off s := by
  simp [readResponse, h]

/-- A read of RSP_BUF while busy gives the next free values and looks at nothing else (R81). -/
theorem readResponse_busy {s : State} (h : s.status.busy = true) (width off : Nat) :
    readResponse width off s =
      ((List.range width).map fun k => Config.freeByte (s.draws + k), { s with draws := s.draws + width }) := by
  rw [readResponse, if_pos h, drawBytes_spec]

/-- Settles O37: both are dropped while BUSY = 1. -/
theorem writesWhileBusyAreDropped : Obligations.WritesWhileBusyAreDropped := by
  intro width off v s hb h
  obtain ⟨rfl, rfl⟩ | ⟨hlo, hhi, hw, ha⟩ := h
  · change some (writeOp v s) = some (setOvr s)
    rw [writeOp, if_pos hb]
  · rw [hostWrite_cmdBuf hlo hhi hw ha, writeCommandBuffer, if_pos hb]
    rfl

/-! ### The byte order of the buffers -/

/-- Byte k of a value as a number (R75). -/
theorem leByte_eq_ofNat (v : Word) (k : Nat) : leByte v k = BitVec.ofNat 8 (v.toNat / 2 ^ (8 * k)) := by
  apply BitVec.eq_of_toNat_eq
  simp [leByte, Nat.shiftRight_eq_div_pow]

theorem leByte_succ (v : Word) (k : Nat) : leByte v (k + 1) = leByte (v >>> 8) k := by
  rw [leByte_eq_ofNat, leByte_eq_ofNat, BitVec.toNat_ushiftRight, Nat.shiftRight_eq_div_pow, Nat.div_div_eq_div_mul,
    ← Nat.pow_add, Nat.mul_succ, Nat.add_comm]

/-- A byte in front of bytes whose value leaves room for it (R75). -/
theorem leValue_cons_toNat (b : Byte) {bs : List Byte} (h : (leValue bs).toNat < 2 ^ 24) :
    (leValue (b :: bs)).toNat = 2 ^ 8 * (leValue bs).toNat + b.toNat := by
  have hb := b.isLt
  simp only [leValue, BitVec.toNat_or, BitVec.toNat_setWidth, BitVec.toNat_shiftLeft]
  rw [Nat.mod_eq_of_lt (by omega), Nat.shiftLeft_eq, Nat.mod_eq_of_lt (by omega), Nat.or_comm, Nat.mul_comm,
    ← Nat.two_pow_add_eq_or_of_lt hb]

/-- The bytes of a value put together again: the value modulo its width (R75, R110). -/
theorem leValue_leBytes (n : Nat) (v : Word) :
    (leValue ((List.range n).map (leByte v))).toNat = v.toNat % 2 ^ (8 * n) := by
  induction n generalizing v with
  | zero => simp [leValue, Nat.mod_one]
  | succ n ih =>
    have hshift : (v >>> 8).toNat = v.toNat / 2 ^ 8 := by rw [BitVec.toNat_ushiftRight, Nat.shiftRight_eq_div_pow]
    have hrest : (leValue ((List.range n).map (leByte (v >>> 8)))).toNat = v.toNat / 2 ^ 8 % 2 ^ (8 * n) := by
      rw [ih, hshift]
    have hroom : v.toNat / 2 ^ 8 % 2 ^ (8 * n) < 2 ^ 24 := by
      have := Nat.mod_le (v.toNat / 2 ^ 8) (2 ^ (8 * n))
      have := v.isLt
      omega
    have hfirst : (leByte v 0).toNat = v.toNat % 2 ^ 8 := by simp [leByte_eq_ofNat]
    have hbytes : (List.range (n + 1)).map (leByte v) =
        leByte v 0 :: (List.range n).map (leByte (v >>> 8)) := by
      simp [List.range_succ_eq_map, Function.comp_def, leByte_succ]
    rw [hbytes, leValue_cons_toNat _ (hrest ▸ hroom), hrest, hfirst, Nat.mul_succ, Nat.add_comm (8 * n), Nat.pow_add,
      Nat.mod_mul, Nat.add_comm]

/-- Settles O41: the stored bytes are those of `writeBytes`. -/
theorem commandBufferWritesAreLittleEndian : Obligations.CommandBufferWritesAreLittleEndian := by
  intro width off v s hb hlo hhi hw ha
  obtain ⟨m, hm, -⟩ := writeBytes_eq width 0 off v s
  have hbyte (a : Nat) : assocGet m a =
      if off ≤ a ∧ a < off + width then some (leByte v (a - off)) else s.byteAt a := by
    have hstored := writeBytes_byteAt width 0 off v s a
    rw [hm] at hstored
    exact hstored
  have hidle : writeCommandBuffer width off v s = { s with mem := m } := by
    rw [writeCommandBuffer, if_neg (by simp [hb]), hm]
  refine ⟨m, by rw [hostWrite_cmdBuf hlo hhi hw ha, hidle], fun k hk => ?_, fun a hout => ?_⟩
  · rw [hbyte, if_pos (by omega), Nat.add_sub_cancel_left, leByte_eq_ofNat]
  · rw [hbyte, if_neg (by omega)]

/-- A permitted read of written buffer bytes, of RSP_BUF while idle, gives their value and changes nothing (R75). -/
theorem hostRead_written {off : Nat} {s : State} {bs : List Byte} (hp : readPermitted bs.length off = true)
    (hlo : 0x100 ≤ off) (hhi : off < 0x300) (hidle : off < 0x200 ∨ s.status.busy = false)
    (hbs : ∀ k (h : k < bs.length), s.byteAt (off + k) = some bs[k]) :
    hostRead bs.length off s = some (leValue bs, s) := by
  have hread := readBytes_written bs.length off s bs rfl hbs
  by_cases hcmd : off < 0x200
  · rw [hostRead_cmdBuf hlo hcmd, if_pos hp, hread]
  · rw [hostRead_rspBuf (by omega) hhi, if_pos hp, readResponse_idle (hidle.resolve_left hcmd), hread]

/-- Settles O42: the value of at most four bytes is their sum. -/
theorem bufferReadsAreLittleEndian : Obligations.BufferReadsAreLittleEndian := by
  intro off s bs hlo hhi hw ha hidle hbs
  have hp : readPermitted bs.length off = true := (readPermitted_iff _ _).2 (.inr ⟨hlo, hhi, hw, ha⟩)
  exact ⟨leValue bs, hostRead_written hp hlo hhi hidle hbs, (leValue_toNat bs (by omega)).1⟩

/-- Settles O43: the bytes stored are all written, and put together they are the value modulo its width. -/
theorem storeThenLoadReturnsTheValue : Obligations.StoreThenLoadReturnsTheValue := by
  intro width off v s t hb hlo hhi h
  have hperm : writePermitted width off = true := by rw [← hostWrite_isSome width off v s, h]; rfl
  obtain ⟨hreg, -⟩ | ⟨-, -, hw, ha⟩ := (writePermitted_iff width off).1 hperm
  · omega
  rw [hostWrite_cmdBuf hlo hhi hw ha, writeCommandBuffer, if_neg (by simp [hb]), Option.some.injEq] at h
  subst h
  have hlen : ((List.range width).map (leByte v)).length = width := by simp
  have hvalue : leValue ((List.range width).map (leByte v)) = BitVec.ofNat 32 (v.toNat % 2 ^ (8 * width)) := by
    rw [← leValue_leBytes, BitVec.ofNat_toNat, BitVec.setWidth_eq]
  have hread := hostRead_written (off := off) (s := writeBytes width 0 off v s)
    (bs := (List.range width).map (leByte v))
    ((readPermitted_iff _ _).2 (.inr ⟨hlo, by omega, by rwa [hlen], by rwa [hlen]⟩)) hlo (by omega) (.inl hhi)
    (fun k hk => by
      rw [writeBytes_byteAt, if_pos (by omega)]
      simp)
  rwa [hlen, hvalue] at hread

/-! ### Reads -/

/-- An access of STATUS or RESULT that is performed is 4 bytes wide (R74). -/
theorem hostRead_register_width {width off : Nat} (hoff : off = 0x004 ∨ off = 0x008) {s : State} {r : Word × State}
    (h : hostRead width off s = some r) : width = 4 := by
  have hp : readPermitted width off = true := by
    rw [← hostRead_isSome width off s, h]
    rfl
  obtain ⟨-, hw⟩ | ⟨hlo, -⟩ := (readPermitted_iff width off).1 hp
  · exact hw
  · omega

/-- Settles O44: a read draws at most, and those of STATUS and of an idle RESULT draw nothing. -/
theorem readsHaveNoSideEffects : Obligations.ReadsHaveNoSideEffects := by
  refine ⟨fun width off s t v h => ⟨hostRead_frame h, ?_, ?_⟩, fun s hb => ?_⟩
  · rintro rfl
    obtain rfl := hostRead_register_width (.inl rfl) h
    cases (hostRead_status s).symm.trans h
    rfl
  · rintro rfl hb
    obtain rfl := hostRead_register_width (.inr rfl) h
    rw [hostRead_result, readResultRegister_idle hb] at h
    cases h
    rfl
  · rw [hostRead_result, readResultRegister_idle hb]

/-- What a read of one buffer byte gives does not depend on STATUS (R75), and it leaves STATUS alone. -/
theorem readByteAt_status (s : State) (st : Status) (off : Nat) :
    { s with status := st }.readByteAt off = ((s.readByteAt off).1, { (s.readByteAt off).2 with status := st }) := by
  have hbyte : { s with status := st }.byteAt off = s.byteAt off := rfl
  simp only [State.readByteAt, hbyte]
  cases s.byteAt off <;> rfl

theorem readBytes_status (n off : Nat) (s : State) (st : Status) :
    readBytes n off { s with status := st } =
      ((readBytes n off s).1, { (readBytes n off s).2 with status := st }) := by
  induction n generalizing off s with
  | zero => rfl
  | succ n ih => simp only [readBytes, readByteAt_status, ih]

/-- A permitted read of RSP_BUF while busy: the value of the next free values (R81). -/
theorem hostRead_rspBuf_busy {width off : Nat} (hlo : 0x200 ≤ off) (hhi : off < 0x300) {s : State}
    (hb : s.status.busy = true) :
    hostRead width off s =
      if readPermitted width off then
        some (leValue ((List.range width).map fun k => Config.freeByte (s.draws + k)),
          { s with draws := s.draws + width })
      else none := by
  rw [hostRead_rspBuf hlo hhi, readResponse_busy hb]

/-- The value of up to four bytes given one by one is their sum (R75). -/
theorem leValue_map_toNat {n : Nat} (h : n ≤ 4) (f : Nat → Byte) :
    (leValue ((List.range n).map f)).toNat = ((List.range n).map fun k => (f k).toNat * 2 ^ (8 * k)).sum := by
  rw [(leValue_toNat _ (by simpa using h)).1]
  simp only [List.length_map, List.length_range]
  congr 1
  refine List.map_congr_left fun k hk => ?_
  simp [List.mem_range.1 hk]

/-- Settles O45: while BUSY = 1 a read of RSP_BUF looks at the draws only, and one of CMD_BUF not at STATUS. -/
theorem readsWhileBusy : Obligations.ReadsWhileBusy := by
  intro width off s m hb
  refine ⟨fun hlo hhi => ?_, fun hlo hhi hw ha => ?_, ⟨_, _, hostRead_result s, readResultRegister_busy hb⟩,
    fun hlo hhi => ?_⟩
  · rw [hostRead_rspBuf_busy hlo hhi hb, hostRead_rspBuf_busy (s := { s with mem := m }) hlo hhi hb]
    split <;> rfl
  · have hp : readPermitted width off = true := (readPermitted_iff _ _).2 (.inr ⟨by omega, hhi, hw, ha⟩)
    exact ⟨_, by rw [hostRead_rspBuf_busy hlo hhi hb, if_pos hp], leValue_map_toNat (by omega) _⟩
  · rw [hostRead_cmdBuf hlo hhi, hostRead_cmdBuf hlo hhi, readBytes_status width off s { s.status with busy := false }]
    split <;> rfl

/-! ### A running operation -/

/-- Settles O47: a host line that is no permitted store changes the draws and the host only, and of the stores those to
OP and CMD_BUF are dropped. -/
theorem hostLinesLeaveARunningOperationAlone : Obligations.HostLinesLeaveARunningOperationAlone := by
  intro s t hb h
  obtain ⟨width, off, e, u, -, hw, rfl⟩ | ⟨d, a, rfl⟩ := hostStep_cases h
  · obtain ⟨-, rfl⟩ | ⟨hidle, -⟩ | rfl | ⟨hidle, -⟩ := hostWrite_cases hw
    · exact ⟨rfl, rfl, rfl, rfl, rfl, rfl, rfl, rfl⟩
    · simp [hb] at hidle
    · exact ⟨rfl, rfl, rfl, rfl, rfl, rfl, rfl, rfl⟩
    · simp [hb] at hidle
  · exact ⟨rfl, rfl, rfl, rfl, rfl, rfl, rfl, rfl⟩

end Sys2Proof.Machine
end

section
/-! PROOF. The operation word (30_encoding.md R100 to R109): which words select which operation, said once, and the word
each form assembles to (O1 to O5). -/

namespace Sys2Proof

/-! ### Which words select an operation -/

/-- The operands of the operation are the fields of the word that it uses (R101, R107). -/
def Instr.OperandsFrom (w : Word) : Instr → Prop
  | .bitrev v => arg8Field w = v
  | .xferWr v => arg8Field w = v
  | .xferRd => True
  | .writeCmd n => (arg8Field w).toNat = n
  | .readData n => (arg8Field w).toNat = n
  | .waitReady b => (budgetField w).toNat = b
  | .checkAck => True
  | .execute n b => (arg8Field w).toNat = n ∧ (budgetField w).toNat = b
  | .getFw => True

/-- The decoder as an equivalence (R101, R103 to R107): a word selects an operation exactly when its RSV is 0, its OPC is
the operation's and the operands are the fields the operation uses. -/
theorem decode_eq_ok_iff (w : Word) (i : Instr) :
    decode w = .ok i ↔ rsvField w = 0 ∧ opcField w = i.opcode ∧ i.OperandsFrom w := by
  constructor
  · intro h
    have hopc := Machine.decode_opcode h
    unfold decode at h
    split at h
    · cases h
    · rename_i hrsv
      refine ⟨not_not.1 hrsv, hopc, ?_⟩
      split at h <;> cases h <;> simp [Instr.OperandsFrom]
  · rintro ⟨hrsv, hopc, hoperands⟩
    rw [decode, if_neg (not_not.2 hrsv), hopc]
    cases i with
    | bitrev v | xferWr v => exact congrArg _ (congrArg _ hoperands)
    | writeCmd n | readData n | waitReady b => exact congrArg _ (congrArg _ hoperands)
    | execute n b =>
      obtain ⟨rfl, rfl⟩ := hoperands
      rfl
    | xferRd | checkAck | getFw => rfl

/-- The operation codes are 1 to 9 (R101). -/
theorem opcode_range (i : Instr) : 1 ≤ i.opcode.toNat ∧ i.opcode.toNat ≤ 9 := by
  cases i <;> simp [Instr.opcode]

/-- A word with a reserved OPC, or with RSV not zero, is refused (R104, R105). -/
theorem decode_reserved {w : Word} (h : w.toNat % 16 = 0 ∨ 10 ≤ w.toNat % 16 ∨ w.toNat / 16 % 16 ≠ 0) :
    ∃ e, decode w = .error e := by
  cases hd : decode w with
  | error e => exact ⟨e, rfl⟩
  | ok i =>
    obtain ⟨hrsv, hopc, -⟩ := (decode_eq_ok_iff w i).1 hd
    have hrsv' : w.toNat / 16 % 16 = 0 := by
      rw [← rsvField_toNat, hrsv]
      rfl
    have hopc' : w.toNat % 16 = i.opcode.toNat := by rw [← opcField_toNat, hopc]
    have := opcode_range i
    omega

/-- RSV 0 and the OPC of an operation, as numbers of the word (R100). -/
theorem fields_of_toNat {w : Word} {i : Instr} (hrsv : w.toNat / 16 % 16 = 0) (hopc : w.toNat % 16 = i.opcode.toNat) :
    rsvField w = 0 ∧ opcField w = i.opcode :=
  ⟨BitVec.eq_of_toNat_eq (by rw [rsvField_toNat, hrsv]; rfl),
    BitVec.eq_of_toNat_eq (by rw [opcField_toNat, hopc])⟩

/-- The data byte of a word is the number in bits 15:8 (R107). -/
theorem arg8Field_eq_ofNat (w : Word) : arg8Field w = BitVec.ofNat 8 (w.toNat / 256 % 256) :=
  BitVec.eq_of_toNat_eq (by rw [arg8Field_toNat, BitVec.toNat_ofNat, Nat.mod_mod])

/-! ### The word an operation assembles to -/

/-- The number an assembled word is (R100, R109). -/
theorem encode_toNat (i : Instr) :
    (encode i).toNat = i.budget.toNat * 65536 + i.arg8.toNat * 256 + i.opcode.toNat := by
  simp [encode, operationWord_toNat]

/-- A length in range is its ARG8 field (R107). -/
theorem toNat_ofNat_length {n : Nat} (h : lengthFits n = true) : (BitVec.ofNat 8 n).toNat = n := by
  have hn : n < 256 := of_decide_eq_true h
  rw [BitVec.toNat_ofNat]
  exact Nat.mod_eq_of_lt hn

/-- A budget in range is its BUDGET field (R107). -/
theorem toNat_ofNat_budget {b : Nat} (h : budgetFits b = true) : (BitVec.ofNat 16 b).toNat = b := by
  have hb : b < 2 ^ 16 := of_decide_eq_true h
  rw [BitVec.toNat_ofNat]
  exact Nat.mod_eq_of_lt hb

/-- The fields of an assembled word are the operands of the operation, if they are in range (R109). -/
theorem operandsFrom_encode {i : Instr} (h : i.wf = true) : i.OperandsFrom (encode i) := by
  obtain ⟨-, -, harg8, hbudget⟩ := operationWord_fields i.budget i.arg8 0 i.opcode
  cases i with
  | bitrev v | xferWr v => exact harg8
  | xferRd | checkAck | getFw => trivial
  | writeCmd n | readData n => exact (congrArg BitVec.toNat harg8).trans (toNat_ofNat_length h)
  | waitReady b => exact (congrArg BitVec.toNat hbudget).trans (toNat_ofNat_budget h)
  | execute n b =>
    obtain ⟨hn, hb⟩ := Bool.and_eq_true_iff.1 h
    exact ⟨(congrArg BitVec.toNat harg8).trans (toNat_ofNat_length hn),
      (congrArg BitVec.toNat hbudget).trans (toNat_ofNat_budget hb)⟩

/-- Settles O2: the fields of the assembled word are RSV 0, the operation's OPC and its operands. -/
theorem decodeOfEncodeIsTheOperation : Obligations.DecodeOfEncodeIsTheOperation := by
  intro i h
  obtain ⟨hopc, hrsv, -⟩ := operationWord_fields i.budget i.arg8 0 i.opcode
  exact (decode_eq_ok_iff _ i).2 ⟨hrsv, hopc, operandsFrom_encode h⟩

/-- An operation is assembled exactly when its operands are in range (R109). -/
theorem assemble_eq_ite {i : Instr} {w : Word} {p : Prop} [Decidable p] (hwf : i.wf = true ↔ p)
    (hw : p → encode i = w) : assemble i = if p then some w else none := by
  by_cases hp : p
  · rw [assemble, if_pos (hwf.2 hp), if_pos hp, hw hp]
  · rw [assemble, if_neg (mt hwf.1 hp), if_neg hp]

/-- A number placed above the low `k` bits of a smaller one (R109: `(n << 8) | 0x4` and the like). -/
theorem shiftLeft_or_eq {k c : Nat} (hc : c < 2 ^ k) (n : Nat) : n <<< k ||| c = n * 2 ^ k + c := by
  rw [← Nat.shiftLeft_add_eq_or_of_lt hc, Nat.shiftLeft_eq]

/-- The word of an operation with a data byte (R109). -/
theorem encode_dataByte {i : Instr} {v : Byte} {c : Word} (hc : c.toNat = i.opcode.toNat) (hbudget : i.budget = 0)
    (harg8 : i.arg8 = v) : encode i = (v.setWidth 32 <<< 8) ||| c := by
  have hv := v.isLt
  have ho := opcode_range i
  have hvalue : (v.setWidth 32 <<< 8).toNat = v.toNat <<< 8 := by
    rw [BitVec.toNat_shiftLeft, BitVec.toNat_setWidth, Nat.mod_eq_of_lt (by omega), Nat.shiftLeft_eq,
      Nat.mod_eq_of_lt (by omega), Nat.shiftLeft_eq]
  apply BitVec.eq_of_toNat_eq
  rw [encode_toNat, hbudget, harg8, BitVec.toNat_or, hvalue, hc, shiftLeft_or_eq (by omega)]
  simp

/-- The word of an operation with a length in range and a budget, either 0 where the operation has none (R109). -/
theorem encode_counts {i : Instr} {n b w : Nat} (hn : n < 256) (harg8 : i.arg8 = BitVec.ofNat 8 n)
    (hbudget : i.budget = BitVec.ofNat 16 b) (hw : w = b * 65536 + n * 256 + i.opcode.toNat) :
    encode i = BitVec.ofNat 32 w := by
  apply BitVec.eq_of_toNat_eq
  simp only [encode_toNat, harg8, hbudget, BitVec.toNat_ofNat]
  have ho := opcode_range i
  omega

/-- Settles O3: the refusals are those of `wf`, and each word is the number its operands make. -/
theorem assemblerWords : Obligations.AssemblerWords := by
  intro v n b
  refine ⟨?_, ?_, rfl, ?_, ?_, ?_, rfl, ?_, rfl⟩
  · exact congrArg some (encode_dataByte rfl rfl rfl)
  · exact congrArg some (encode_dataByte rfl rfl rfl)
  · exact assemble_eq_ite decide_eq_true_iff fun hn =>
      encode_counts (b := 0) hn rfl rfl (by simp [shiftLeft_or_eq, Instr.opcode])
  · exact assemble_eq_ite decide_eq_true_iff fun hn =>
      encode_counts (b := 0) hn rfl rfl (by simp [shiftLeft_or_eq, Instr.opcode])
  · exact assemble_eq_ite decide_eq_true_iff fun _ =>
      encode_counts (n := 0) (by decide) rfl rfl (by simp [shiftLeft_or_eq, Instr.opcode])
  · refine assemble_eq_ite (by simp [Instr.wf]) fun ⟨hn, _⟩ => encode_counts hn rfl rfl ?_
    rw [Nat.or_assoc, shiftLeft_or_eq (k := 8) (by decide), shiftLeft_or_eq (by omega), Nat.add_assoc]
    rfl

/-! ### Reading a word -/

/-- Settles O4: RSV 0 and the OPC select the operation, and the operands are the numbers the fields are. -/
theorem operandsComeFromTheWord : Obligations.OperandsComeFromTheWord := by
  intro w hrsv
  have hselect : ∀ i : Instr, w.toNat % 16 = i.opcode.toNat → i.OperandsFrom w → decode w = .ok i := by
    intro i hopc hoperands
    obtain ⟨hr, ho⟩ := fields_of_toNat hrsv hopc
    exact (decode_eq_ok_iff w i).2 ⟨hr, ho, hoperands⟩
  have hn := arg8Field_toNat w
  have hb := budgetField_toNat w
  exact ⟨fun h => hselect (.bitrev _) h (arg8Field_eq_ofNat w), fun h => hselect (.xferWr _) h (arg8Field_eq_ofNat w),
    fun h => hselect .xferRd h trivial, fun h => hselect (.writeCmd _) h hn, fun h => hselect (.readData _) h hn,
    fun h => hselect (.waitReady _) h hb, fun h => hselect .checkAck h trivial,
    fun h => hselect (.execute _ _) h ⟨hn, hb⟩, fun h => hselect .getFw h trivial⟩

/-- Settles O1: each word evaluated. -/
theorem writtenOutWordsDecode : Obligations.WrittenOutWordsDecode := by
  unfold Obligations.WrittenOutWordsDecode
  decide

/-- A word with the OPC and RSV of one that selects an operation selects it too, if it holds its operands (R106). -/
theorem decode_of_agree {w w' : Word} {i : Instr} (hlow : w.toNat % 256 = w'.toNat % 256) (h : decode w = .ok i)
    (hoperands : i.OperandsFrom w → i.OperandsFrom w') : decode w' = .ok i := by
  obtain ⟨hrsv, hopc, ho⟩ := (decode_eq_ok_iff w i).1 h
  have hrsv' : w'.toNat / 16 % 16 = 0 := by
    have hr : w.toNat / 16 % 16 = 0 := by rw [← rsvField_toNat, hrsv]; rfl
    omega
  have hopc' : w'.toNat % 16 = i.opcode.toNat := by
    rw [← hopc, opcField_toNat]
    omega
  obtain ⟨hr, hc⟩ := fields_of_toNat hrsv' hopc'
  exact (decode_eq_ok_iff w' i).2 ⟨hr, hc, hoperands ho⟩

/-- Settles O5: the operands are in the used fields alone, and every operation run whole sets DONE. -/
theorem unusedFieldsAreIgnored : Obligations.UnusedFieldsAreIgnored := by
  refine ⟨fun w w' i hlow h => ⟨fun hi => ?_, fun hi harg => ?_, fun hi hbud => ?_⟩, fun i w s => ?_⟩
  · refine decode_of_agree hlow h ?_
    obtain rfl | rfl | rfl := hi <;> exact id
  · have hfield : arg8Field w' = arg8Field w := by rw [arg8Field_eq_ofNat, arg8Field_eq_ofNat, harg]
    refine decode_of_agree hlow h ?_
    obtain ⟨v, rfl⟩ | ⟨v, rfl⟩ | ⟨n, rfl⟩ | ⟨n, rfl⟩ := hi <;> simp only [Instr.OperandsFrom, hfield, imp_self]
  · have hfield : (budgetField w').toNat = (budgetField w).toNat := by
      rw [budgetField_toNat, budgetField_toNat, hbud]
    refine decode_of_agree hlow h ?_
    obtain ⟨b, rfl⟩ := hi
    exact hfield.trans
  · obtain ⟨t, ht, he⟩ := Machine.exec_ends i (Machine.accept w s)
    exact ⟨t, ht, rfl, he.completes.done⟩

end Sys2Proof
end

section
/-! PROOF. Acceptance, the refusals and the step that runs a decoded operation (30_encoding.md R102 to R108; O6, O8, O22,
O36). -/

namespace Sys2Proof.Machine

/-! ### Acceptance and Dispatch -/

/-- Settles O36: a write to OP is dropped while busy and accepted while idle. -/
theorem writeToOpIsAcceptedWhenIdle : Obligations.WriteToOpIsAcceptedWhenIdle := by
  intro w s
  have hw : hostWrite 4 0x000 w s = some (writeOp w s) := rfl
  rw [hw, writeOp]
  split <;> rfl

/-- Dispatch refuses a word that selects no operation (R104, R105). -/
theorem dispatchStep_of_error {s : State} {e : DecodeError} (h : decode s.seq.opw = .error e) :
    dispatchStep s = finish .illegalOp .none s := by
  simp only [dispatchStep, h]

/-- An operation run whole is refused where its word selects none. -/
theorem operationTurn_of_error {s : State} {e : DecodeError} (h : decode s.seq.opw = .error e) :
    operationTurn s = .next (finish .illegalOp .none s) := by
  simp only [operationTurn, h]

/-- An operation run whole is the one its word selects (R103). -/
theorem operationTurn_of_ok {s : State} {i : Instr} (h : decode s.seq.opw = .ok i) : operationTurn s = exec i s := by
  simp only [operationTurn, h]

/-- Settles O6: a reserved word selects no operation, and Dispatch finishes at once. -/
theorem reservedWordsCompleteWithIllegalOp : Obligations.ReservedWordsCompleteWithIllegalOp := by
  intro w s h
  obtain ⟨e, he⟩ := decode_reserved h
  have hstep : seqStep (accept w s) = finish .illegalOp .none (accept w s) := dispatchStep_of_error he
  rw [hstep]
  exact ⟨rfl, operationTurn_of_error he, rfl⟩

/-- An `operation` turn right after acceptance is the operation the word selects. -/
theorem turnStep_operation {s : State} {i : Instr} (hp : s.seq.phase = .running [.dispatch])
    (hd : decode s.seq.opw = .ok i) : turnStep .operation s = exec i s := by
  rw [turnStep, if_pos hp, operationTurn_of_ok hd]

/-- Settles O8: the turn taken, scheduled or by default, is the `operation` turn. -/
theorem stepRunsTheDecodedOperation : Obligations.StepRunsTheDecodedOperation := by
  refine ⟨fun s i r hp hd => ⟨fun hs => ?_, fun hs => ?_⟩, fun s w i hd => ?_⟩
  · rw [step, hs]
    exact turnStep_operation (s := { s with sched := r }) hp hd
  · have hturn : defaultTurn s = .operation := if_neg (by rw [hp]; exact Phase.noConfusion)
    rw [step, hs, hturn]
    exact turnStep_operation hp hd
  · have hword : BitVec.ofNat 32 (w % 2 ^ 32) = BitVec.ofNat 32 w := BitVec.eq_of_toNat_eq (by simp)
    rw [State.withFetchWord, hword]
    exact turnStep_operation (s := accept (BitVec.ofNat 32 w) s) rfl hd

/-! ### Illegal lengths -/

theorem lengthLegal_iff (n max : Nat) : lengthLegal n max = true ↔ 1 ≤ n ∧ n ≤ max := by
  simp only [lengthLegal, Bool.and_eq_true, decide_eq_true_eq]

/-- WRITE_CMD refuses an illegal length, and ends with OK on any other (R108, R165). -/
theorem exec_writeCmd_eq (n : Nat) (s : State) :
    exec (.writeCmd n) s = .next (if 1 ≤ n ∧ n ≤ 254 then finish .ok .none (writeFrame .cmdBuf n s)
      else finish .argErr .none s) := by
  simp only [exec, execWriteCmd, lengthLegal_iff, Config.maxCmdLen]

/-- READ_DATA refuses an illegal length, and ends with OK on any other (R108, R168). -/
theorem exec_readData_eq (n : Nat) (s : State) :
    exec (.readData n) s = .next (if 1 ≤ n ∧ n ≤ 255 then finish .ok .none (readFrame n s)
      else finish .argErr .none s) := by
  simp only [exec, execReadData, lengthLegal_iff, Config.maxRdLen]

/-- EXECUTE refuses an illegal length, and is an exchange on any other (R108, R222). -/
theorem exec_execute_eq (n b : Nat) (s : State) :
    exec (.execute n b) s = .next (if 1 ≤ n ∧ n ≤ 254 then executeExchange n b s else finish .argErr .none s) := by
  simp only [exec, execExecute, lengthLegal_iff, Config.maxCmdLen]

/-- No gate of an exchange ends it with ARG_ERR (R220). -/
theorem exchange_code_ne_argErr {src : CmdSource} {n : Nat} (hn : n ≤ 65536) (b : Half) (s : State) :
    (exchange src n b s).code ≠ .argErr := by
  obtain ⟨cmd, fa, e, d, k, ix, -, -, -, -, -, ho, -, hc, -⟩ := exchange_spec src n hn b s
  rw [hc]
  cases ho <;> exact Code.noConfusion

/-- GET_FW has no length, so it never ends with ARG_ERR (R226). -/
theorem execGetFw_code_ne_argErr {s t : State} (h : exec .getFw s = .next t) : t.status.code ≠ .argErr := by
  obtain rfl := Host.Outcome.next.inj h
  split
  · exact Code.noConfusion
  · exact exchange_code_ne_argErr (by decide) s.params.fwBudget s

/-- Settles O22: an illegal length finishes at once with ARG_ERR, and nothing else finishes with it. -/
theorem argErrExactlyForIllegalLengths : Obligations.ArgErrExactlyForIllegalLengths := by
  intro w s
  refine ⟨fun n b hn => ⟨?_, ?_⟩, fun n hn => ?_, fun i t h hcode => ?_⟩
  · rw [exec_writeCmd_eq, if_neg hn]
    rfl
  · rw [exec_execute_eq, if_neg hn]
    rfl
  · rw [exec_readData_eq, if_neg hn]
    rfl
  · cases i with
    | writeCmd n =>
      refine .inl ⟨n, rfl, fun hn => ?_⟩
      rw [exec_writeCmd_eq, if_pos hn] at h
      cases h
      cases hcode
    | execute n b =>
      refine .inr (.inl ⟨n, b, rfl, fun hn => ?_⟩)
      rw [exec_execute_eq, if_pos hn] at h
      cases h
      exact exchange_code_ne_argErr (by omega) _ _ hcode
    | readData n =>
      refine .inr (.inr ⟨n, rfl, fun hn => ?_⟩)
      rw [exec_readData_eq, if_pos hn] at h
      cases h
      cases hcode
    | getFw => exact absurd hcode (execGetFw_code_ne_argErr h)
    | waitReady b =>
      cases execEnds_of_exec h with
      | waitReady _ code evs cs p cnt st polls r hc hcs => obtain rfl | rfl := hc <;> cases hcode
    | checkAck =>
      cases execEnds_of_exec h with
      | checkAck code evs p ack r hc => obtain rfl | rfl := hc <;> cases hcode
    | bitrev | xferWr | xferRd =>
      cases h
      cases hcode

end Sys2Proof.Machine
end

section
/-! PROOF. The host program (30_encoding.md R110, R111): what each line and expression does, and the loop of `wait_idle`
(O59, O60). -/

namespace Sys2Proof.Machine

/-! ### Lines -/

theorem hostStep_store {s t : State} {width off : Nat} {e : HostExpr}
    (hl : s.host.prog[s.host.pos]? = some (.store width off e))
    (hw : hostWrite width off (evalHost s.host.vars e) s = some t) :
    hostStep s = .next (hostGoto (s.host.pos + 1) t) := by
  rw [hostStep_of_line hl]
  simp only [runHostStmt, hw]

theorem hostStep_load {s t : State} {width off name : Nat} {v : Word}
    (hl : s.host.prog[s.host.pos]? = some (.load width off name)) (hr : hostRead width off s = some (v, t)) :
    hostStep s = .next (hostAssign name v t) := by
  rw [hostStep_of_line hl]
  simp only [runHostStmt, hr]

theorem hostStep_assign {s : State} {name : Nat} {e : HostExpr}
    (hl : s.host.prog[s.host.pos]? = some (.assign name e)) :
    hostStep s = .next (hostAssign name (evalHost s.host.vars e) s) :=
  hostStep_of_line hl

theorem hostStep_branch {s : State} {e : HostExpr} {target : Nat}
    (hl : s.host.prog[s.host.pos]? = some (.branch e target)) :
    hostStep s = .next (hostGoto (if evalHost s.host.vars e = 0 then s.host.pos + 1 else target) s) :=
  hostStep_of_line hl

/-- An assigned name holds its value (R110). -/
theorem hostAssign_get (name : Nat) (v : Word) (s : State) :
    assocGet (hostAssign name v s).host.vars name = some v := by
  rw [hostAssign_host, assocGet_assocSet, if_pos rfl]

/-- Every other name holds what it held. -/
theorem hostAssign_get_ne {name x : Nat} (hx : x ≠ name) (v : Word) (s : State) :
    assocGet (hostAssign name v s).host.vars x = assocGet s.host.vars x := by
  rw [hostAssign_host, assocGet_assocSet, if_neg (Ne.symm hx)]

/-- A host read leaves the host as it was (R78). -/
theorem hostRead_host {width off : Nat} {s t : State} {v : Word} (h : hostRead width off s = some (v, t)) :
    t.host = s.host := by
  obtain ⟨d, rfl⟩ := hostRead_frame h
  rfl

/-! ### Expressions -/

/-- A comparison of host values is one of unsigned numbers (R15, R110). -/
theorem evalHost_compare {op : Comparison} {vars : List (Nat × Word)} {a b : HostExpr} {p : Prop} [Decidable p]
    (h : holdsComparison op (evalHost vars a) (evalHost vars b) = true ↔ p) :
    evalHost vars (.compare op a b) = if p then 1 else 0 := by
  simp only [evalHost, h]

theorem evalHost_name (vars : List (Nat × Word)) (x : Nat) :
    evalHost vars (.name x) = (assocGet vars x).getD (Config.unassigned x) := rfl

/-- Settles O59: one line at a time, and one form of expression at a time. -/
theorem hostLines : Obligations.HostLines := by
  refine ⟨fun s t width off name target e v => ⟨fun hl hw => ?_, fun hl hr => ?_, fun hl => ?_, fun hl => ?_⟩,
    fun vars a b w x hi lo => ⟨rfl, fun v h => ?_, fun h => ?_, BitVec.toNat_add _ _, ?_, bitSlice_toNat _,
      bitSlice_unstated _, ?_, ?_,
      evalHost_compare decide_eq_true_iff, evalHost_compare decide_eq_true_iff, evalHost_compare decide_eq_true_iff,
      evalHost_compare decide_eq_true_iff⟩⟩
  · exact hostStep_store hl hw
  · have hhost := hostRead_host hr
    refine ⟨_, hostStep_load hl hr, hostAssign_get name v t, ?_, fun x hx => ?_, rfl⟩
    · rw [hostAssign_host, hhost]
    · rw [hostAssign_get_ne hx, hhost]
  · exact ⟨_, hostStep_assign hl, hostAssign_get name _ s, rfl, fun x hx => hostAssign_get_ne hx _ s, rfl⟩
  · exact hostStep_branch hl
  · rw [evalHost_name, h, Option.getD_some]
  · rw [evalHost_name, h, Option.getD_none]
  · rw [Nat.add_comm]
    exact BitVec.toNat_sub _ _
  · exact evalHost_compare (by rw [holdsComparison, beq_iff_eq, BitVec.toNat_inj])
  · rw [evalHost_compare (p := (evalHost vars a).toNat ≠ (evalHost vars b).toNat)
      (by rw [holdsComparison, bne_iff_ne, Ne, Ne, BitVec.toNat_inj]), ite_not]

/-! ### `wait_idle` -/

/-- Bit 0 of STATUS is BUSY (R34, R35). -/
theorem bitSlice_statusWord (s : State) : bitSlice (statusWord s) 0 0 = if s.status.busy then 1 else 0 := by
  apply BitVec.eq_of_toNat_eq
  rw [bitSlice_toNat _ (by decide) (by decide), statusWord_toNat]
  cases s.status.busy <;> simp <;> omega

/-- The condition of `wait_idle` with STATUS in its name holds exactly while BUSY = 1 (R111). -/
theorem evalHost_waitIdle {vars : List (Nat × Word)} {name : Nat} {s : State}
    (h : assocGet vars name = some (statusWord s)) :
    evalHost vars (.compare .eq (.slice (.name name) 0 0) (.const 1)) = if s.status.busy then 1 else 0 := by
  refine evalHost_compare ?_
  simp only [holdsComparison, beq_iff_eq, evalHost, h, Option.getD_some, bitSlice_statusWord]
  cases s.status.busy <;> decide

/-- The lines of a program part stand at its place in the program. -/
theorem getElem?_part {α : Type} (pre part post : List α) {k : Nat} (hk : k < part.length) :
    (pre ++ part ++ post)[pre.length + k]? = some part[k] := by
  rw [List.append_assoc, List.getElem?_append_right (by omega), Nat.add_sub_cancel_left,
    List.getElem?_append_left hk, List.getElem?_eq_getElem hk]

/-- The two turns of `wait_idle`: STATUS into the name, then past the loop or back to its first line (R111). -/
theorem goodRun_waitIdle {s : State} {pre post : List HostStmt} {name : Nat}
    (hprog : s.host.prog = pre ++ waitIdle pre.length name ++ post) (hpos : s.host.pos = pre.length) :
    GoodRun 2 { s with sched := [.host, .host] }
      (hostGoto (if s.status.busy then pre.length else pre.length + 2)
        (hostAssign name (statusWord s) { s with sched := [] })) := by
  have hload : s.host.prog[s.host.pos]? = some (.load 4 0x004 name) := by
    rw [hprog, hpos]
    exact getElem?_part pre (waitIdle pre.length name) post Nat.zero_lt_two
  have hbranch : s.host.prog[s.host.pos + 1]? =
      some (.branch (.compare .eq (.slice (.name name) 0 0) (.const 1)) pre.length) := by
    rw [hprog, hpos]
    exact getElem?_part pre (waitIdle pre.length name) post Nat.one_lt_two
  have hfirst : step { s with sched := [.host, .host] } =
      .next { hostAssign name (statusWord s) s with sched := [.host] } :=
    hostStep_load (s := { s with sched := [.host] }) hload (hostRead_status _)
  have hsecond : step { hostAssign name (statusWord s) s with sched := [.host] } =
      .next (hostGoto (if s.status.busy then pre.length else pre.length + 2)
        (hostAssign name (statusWord s) { s with sched := [] })) := by
    rw [(stepTakesTheScheduledTurn _ []).1, hostStep_branch hbranch,
      evalHost_waitIdle (hostAssign_get name (statusWord s) s)]
    cases s.status.busy <;> simp [hpos, hostGoto, hostAssign]
  exact goodRun_succ hfirst (goodRun_succ hsecond rfl)

/-- Settles O60: the two turns of the loop. -/
theorem waitIdleEndsWithStatusWhenIdle : Obligations.WaitIdleEndsWithStatusWhenIdle := by
  intro s pre post name hprog hpos
  exact ⟨_, goodRun_waitIdle hprog hpos, hostAssign_get name (statusWord s) s, rfl, rfl,
    fun x hx => hostAssign_get_ne hx (statusWord s) s, rfl⟩

end Sys2Proof.Machine
end

section
/-! PROOF. The bit-order transform and the byte transport, BITREV, XFER_WR and XFER_RD (40_transport.md; O13 to O18). -/

namespace Sys2Proof.Machine

/-! ### The bit-order transform -/

/-- Bit i of `rev8 b` is bit 7-i of `b` (R130). -/
theorem rev8_getLsbD (b : Byte) {i : Nat} (hi : i < 8) : (rev8 b).getLsbD i = b.getLsbD (7 - i) := by
  match i, hi with
  | 0, _ | 1, _ | 2, _ | 3, _ | 4, _ | 5, _ | 6, _ | 7, _ =>
    simp only [rev8, BitVec.getLsbD_append, BitVec.getLsbD_extractLsb']
    simp

/-- Bytes that go out on the wire alike are equal. -/
theorem wireBits_injective : Function.Injective wireBits := by
  intro a b h
  simp only [wireBits, List.cons.injEq, and_true] at h
  obtain ⟨h7, h6, h5, h4, h3, h2, h1, h0⟩ := h
  refine BitVec.eq_of_getElem_eq fun i hi => ?_
  match i, hi with
  | 0, _ | 1, _ | 2, _ | 3, _ | 4, _ | 5, _ | 6, _ | 7, _ => assumption

/-- A reversed byte goes out on the wire in the opposite order (R131). -/
theorem wireBits_rev8 (b : Byte) : wireBits (rev8 b) = (wireBits b).reverse := by
  simp [wireBits, ← BitVec.getLsbD_eq_getElem, rev8_getLsbD]

theorem rev8_involutive : Function.Involutive rev8 := by
  intro b
  apply wireBits_injective
  rw [wireBits_rev8, wireBits_rev8, List.reverse_reverse]

theorem rev8_not (b : Byte) : rev8 (~~~b) = ~~~(rev8 b) := by
  refine BitVec.eq_of_getLsbD_eq fun i hi => ?_
  have hi' : 7 - i < 8 := by omega
  simp only [rev8_getLsbD _ hi, BitVec.getLsbD_not, hi, hi']

/-- Settles O13: the transform reverses the order of the bits on the wire. -/
theorem bitOrderTransform : Obligations.BitOrderTransform := by
  refine ⟨fun b i hi => rev8_getLsbD b hi, rev8_involutive, rev8_involutive.bijective, fun b => ?_, fun b => ?_,
    by decide⟩
  · have hones (x : Byte) : x ^^^ 0xFF#8 = ~~~x := BitVec.xor_allOnes
    rw [hones, hones, rev8_not]
  · rw [wireBits_rev8, List.count_reverse]

/-! ### The shift register -/

/-- A bit time sends the first of the register's bits and puts the sampled bit behind the others (R18). -/
theorem shiftBit_queue (m : Byte) (b : Bool) : (shiftBit m b).1 :: wireBits (shiftBit m b).2 = wireBits m ++ [b] := by
  simp [shiftBit, wireBits]

theorem shiftBits_sent_length (m : Byte) (bs : List Bool) : (shiftBits m bs).1.length = bs.length := by
  induction bs generalizing m with
  | nil => rfl
  | cons b bs ih => exact congrArg (· + 1) (ih _)

/-- The register is a queue: the bits sent, then those it still holds, are those it held, then the sampled ones (R18). -/
theorem shiftBits_queue (m : Byte) (bs : List Bool) :
    (shiftBits m bs).1 ++ wireBits (shiftBits m bs).2 = wireBits m ++ bs := by
  induction bs generalizing m with
  | nil => rw [List.append_nil]; rfl
  | cons b bs ih =>
    calc (shiftBits m (b :: bs)).1 ++ wireBits (shiftBits m (b :: bs)).2
      _ = (shiftBit m b).1 :: ((shiftBits (shiftBit m b).2 bs).1 ++ wireBits (shiftBits (shiftBit m b).2 bs).2) := rfl
      _ = ((shiftBit m b).1 :: wireBits (shiftBit m b).2) ++ bs := by rw [ih, List.cons_append]
      _ = wireBits m ++ b :: bs := by rw [shiftBit_queue, List.append_assoc, List.singleton_append]

/-- Eight bit times send all that the register held and leave the sampled bits in it (R18, R131). -/
theorem shiftBits_eight (m : Byte) {bs : List Bool} (h : bs.length = 8) :
    (shiftBits m bs).1 = wireBits m ∧ wireBits (shiftBits m bs).2 = bs :=
  List.append_inj (shiftBits_queue m bs) ((shiftBits_sent_length m bs).trans h)

/-- Settles O14: the register is a queue of eight bits, and `rev8` reverses the order on the wire. -/
theorem logicalBytesTravelLeastSignificantBitFirst : Obligations.LogicalBytesTravelLeastSignificantBitFirst := by
  refine ⟨fun m s => ?_, wireBits_rev8, fun m b0 b1 b2 b3 b4 b5 b6 b7 => ?_⟩
  · obtain ⟨hsent, hheld⟩ := shiftBits_eight m (bs := wireBits s) rfl
    exact Prod.ext hsent (wireBits_injective hheld)
  · obtain ⟨-, hheld⟩ := shiftBits_eight m (bs := [b0, b1, b2, b3, b4, b5, b6, b7]) rfl
    rw [wireBits_rev8, hheld]
    rfl

/-! ### The byte transport -/

/-- `Xfer(m)` is one event and takes one answer from the peer (R18). -/
theorem xfer_eq (m : Byte) (s : State) :
    xfer m s = (peerAnswer m s,
      { s with trace := s.trace ++ [.xfer m (peerAnswer m s)], peer := peerAfter s.peer 1 }) := by
  rw [peerAfter_one]
  rfl

theorem writeByte_eq (v : Byte) (s : State) :
    writeByte v s =
      { s with trace := s.trace ++ [.xfer (rev8 v) (peerAnswer (rev8 v) s)], peer := peerAfter s.peer 1 } := by
  rw [writeByte, xfer_eq]

theorem readByte_eq (s : State) :
    readByte s =
      (rev8 (peerAnswer 0x00#8 s),
        { s with trace := s.trace ++ [.xfer 0x00#8 (peerAnswer 0x00#8 s)], peer := peerAfter s.peer 1 }) := by
  rw [readByte, xfer_eq]
  rfl

/-- Settles O15: both are one transfer, answered from the script, by the standing answer or by the oracle. -/
theorem byteTransport : Obligations.ByteTransport := by
  refine fun v s => ⟨writeByte_eq v s, readByte_eq s, fun m a r hs => ?_, fun m x hs hr => ?_, fun m hs hr => ?_⟩
  · simp only [peerAnswer, hs]
  · simp only [peerAnswer, hs, hr, Option.getD_some]
  · simp only [peerAnswer, hs, hr, Option.getD_none]

/-! ### The operations -/

/-- Settles O16: RESULT and the writes of acceptance and completion, evaluated. -/
theorem bitrevResult : Obligations.BitrevResult := fun _ _ _ => rfl

/-- Settles O17: the one transfer is that of `WriteByte`, and the peer does not see the acceptance. -/
theorem xferWrResult : Obligations.XferWrResult := by
  intro v w s
  rw [exec, execXferWr, writeByte_eq]
  rfl

/-- Settles O18: the one transfer is that of `ReadByte`, and the peer does not see the acceptance. -/
theorem xferRdResult : Obligations.XferRdResult := by
  intro w s
  rw [exec, execXferRd, readResult, readByte_eq]
  rfl

end Sys2Proof.Machine
end

section
/-! PROOF. The command frame and its checksums, WRITE_CMD and READ_DATA (41_framing.md; O19 to O21). -/

namespace Sys2Proof.Machine

/-! ### The checksums of a command frame -/

theorem add8_neg8 (a : Byte) : add8 a (neg8 a) = 0 := BitVec.add_right_neg a

theorem neg8_eq_zero_iff (a : Byte) : neg8 a = 0 ↔ a = 0 := BitVec.neg_eq_zero_iff

theorem neg8_toNat (a : Byte) : (neg8 a).toNat = (256 - a.toNat) % 256 := BitVec.toNat_neg a

/-- LEN is `n + 1` as a number, for every length that fits one byte (R162). -/
theorem frameLen_toNat {n : Nat} (hn : n ≤ 254) : (frameLen n).toNat = n + 1 := by
  rw [frameLen, BitVec.toNat_ofNat]
  omega

/-- The accumulator is the sum modulo 256 of `P_TFI` and the command bytes (R161). -/
theorem checksumAcc_eq_sum (tfi : Byte) (cmd : List Byte) : checksumAcc tfi cmd = tfi + cmd.sum := by
  induction cmd generalizing tfi with
  | nil => exact (BitVec.add_zero tfi).symm
  | cons b cmd ih =>
    calc checksumAcc tfi (b :: cmd) = checksumAcc (add8 tfi b) cmd := rfl
      _ = tfi + b + cmd.sum := ih (add8 tfi b)
      _ = tfi + (b :: cmd).sum := by rw [List.sum_cons, BitVec.add_assoc]

/-- A sum of bytes as a number: the sum of the numbers modulo 256 (R15). -/
theorem bytes_sum_toNat (bs : List Byte) : bs.sum.toNat = (bs.map BitVec.toNat).sum % 256 := by
  induction bs with
  | nil => rfl
  | cons b bs ih => rw [List.sum_cons, BitVec.toNat_add, ih, List.map_cons, List.sum_cons, Nat.add_mod_mod]

/-- The accumulator as a number (R161). -/
theorem checksumAcc_toNat (tfi : Byte) (cmd : List Byte) :
    (checksumAcc tfi cmd).toNat = (tfi.toNat + (cmd.map BitVec.toNat).sum) % 256 := by
  rw [checksumAcc_eq_sum, BitVec.toNat_add, bytes_sum_toNat, Nat.add_mod_mod]

/-- DCS is 0 exactly when `P_TFI` and the command bytes sum to 0 modulo 256 (R166). -/
theorem dataChecksum_eq_zero_iff (tfi : Byte) (cmd : List Byte) :
    neg8 (checksumAcc tfi cmd) = 0 ↔ (tfi.toNat + (cmd.map BitVec.toNat).sum) % 256 = 0 := by
  rw [neg8_eq_zero_iff, ← BitVec.toNat_inj, checksumAcc_toNat]
  rfl

/-- Settles O20: the frame is laid out as its definition says, and each checksum is the two's complement of its group. -/
theorem commandFrameLayoutAndChecksums : Obligations.CommandFrameLayoutAndChecksums := by
  intro p cmd _ hmax
  refine ⟨frameLen cmd.length, frameLenChecksum cmd.length, neg8 (checksumAcc p.tfi cmd), rfl,
    frameLen_toNat hmax, add8_neg8 _, ?_, ?_, dataChecksum_eq_zero_iff p.tfi cmd⟩
  · rw [frameLenChecksum, neg8_toNat, frameLen_toNat hmax]
  · rw [← checksumAcc_eq_sum]
    exact add8_neg8 _

/-! ### The operations -/

/-- Settles O19: WRITE_CMD with a legal length is the frame writer from the accepted state, then Finish. -/
theorem writeCmdSendsTheCommandFrame : Obligations.WriteCmdSendsTheCommandFrame := by
  intro n w s hmin hmax
  obtain ⟨cmd, answers, d, ix, hlen, hanswers, hpeer, hcmd, hdraws, hix, hframe⟩ :=
    writeFrame_spec .cmdBuf n (by omega) (accept w s)
  obtain rfl := hix hmin
  refine ⟨cmd, answers, d, hlen, hanswers, hpeer, hcmd, hdraws, ?_⟩
  rw [exec_writeCmd_eq, if_pos ⟨hmin, hmax⟩, hframe, writeFrameEvents, frameEvents, ← List.append_assoc,
    ← List.append_assoc]
  rfl

/-- Settles O21: READ_DATA with a legal length is the frame reader from the accepted state, then Finish. -/
theorem readDataStoresTheResponse : Obligations.ReadDataStoresTheResponse := by
  intro n w s hmin hmax
  obtain ⟨answers, m, ix, hanswers, hpeer, hstored, hkept, -, hix, hframe⟩ :=
    readFrame_spec n (by omega) (accept w s)
  obtain rfl := hix hmin
  refine ⟨answers, m, hanswers, hpeer, ?_, hstored, hkept⟩
  rw [exec_readData_eq, if_pos ⟨hmin, hmax⟩, hframe, readFrameEvents, frameEvents, ← List.append_assoc,
    ← List.append_assoc]
  rfl

end Sys2Proof.Machine
end

section
/-! PROOF. The readiness poller and the acknowledgment validator, WAIT_READY and CHECK_ACK (42_poll_ack.md; O23 to
O27). -/

namespace Sys2Proof.Machine

/-! ### The operations for every peer -/

/-- Settles O23: WAIT_READY is one poll from the accepted state, then RESULT and Finish by whether it saw `P_READY`. -/
theorem waitReadyOutcome : Obligations.WaitReadyOutcome := by
  intro b w s hb
  obtain ⟨xs, hit, houtcome, hgives, hready, hstate⟩ := pollReady_spec (BitVec.ofNat 16 b) (accept w s)
  have hbudget : (BitVec.ofNat 16 b).toNat = b := Nat.mod_eq_of_lt hb
  have hpolls : (accept w s).seq.polls + BitVec.ofNat 32 (pollCount xs hit) = BitVec.ofNat 32 (pollCount xs hit) :=
    BitVec.zero_add _
  rw [hbudget] at houtcome hstate
  rw [hpolls] at hstate
  refine ⟨xs, hit, houtcome, hgives, ?_⟩
  rw [exec, execWaitReady, hstate, hready]
  cases hit <;> rfl

/-- Settles O27: CHECK_ACK is one acknowledgment check from the accepted state, then RESULT and Finish by its answer. -/
theorem checkAckOutcome : Obligations.CheckAckOutcome := by
  intro w s
  obtain ⟨answers, hlen, hgives, hmatch, hstate⟩ := ackCheck_spec (accept w s)
  refine ⟨answers, hlen, hgives, fun i hi => ?_, ?_⟩
  · rw [hstate]
    exact heldAck_get (accept w s).seq.ack hlen i hi
  · rw [exec, execCheckAck, hmatch, hstate, readFrameEvents, frameEvents, ← List.append_assoc, ← List.append_assoc,
      ← ackBytes]
    by_cases hack : answers.tail = ackBytes
    · rw [hack]
      rfl
    · rw [if_neg hack, if_neg hack, beq_eq_false_iff_ne.2 hack]
      rfl

/-! ### Budget 0 -/

/-- With budget 0 a poll fails at once, and only the budget left is written (R191). -/
theorem pollReady_zero (s : State) : pollReady 0 s = (false, setCnt 0 s) := rfl

/-- WAIT_READY with budget 0 ends with TIMEOUT at once (R191, R194). -/
theorem exec_waitReady_zero (s : State) :
    exec (.waitReady 0) s = .next (finish .timeout .none (setResult 0 (setCnt 0 s))) := by
  have hpoll : pollReady (BitVec.ofNat 16 0) s = (false, setCnt 0 s) := pollReady_zero s
  rw [exec, execWaitReady, hpoll]
  rfl

/-- An exchange with budget 0 ends at its first poll, which adds no event (R191, R220). -/
theorem ExchangeOutcome.of_budget_zero {p : Params} {st : Byte} {e : ExchangeEnd} (h : ExchangeOutcome p 0 st e) :
    e.code = .timeout ∧ e.stage = .poll1 ∧ e.evs = [] ∧ e.polls = 0 := by
  cases h with
  | timeout1 xs h =>
    obtain rfl := List.eq_nil_of_length_eq_zero h.2
    exact ⟨rfl, rfl, rfl, rfl⟩
  | nack xs _ _ h | timeout2 xs _ _ _ h | ok xs _ _ _ _ h => exact absurd h.2.1 (Nat.not_lt_zero _)

/-- Settles O24: no iteration fits in the budget. -/
theorem budgetZeroPollsNothing : Obligations.BudgetZeroPollsNothing := by
  intro n w s
  rw [pollReady_zero, exec_waitReady_zero]
  refine ⟨rfl, rfl, rfl, rfl, fun hmin hmax => ?_⟩
  obtain ⟨cmd, fa, e, d, k, ix, hcmd, hfa, -, hbytes, -, houtcome, -, hcode, hstage, hstate⟩ :=
    exchange_spec .cmdBuf n (by omega) (BitVec.ofNat 16 0) (accept w s)
  obtain ⟨htimeout, hpoll1, hevs, hpolls⟩ := houtcome.of_budget_zero
  refine ⟨_, cmd, fa, by rw [exec_execute_eq, if_pos ⟨hmin, hmax⟩], hcmd, hfa, hbytes, ?_⟩
  rw [executeExchange, hcode, hstage, hstate, htimeout, hpoll1, hevs, hpolls, List.append_nil]
  exact ⟨rfl, rfl, rfl, rfl⟩

/-! ### A peer whose answers are known -/

/-- A peer gives the bytes its script begins with (R263). -/
theorem PeerGives_of_script {p : PeerAgent} {l r : List Byte} (h : p.script = l ++ r) : PeerGives p l := by
  induction l generalizing p with
  | nil => trivial
  | cons a l ih =>
    refine ⟨by rw [h]; rfl, ih ?_⟩
    rw [h]
    rfl

/-- A peer without a script gives its standing answer any number of times. -/
theorem PeerGives_replicate (x : Byte) (n : Nat) : PeerGives ⟨[], some x⟩ (List.replicate n x) := by
  induction n with
  | zero => trivial
  | succ n ih => exact ⟨rfl, ih⟩

/-- Two sequences of answers of a peer go on from a common one, where its script or its standing answer fixes the
second. -/
theorem PeerGives_agree {p : PeerAgent} {l l' : List Byte} (h : PeerGives p l) (h' : PeerGives p l')
    (hfixed : p.rest.isSome ∨ l'.length ≤ p.script.length) : ∃ r r', l ++ r = l' ++ r' := by
  induction l generalizing p l' with
  | nil => exact ⟨l', [], by simp⟩
  | cons a l ih =>
    cases l' with
    | nil => exact ⟨[], a :: l, by simp⟩
    | cons a' l' =>
      obtain ⟨ha, hl⟩ := h
      obtain ⟨ha', hl'⟩ := h'
      have haa : a = a' := by
        obtain ⟨script, rest⟩ := p
        cases script with
        | cons b script => exact ha.trans ha'.symm
        | nil =>
          cases rest with
          | some x => exact ha.trans ha'.symm
          | none => simp at hfixed
      obtain ⟨r, r', hr⟩ := ih hl hl' (hfixed.imp_right fun hlen => by simp at hlen ⊢; omega)
      exact ⟨r, r', by rw [haa, List.cons_append, hr, List.cons_append]⟩

/-! ### What the poller sees is fixed by the answers -/

theorem pollStageAnswers_cons (x : Byte × Byte) (xs : List (Byte × Byte)) (hit : Option (Byte × Byte)) :
    pollStageAnswers (x :: xs) hit = x.1 :: x.2 :: pollStageAnswers xs hit := by
  cases hit <;> rfl

theorem pollStageAnswers_nil_some (x : Byte × Byte) : pollStageAnswers [] (some x) = [x.1, x.2] := rfl

/-- With budget 0 no iteration is seen (R191). -/
theorem PollOutcome_zero {p : Params} {xs : List (Byte × Byte)} {hit : Option (Byte × Byte)}
    (h : PollOutcome p 0 xs hit) : xs = [] ∧ hit = none := by
  cases hit with
  | none => exact ⟨List.eq_nil_of_length_eq_zero h.2, rfl⟩
  | some x => exact absurd h.2.1 (Nat.not_lt_zero _)

/-- A first iteration that misses leaves the rest of the budget to the others (R190). -/
theorem PollOutcome_cons_iff {p : Params} {b : Nat} {x : Byte × Byte} {xs : List (Byte × Byte)}
    {hit : Option (Byte × Byte)} :
    PollOutcome p (b + 1) (x :: xs) hit ↔ rev8 x.2 ≠ p.ready ∧ PollOutcome p b xs hit := by
  cases hit <;> simp [PollOutcome, AllMiss_cons, and_assoc]

/-- With a budget left, the first iteration reads `P_READY` and is the last, or it misses and the rest of the budget is
polled (R190). -/
theorem PollOutcome_succ {p : Params} {b : Nat} {xs : List (Byte × Byte)} {hit : Option (Byte × Byte)}
    (h : PollOutcome p (b + 1) xs hit) :
    (∃ x, xs = [] ∧ hit = some x ∧ rev8 x.2 = p.ready) ∨
      ∃ x ys, xs = x :: ys ∧ rev8 x.2 ≠ p.ready ∧ PollOutcome p b ys hit := by
  cases xs with
  | nil =>
    cases hit with
    | none => cases h.2
    | some x => exact .inl ⟨x, rfl, rfl, h.2.2⟩
  | cons x ys => exact .inr ⟨x, ys, rfl, PollOutcome_cons_iff.1 h⟩

/-- Two polls with one budget whose answers go on from a common sequence saw the same iterations. -/
theorem PollOutcome_unique {p : Params} {b : Nat} {xs xs' : List (Byte × Byte)} {hit hit' : Option (Byte × Byte)}
    {r r' : List Byte} (h : PollOutcome p b xs hit) (h' : PollOutcome p b xs' hit')
    (hanswers : pollStageAnswers xs hit ++ r = pollStageAnswers xs' hit' ++ r') : xs = xs' ∧ hit = hit' := by
  induction b generalizing xs xs' with
  | zero =>
    obtain ⟨rfl, rfl⟩ := PollOutcome_zero h
    obtain ⟨rfl, rfl⟩ := PollOutcome_zero h'
    exact ⟨rfl, rfl⟩
  | succ b ih =>
    obtain ⟨x, rfl, rfl, hx⟩ | ⟨x, ys, rfl, hx, hys⟩ := PollOutcome_succ h <;>
      obtain ⟨x', rfl, rfl, hx'⟩ | ⟨x', ys', rfl, hx', hys'⟩ := PollOutcome_succ h' <;>
      simp only [pollStageAnswers_nil_some, pollStageAnswers_cons, List.cons_append, List.cons.injEq] at hanswers <;>
      obtain ⟨h1, h2, hrest⟩ := hanswers
    · exact ⟨rfl, congrArg some (Prod.ext h1 h2)⟩
    · exact absurd (h2 ▸ hx) hx'
    · exact absurd (h2 ▸ hx') hx
    · obtain ⟨rfl, rfl⟩ := ih hys hys' hrest
      exact ⟨congrArg (· :: _) (Prod.ext h1 h2), rfl⟩

/-- A poll of a peer that gives the answers of an outcome, and can give no others, sees that outcome. -/
theorem PollOutcome_of_peer {p : Params} {b : Nat} {xs xs' : List (Byte × Byte)} {hit hit' : Option (Byte × Byte)}
    {a : PeerAgent} (h : PollOutcome p b xs hit) (hgives : PeerGives a (pollStageAnswers xs hit))
    (h' : PollOutcome p b xs' hit') (hgives' : PeerGives a (pollStageAnswers xs' hit'))
    (hfixed : a.rest.isSome ∨ (pollStageAnswers xs' hit').length ≤ a.script.length) : xs = xs' ∧ hit = hit' := by
  obtain ⟨r, r', hanswers⟩ := PeerGives_agree hgives hgives' hfixed
  exact PollOutcome_unique h h' hanswers

/-! ### Counts of events -/

/-- The counts of two runs of events add up. -/
theorem Counts_append {e e' : List Event} {x x' d d' f f' n n' : Nat} (h : Counts e x d f n)
    (h' : Counts e' x' d' f' n') : Counts (e ++ e') (x + x') (d + d') (f + f') (n + n') := by
  obtain ⟨rfl, rfl, rfl, rfl⟩ := h
  obtain ⟨rfl, rfl, rfl, rfl⟩ := h'
  exact ⟨List.countP_append, List.countP_append, List.countP_append, List.length_append⟩

/-- A poll iteration's chip-select frame is two transfers and two ticks (R190, R310). -/
theorem Counts_pollEvents (p : Params) (x : Byte × Byte) : Counts (pollEvents p x) 2 2 1 6 := ⟨rfl, rfl, rfl, rfl⟩

theorem missedPollEvents_cons (p : Params) (x : Byte × Byte) (xs : List (Byte × Byte)) :
    missedPollEvents p (x :: xs) = pollEvents p x ++ [.delay] ++ missedPollEvents p xs := rfl

/-- A missed iteration is a frame and one more tick (R190, R310). -/
theorem Counts_missedPollEvents (p : Params) (xs : List (Byte × Byte)) :
    Counts (missedPollEvents p xs) (2 * xs.length) (3 * xs.length) xs.length (7 * xs.length) := by
  induction xs with
  | nil => exact ⟨rfl, rfl, rfl, rfl⟩
  | cons x xs ih =>
    have hdelay : Counts [.delay] 0 1 0 1 := ⟨rfl, rfl, rfl, rfl⟩
    have hfirst := Counts_append (Counts_append (Counts_pollEvents p x) hdelay) ih
    rw [missedPollEvents_cons, List.length_cons]
    convert hfirst using 1 <;> omega

/-! ### WAIT_READY with a peer whose answers are known -/

theorem pollAnswers_replicate (b : Nat) (x : Byte) :
    pollAnswers (List.replicate b (x, x)) = List.replicate (2 * b) x := by
  induction b with
  | zero => rfl
  | succ b ih =>
    rw [pollAnswers, List.replicate_succ, List.flatMap_cons, ← pollAnswers, ih]
    rfl

/-- Settles O25: b missed iterations are an outcome this peer gives, and it can give no other. -/
theorem neverReadyPeerTimesOut : Obligations.NeverReadyPeerTimesOut := by
  intro b x w s hb hpeer hx
  obtain ⟨xs, hit, houtcome, hgives, hexec⟩ := waitReadyOutcome b w s hb
  have hmissed : PollOutcome s.params b (List.replicate b (x, x)) none :=
    ⟨fun y hy => (List.eq_of_mem_replicate hy).symm ▸ hx, List.length_replicate⟩
  have hstanding : PeerGives s.peer (pollStageAnswers (List.replicate b (x, x)) none) := by
    rw [hpeer, pollStageAnswers, pollAnswers_replicate]
    exact PeerGives_replicate x _
  obtain ⟨rfl, rfl⟩ := PollOutcome_of_peer houtcome hgives hmissed hstanding (.inl (by rw [hpeer]; rfl))
  refine ⟨_, hexec, rfl, rfl, congrArg (BitVec.ofNat 32) List.length_replicate, rfl, ?_⟩
  simpa only [List.length_replicate] using Counts_missedPollEvents s.params (List.replicate b (x, x))

/-- Settles O26: the iterations of the script are an outcome this peer gives, and it can give no other. -/
theorem scriptedPeerReadyWithinBudget : Obligations.ScriptedPeerReadyWithinBudget := by
  intro b xs x r w s hb hscript hmiss hready hlt
  obtain ⟨ys, hit, houtcome, hgives, hexec⟩ := waitReadyOutcome b w s hb
  have hscripted : PollOutcome s.params b xs (some x) := ⟨hmiss, hlt, hready⟩
  have hlen : (pollStageAnswers xs (some x)).length ≤ s.peer.script.length := by
    rw [hscript, List.length_append]
    exact Nat.le_add_right _ _
  obtain ⟨rfl, rfl⟩ :=
    PollOutcome_of_peer houtcome hgives hscripted (PeerGives_of_script hscript) (.inr hlen)
  refine ⟨_, hexec, rfl, rfl, rfl, ?_, rfl, ?_⟩
  · rw [← pollStageAnswers_length]
    exact (PeerGives_script hscript rfl hgives).2
  · convert Counts_append (Counts_missedPollEvents s.params ys) (Counts_pollEvents s.params x) using 1 <;> omega

end Sys2Proof.Machine
end

section
/-! PROOF. The orchestrator, EXECUTE (43_sequencer.md; O28, O29). -/

namespace Sys2Proof.Machine

/-! ### EXECUTE -/

/-- An exchange begun at acceptance counts its polls from 0 (R46, R102). -/
theorem accept_polls_add (w : Word) (s : State) (k : Nat) :
    (accept w s).seq.polls + BitVec.ofNat 32 k = BitVec.ofNat 32 k := BitVec.zero_add _

/-- Settles O28: EXECUTE with a legal length is the exchange from the accepted state, then RESULT and Finish by its
end. -/
theorem executeOutcome : Obligations.ExecuteOutcome := by
  intro n b w s hmin hmax hb
  obtain ⟨cmd, fa, e, d, k, ix, hcmd, hfa, hgives, hbytes, hdraws, houtcome, hix, hcode, hstage, hstate⟩ :=
    exchange_spec .cmdBuf n (by omega) (BitVec.ofNat 16 b) (accept w s)
  obtain rfl := hix hmin
  have hbudget : (BitVec.ofNat 16 b).toNat = b := Nat.mod_eq_of_lt hb
  rw [hbudget] at houtcome
  rw [accept_polls_add] at hstate
  refine ⟨cmd, fa, e, d, hcmd, hfa, hgives, hbytes, hdraws, houtcome, by rw [hstate]; rfl, ?_⟩
  rw [exec_execute_eq, if_pos ⟨hmin, hmax⟩, executeExchange, hcode, hstage, hstate]
  rfl

/-! ### A peer that is ready, acknowledges and is ready again -/

/-- With a budget left, an iteration that reads `P_READY` at once is a whole poll (R190). -/
theorem PollOutcome_nil_some {p : Params} {b : Nat} {x : Byte × Byte} (hb : 1 ≤ b) (hx : rev8 x.2 = p.ready) :
    PollOutcome p b [] (some x) :=
  ⟨fun _ hmem => absurd hmem List.not_mem_nil, hb, hx⟩

/-- The first poll and the acknowledgment check of an exchange that is answered by a ready status and then `ack'` see
just these (R190, R195). -/
theorem first_gates_of_answers {p : Params} {b : Nat} {xs : List (Byte × Byte)} {x x' : Byte × Byte}
    {ack ack' r r' : List Byte} (h : PollOutcome p b xs (some x)) (h' : PollOutcome p b [] (some x'))
    (hlen : ack.length = 7) (hlen' : ack'.length = 7)
    (hanswers : pollAnswers xs ++ [x.1, x.2] ++ ack ++ r = [x'.1, x'.2] ++ ack' ++ r') :
    xs = [] ∧ x = x' ∧ ack = ack' ∧ r = r' := by
  rw [List.append_assoc, List.append_assoc [_, _]] at hanswers
  obtain ⟨rfl, hhit⟩ := PollOutcome_unique h h' hanswers
  obtain rfl := Option.some.inj hhit
  exact ⟨rfl, rfl, List.append_inj (List.append_cancel_left hanswers) (hlen.trans hlen'.symm)⟩

/-- The end of an exchange with budget b whose first poll iteration `x` is ready, whose acknowledgment answers are `ack`
and whose first poll iteration `y` after these is ready again (R220). -/
def readyAckedReady (p : Params) (b : Nat) (x : Byte × Byte) (ack : List Byte) (y : Byte × Byte) : ExchangeEnd where
  code := .ok
  stage := .none
  polls := 2
  evs := pollEvents p x ++ readFrameEvents p 6 ack ++ pollEvents p y
  answers := [x.1, x.2] ++ ack ++ [y.1, y.2]
  left := b
  st := rev8 y.2
  ack := some ack

/-- An exchange with a budget left that is answered by a ready status, the ACK frame and a ready status again has no
other end (R220). -/
theorem ExchangeOutcome.eq_readyAckedReady {p : Params} {b : Nat} {st : Byte} {e : ExchangeEnd} {x y : Byte × Byte}
    {ack r r' : List Byte} (h : ExchangeOutcome p b st e) (hb : 1 ≤ b) (hx : rev8 x.2 = p.ready)
    (hlen : ack.length = 7) (hack : ack.tail = ackBytes) (hy : rev8 y.2 = p.ready)
    (hanswers : e.answers ++ r = [x.1, x.2] ++ ack ++ ([y.1, y.2] ++ r')) : e = readyAckedReady p b x ack y := by
  have hpoll1 := PollOutcome_nil_some hb hx
  have hpoll2 := PollOutcome_nil_some hb hy
  cases h with
  | timeout1 xs h1 =>
    rw [List.append_assoc] at hanswers
    exact nomatch (PollOutcome_unique h1 hpoll1 hanswers).2
  | nack xs x' ack' h1 hlen' hno =>
    obtain ⟨-, -, rfl, -⟩ := first_gates_of_answers h1 hpoll1 hlen' hlen hanswers
    exact absurd hack hno
  | timeout2 xs x' ack' ys h1 hlen' _ h2 =>
    rw [List.append_assoc] at hanswers
    obtain ⟨-, -, -, hrest⟩ := first_gates_of_answers h1 hpoll1 hlen' hlen hanswers
    exact nomatch (PollOutcome_unique h2 hpoll2 hrest).2
  | ok xs x' ack' ys y' h1 hlen' _ h2 =>
    rw [List.append_assoc _ [y'.1, y'.2], List.append_assoc _ (pollAnswers ys)] at hanswers
    obtain ⟨rfl, rfl, rfl, hrest⟩ := first_gates_of_answers h1 hpoll1 hlen' hlen hanswers
    rw [← List.append_assoc] at hrest
    obtain ⟨rfl, hhit⟩ := PollOutcome_unique h2 hpoll2 hrest
    obtain rfl := Option.some.inj hhit
    simp [readyAckedReady, missedPollEvents, pollAnswers]

/-- A chip-select frame is four events around its transfers (R22). -/
theorem frameEvents_length (sent answers : List Byte) :
    (frameEvents sent answers).length = min sent.length answers.length + 4 := by
  simp [frameEvents]

/-- A command frame of n bytes is n + 13 events (R160, R310). -/
theorem writeFrameEvents_length (p : Params) {cmd answers : List Byte} (h : answers.length = cmd.length + 9) :
    (writeFrameEvents p cmd answers).length = cmd.length + 13 := by
  simp [writeFrameEvents, frameEvents_length, commandFrame, h]

/-- Settles O29: the script fixes every answer, so the exchange that `executeOutcome` gives is the one that is ready,
acknowledged and ready again. -/
theorem scriptedExchangeSucceeds : Obligations.ScriptedExchangeSucceeds := by
  intro n b fa r a0 a1 a2 a3 a4 w s hmin hmax hb hb' hfa hready1 hready2 hscript
  obtain ⟨cmd, fa', e, d, hcmd, hfa', hgives, hbytes, -, houtcome, -, hexec⟩ := executeOutcome n b w s hmin hmax hb'
  have hscript' : s.peer.script = fa ++ ([a0, a1] ++ a2 :: ackBytes ++ [a3, a4]) ++ r := by simp [hscript]
  obtain ⟨q, q', hanswers⟩ := PeerGives_agree hgives (PeerGives_of_script hscript') (.inr (by simp [hscript']))
  rw [List.append_assoc, List.append_assoc] at hanswers
  obtain ⟨rfl, hgates⟩ := List.append_inj hanswers (hfa'.trans hfa.symm)
  rw [List.append_assoc _ [a3, a4]] at hgates
  obtain rfl := houtcome.eq_readyAckedReady (x := (a0, a1)) (y := (a3, a4)) hb hready1 rfl rfl hready2 hgates
  have hevs : (readyAckedReady s.params b (a0, a1) (a2 :: ackBytes) (a3, a4)).evs.length = 23 := rfl
  refine ⟨_, cmd, hexec, hcmd, hbytes, rfl, rfl, rfl, ?_, ?_, ?_, rfl⟩
  · have hleft := (PeerGives_script hscript' rfl hgives).2
    rwa [List.length_append, hfa'] at hleft
  · simp [readyAckedReady]
  · rw [List.length_append, List.length_append, hevs, writeFrameEvents_length s.params (hcmd ▸ hfa'), hcmd]
    omega

end Sys2Proof.Machine
end

section
/-! PROOF. The firmware-version query, GET_FW, for every peer (43_sequencer.md; O30, O31). -/

namespace Sys2Proof.Machine

/-! ### The firmware value -/

/-- The firmware value is its four bytes side by side, the first the most significant (R225). -/
theorem firmwareValue_eq_append (b0 b1 b2 b3 : Byte) : firmwareValue b0 b1 b2 b3 = b0 ++ b1 ++ b2 ++ b3 := by
  ext i hi
  simp only [firmwareValue, BitVec.getElem_or, BitVec.getElem_shiftLeft, BitVec.getElem_setWidth]
  grind

/-- Settles O31: four bytes side by side are the number with these base-256 digits. -/
theorem firmwareValueIsBigEndian : Obligations.FirmwareValueIsBigEndian := by
  intro b0 b1 b2 b3
  rw [firmwareValue_eq_append, append_toNat, append_toNat, append_toNat]
  omega

/-! ### GET_FW for every peer -/

/-- RESULT packed from the first four response bytes, all written (R225): their firmware value, and no draw. -/
theorem packFirmware_eq_firmwareValue {s : State} {b0 b1 b2 b3 : Byte} (h0 : s.byteAt (rspOffset 0) = some b0)
    (h1 : s.byteAt (rspOffset 1) = some b1) (h2 : s.byteAt (rspOffset 2) = some b2)
    (h3 : s.byteAt (rspOffset 3) = some b3) :
    packFirmware s = { s with result := firmwareValue b0 b1 b2 b3 } := by
  simp only [packFirmware, readByteAt_written h0, readByteAt_written h1, readByteAt_written h2, readByteAt_written h3]

/-- The one command byte of GET_FW (R223). -/
theorem firmwareCommand_eq {s : State} {cmd : List Byte} (hlen : cmd.length = 1) (h : CommandBytes s .firmware cmd) :
    cmd = [s.params.fwOpcode] := by
  obtain ⟨b, rfl⟩ := List.length_eq_one_iff.1 hlen
  rw [h b List.mem_cons_self]

/-- What GET_FW does once its exchange has returned (R226). -/
def afterFirmwareExchange (r : ExchangeResult) : State :=
  if r.code = .ok then finish .ok .none (packFirmware (readFrame 12 (setStage .responseRead r.state)))
  else finish r.code r.stage (setResult 0 r.state)

theorem afterFirmwareExchange_of_ok {r : ExchangeResult} (h : r.code = .ok) :
    afterFirmwareExchange r =
      finish .ok .none (packFirmware (readFrame 12 (setStage .responseRead r.state))) := if_pos h

theorem afterFirmwareExchange_of_ne {r : ExchangeResult} (h : r.code ≠ .ok) :
    afterFirmwareExchange r = finish r.code r.stage (setResult 0 r.state) := if_neg h

theorem exec_getFw_eq (s : State) :
    exec .getFw s = .next (afterFirmwareExchange (exchange .firmware 1 s.params.fwBudget s)) := rfl

/-- The response read of GET_FW with the firmware value packed from it (R224, R225, R226). -/
theorem firmwareResponse_spec (s : State) :
    ∃ resp m, ∃ hr : resp.length = 13, PeerGives s.peer resp ∧
      (∀ i (h : i < 12), assocGet m (rspOffset i) = some (rev8 resp[i + 1])) ∧
      (∀ a, (a < rspOffset 0 ∨ rspOffset 12 ≤ a) → assocGet m a = s.byteAt a) ∧
      packFirmware (readFrame 12 (setStage .responseRead s)) =
        { s with
          status := { s.status with stage := .responseRead }
          result := firmwareValue (rev8 resp[1]) (rev8 resp[2]) (rev8 resp[3]) (rev8 resp[4])
          trace := s.trace ++ readFrameEvents s.params 12 resp
          cs := false
          peer := peerAfter s.peer 13
          mem := m
          seq := { s.seq with idx := 11 } } := by
  obtain ⟨resp, m, ix, hresp, hgives, hstored, hkept, -, hix, hframe⟩ :=
    readFrame_spec 12 (by decide) (setStage .responseRead s)
  obtain rfl := hix (by decide)
  have hbyte (i : Nat) (hi : i < 12) :
      (readFrame 12 (setStage .responseRead s)).byteAt (rspOffset i) = some (rev8 resp[i + 1]) := by
    rw [hframe]
    exact hstored i hi
  refine ⟨resp, m, hresp, hgives, hstored, hkept, ?_⟩
  rw [packFirmware_eq_firmwareValue (hbyte 0 (by decide)) (hbyte 1 (by decide)) (hbyte 2 (by decide))
    (hbyte 3 (by decide)), hframe]
  rfl

/-- Settles O30: GET_FW is the exchange from the accepted state, then by its end the response read or RESULT 0. -/
theorem getFwOutcome : Obligations.GetFwOutcome := by
  intro w s
  obtain ⟨cmd, fa, e, d, k, ix, hlen, hfa, hgives, hcmd, hdraws, houtcome, hix, hcode, hstage, hstate⟩ :=
    exchange_spec .firmware 1 (by decide) s.params.fwBudget (accept w s)
  obtain rfl := firmwareCommand_eq hlen hcmd
  obtain rfl := hdraws trivial
  obtain rfl := hix Nat.one_pos
  rw [accept_polls_add] at hstate
  have hexec : exec .getFw (accept w s) =
      .next (afterFirmwareExchange (exchange .firmware 1 s.params.fwBudget (accept w s))) := exec_getFw_eq _
  refine ⟨fa, e, _, _, hfa, houtcome, by rw [hstate]; rfl, rfl, hexec, fun hne => ⟨hgives, ?_⟩, fun hok => ?_⟩
  · rw [afterFirmwareExchange_of_ne (by rwa [hcode]), hcode, hstage, hstate, if_neg hne]
    rfl
  · obtain ⟨resp, m, hresp, hread, hstored, hkept, hpacked⟩ :=
      firmwareResponse_spec (exchange .firmware 1 s.params.fwBudget (accept w s)).state
    rw [hstate] at hread hkept
    refine ⟨resp, m, hresp, (PeerGives_append _ _ _).2 ⟨hgives, ?_⟩, hstored, hkept, ?_⟩
    · rwa [List.length_append, hfa]
    · rw [afterFirmwareExchange_of_ok (by rwa [hcode]), if_pos hok, hpacked, hstate, peerAfter_add]
      rfl

end Sys2Proof.Machine
end

section
/-! PROOF. GET_FW is independent of the buffers (R223; O32): each procedure it runs, from a state with other buffers. -/

namespace Sys2Proof.Machine

/-! ### The exchange does not see the buffers -/

/-- The state with other buffers. -/
def withBuffers (m : List Host.Cell) (s : State) : State := { s with mem := m }

@[simp] theorem withBuffers_seq (m : List Host.Cell) (s : State) : (withBuffers m s).seq = s.seq := rfl

@[simp] theorem withBuffers_params (m : List Host.Cell) (s : State) : (withBuffers m s).params = s.params := rfl

theorem setStage_withBuffers (m : List Host.Cell) (k : Stage) (s : State) :
    setStage k (withBuffers m s) = withBuffers m (setStage k s) := rfl

theorem finish_withBuffers (m : List Host.Cell) (code : Code) (stage : Stage) (s : State) :
    finish code stage (withBuffers m s) = withBuffers m (finish code stage s) := rfl

/-- A straight-line statement that neither reads nor writes a buffer (R48, R49). -/
def actBufferFree : Act → Bool
  | .writeCommandByte .cmdBuf => false
  | .readResponseByte => false
  | .packFirmware => false
  | _ => true

theorem runAct_withBuffers (m : List Host.Cell) {a : Act} (h : actBufferFree a = true) (s : State) :
    runAct a (withBuffers m s) = withBuffers m (runAct a s) := by
  cases a with
  | writeCommandByte src =>
    cases src with
    | cmdBuf => cases h
    | firmware => rfl
  | readResponseByte => cases h
  | packFirmware => cases h
  | _ => rfl

theorem runActs_withBuffers (m : List Host.Cell) {l : List Act} (h : l.all actBufferFree = true) (s : State) :
    runActs l (withBuffers m s) = withBuffers m (runActs l s) := by
  induction l generalizing s with
  | nil => rfl
  | cons a l ih =>
    rw [List.all_cons, Bool.and_eq_true] at h
    rw [runActs_cons, runActs_cons, runAct_withBuffers m h.1, ih h.2]

theorem writeFrame_firmware_withBuffers (m : List Host.Cell) (n : Nat) (s : State) :
    writeFrame .firmware n (withBuffers m s) = withBuffers m (writeFrame .firmware n s) := by
  refine runActs_withBuffers m (l := writeFrameCode s.params .firmware n) ?_ s
  simp [writeFrameCode, actBufferFree]

theorem pollLoop_withBuffers (m : List Host.Cell) (k : Nat) (s : State) :
    pollLoop k (withBuffers m s) = ((pollLoop k s).1, withBuffers m (pollLoop k s).2) := by
  induction k generalizing s with
  | zero => rfl
  | succ k ih =>
    have hframe : runActs (pollFrameCode s.params) (withBuffers m s) =
      withBuffers m (runActs (pollFrameCode s.params) s) := runActs_withBuffers m rfl s
    have hmiss := runActs_withBuffers m (l := pollMissCode) rfl (runActs (pollFrameCode s.params) s)
    rw [pollLoop, pollLoop, withBuffers_params, hframe, hmiss, ih, withBuffers_seq, withBuffers_params]
    by_cases hready : (runActs (pollFrameCode s.params) s).seq.st = (runActs (pollFrameCode s.params) s).params.ready
    · rw [if_pos hready, if_pos hready]
    · rw [if_neg hready, if_neg hready]

theorem pollReady_withBuffers (m : List Host.Cell) (b : Half) (s : State) :
    pollReady b (withBuffers m s) = ((pollReady b s).1, withBuffers m (pollReady b s).2) :=
  pollLoop_withBuffers m b.toNat (setCnt b s)

theorem ackCheck_withBuffers (m : List Host.Cell) (s : State) :
    ackCheck (withBuffers m s) = ((ackCheck s).1, withBuffers m (ackCheck s).2) := by
  have hframe : runActs (ackFrameCode s.params) (withBuffers m s) =
      withBuffers m (runActs (ackFrameCode s.params) s) := runActs_withBuffers m rfl s
  rw [ackCheck, ackCheck, withBuffers_params, hframe]
  rfl

/-- What an exchange returns, with other buffers. -/
def ExchangeResult.withBuffers (m : List Host.Cell) (r : ExchangeResult) : ExchangeResult :=
  { r with state := Machine.withBuffers m r.state }

/-- The gates of an exchange do not see the buffers. -/
theorem exchangePoll1_withBuffers (m : List Host.Cell) (b : Half) (s : State) :
    exchangePoll1 b (withBuffers m s) = (exchangePoll1 b s).withBuffers m := by
  simp only [exchangePoll1, exchangeAck, exchangePoll2, setStage_withBuffers, pollReady_withBuffers,
    ackCheck_withBuffers]
  split
  · split
    · split <;> rfl
    · rfl
  · rfl

/-- The exchange with the sequencer's own command does not see the buffers (R223). -/
theorem exchange_firmware_withBuffers (m : List Host.Cell) (n : Nat) (b : Half) (s : State) :
    exchange .firmware n b (withBuffers m s) = (exchange .firmware n b s).withBuffers m := by
  rw [exchange, exchange, setStage_withBuffers, writeFrame_firmware_withBuffers, exchangePoll1_withBuffers]

/-! ### The response read writes the same bytes into any buffers -/

/-- The statements that read the first n response bytes (R163). -/
def responseBytesCode (n : Nat) : List Act := (List.range n).flatMap fun i => [.setIdx i, .readResponseByte]

theorem responseBytesCode_succ (n : Nat) :
    responseBytesCode (n + 1) = responseBytesCode n ++ [.setIdx n, .readResponseByte] := by
  simp [responseBytesCode, List.range_succ]

theorem readFrame_eq (n : Nat) (s : State) :
    readFrame n s =
      csDeassert (delay (runActs (responseBytesCode n) (writeByte s.params.dataRead (delay (csAssert s))))) := by
  simp [readFrame, readFrameCode, responseBytesCode, runActs_append, runAct]

/-- A response byte is read from the bus whatever the buffers hold (R163). -/
theorem readResponseByte_withBuffers (m : List Host.Cell) (s : State) :
    readResponseByte (withBuffers m s) =
      withBuffers (assocSet m (rspOffset s.seq.idx.toNat) (readByte s).1) (readResponseByte s) := rfl

theorem readResponseByte_mem (s : State) :
    (readResponseByte s).mem = assocSet s.mem (rspOffset s.seq.idx.toNat) (readByte s).1 := rfl

/-- The same response bytes are stored whatever the buffers held. -/
theorem responseBytes_withBuffers {n : Nat} (hn : n ≤ 65536) (m : List Host.Cell) (s : State) :
    ∃ m', runActs (responseBytesCode n) (withBuffers m s) = withBuffers m' (runActs (responseBytesCode n) s) ∧
      ∀ i < n, assocGet m' (rspOffset i) = (runActs (responseBytesCode n) s).byteAt (rspOffset i) := by
  induction n with
  | zero => exact ⟨m, rfl, fun i hi => absurd hi (Nat.not_lt_zero i)⟩
  | succ n ih =>
    obtain ⟨m', hrun, hsame⟩ := ih (by omega)
    rw [responseBytesCode_succ, runActs_append, runActs_append, hrun]
    generalize runActs (responseBytesCode n) s = t at hsame
    have hidx : (setIdx n t).seq.idx.toNat = n := Nat.mod_eq_of_lt (by omega)
    have hmem := readResponseByte_mem (setIdx n t)
    refine ⟨_, readResponseByte_withBuffers m' (setIdx n t), fun i hi => ?_⟩
    rw [hidx] at hmem ⊢
    rw [State.byteAt, runActs_cons, runActs_cons, runActs_nil, runAct, runAct, hmem, assocGet_assocSet,
      assocGet_assocSet]
    by_cases h : n = i
    · rw [h, if_pos rfl, if_pos rfl]
    · have hne : rspOffset n ≠ rspOffset i := fun heq => h (Nat.add_left_cancel heq)
      rw [if_neg hne, if_neg hne, hsame i (by omega)]
      rfl

/-- `ReadFrame(n)` (R163) stores the same bytes whatever the buffers held. -/
theorem readFrame_withBuffers {n : Nat} (hn : n ≤ 65536) (m : List Host.Cell) (s : State) :
    ∃ m', readFrame n (withBuffers m s) = withBuffers m' (readFrame n s) ∧
      ∀ i < n, assocGet m' (rspOffset i) = (readFrame n s).byteAt (rspOffset i) := by
  obtain ⟨m', hrun, hsame⟩ := responseBytes_withBuffers hn m (writeByte s.params.dataRead (delay (csAssert s)))
  refine ⟨m', ?_, ?_⟩
  · rw [readFrame_eq, readFrame_eq]
    exact congrArg (fun t => csDeassert (delay t)) hrun
  · rw [readFrame_eq]
    exact hsame

/-! ### GET_FW -/

/-- A buffer byte that two buffers hold alike is read alike (R55). -/
theorem readByteAt_withBuffers {m : List Host.Cell} {s : State} {off : Nat} (h : assocGet m off = s.byteAt off) :
    (withBuffers m s).readByteAt off = ((s.readByteAt off).1, withBuffers m (s.readByteAt off).2) := by
  have hbyte : (withBuffers m s).byteAt off = s.byteAt off := h
  simp only [State.readByteAt, hbyte]
  cases s.byteAt off <;> rfl

theorem readByteAt_byteAt (s : State) (off a : Nat) : (s.readByteAt off).2.byteAt a = s.byteAt a :=
  byteAt_congr (readByteAt_mem s off) a

/-- The firmware value is packed from four response bytes and nothing else of the buffers (R225). -/
theorem packFirmware_withBuffers {m : List Host.Cell} {s : State}
    (h : ∀ i < 4, assocGet m (rspOffset i) = s.byteAt (rspOffset i)) :
    packFirmware (withBuffers m s) = withBuffers m (packFirmware s) := by
  have h0 := h 0 (by decide)
  have h1 := h 1 (by decide)
  have h2 := h 2 (by decide)
  have h3 := h 3 (by decide)
  simp only [packFirmware, readByteAt_withBuffers, readByteAt_byteAt, h0, h1, h2, h3]
  rfl

/-- What GET_FW does after its exchange does not depend on the buffers, but that the response goes into them. -/
theorem afterFirmwareExchange_withBuffers (m : List Host.Cell) (r : ExchangeResult) :
    ∃ m', afterFirmwareExchange (r.withBuffers m) = withBuffers m' (afterFirmwareExchange r) := by
  by_cases hok : r.code = .ok
  · obtain ⟨m', hread, hsame⟩ := readFrame_withBuffers (n := 12) (by decide) m (setStage .responseRead r.state)
    have hpack := packFirmware_withBuffers fun i hi => hsame i (Nat.lt_trans hi (by decide))
    refine ⟨m', ?_⟩
    rw [afterFirmwareExchange_of_ok hok, afterFirmwareExchange_of_ok (r := r.withBuffers m) hok,
      ExchangeResult.withBuffers, setStage_withBuffers, hread, hpack, finish_withBuffers]
  · refine ⟨m, ?_⟩
    rw [afterFirmwareExchange_of_ne hok, afterFirmwareExchange_of_ne (r := r.withBuffers m) hok]
    rfl

/-- Settles O32: with other buffers GET_FW's exchange returns the same, and what follows it too but for the response in
them; and it writes no CMD_BUF byte from any state. -/
theorem getFwIsIndependentOfTheBuffers : Obligations.GetFwIsIndependentOfTheBuffers := by
  intro s m
  obtain ⟨m', hsame⟩ := afterFirmwareExchange_withBuffers m (exchange .firmware 1 s.params.fwBudget s)
  have hexec : exec .getFw (withBuffers m s) =
      .next (withBuffers m' (afterFirmwareExchange (exchange .firmware 1 s.params.fwBudget s))) := by
    rw [exec_getFw_eq, withBuffers_params, exchange_firmware_withBuffers, hsame]
  refine ⟨_, _, exec_getFw_eq s, hexec, rfl, fun i hi => ⟨?_, ?_⟩⟩
  · exact (operationsWriteOnlyTheResponse _ _ _ (exec_getFw_eq s)).1 i hi
  · exact (operationsWriteOnlyTheResponse _ _ _ hexec).1 i hi

end Sys2Proof.Machine
end

section
/-! PROOF. Outcomes and completion (60_exceptions.md R250 to R267): every accepted word has one outcome, every operation
completes, and the step that completes one does so at once (O7, O10, O49). -/

namespace Sys2Proof.Machine

/-- Settles O7: the decoder either refuses the accepted word, and Finish is all that happens, or selects a well-formed
operation, and that is what runs. -/
theorem everyWordHasOneOutcome : Obligations.EveryWordHasOneOutcome := by
  intro w s
  cases h : decode w with
  | error e => exact .inr ⟨_, operationTurn_of_error (s := accept w s) h, rfl, rfl, rfl, rfl⟩
  | ok i => exact .inl ⟨i, rfl, decode_wf h, operationTurn_of_ok (s := accept w s) h⟩

/-- Settles O10: an operation run whole ends in one of the states of `ExecEnds`, and each of them is complete. -/
theorem everyOperationCompletes : Obligations.EveryOperationCompletes := by
  intro i s
  obtain ⟨t, ht, hends⟩ := exec_ends i s
  have hc := hends.completes
  exact ⟨t, ht, hc.busy, hc.done, hc.phase, hc.ending, hc.cs⟩

/-- No sequencer step but a Finish makes BUSY fall (R253). -/
theorem seqStep_eq_finish_of_busy_falls {s : State} (hbusy : s.status.busy = true)
    (hfalls : (seqStep s).status.busy = false) : ∃ code stage, seqStep s = finish code stage s := by
  have hne : (seqStep s).status.busy ≠ s.status.busy := by simp [hbusy, hfalls]
  obtain h | ⟨a, rest, h⟩ | ⟨rest, h⟩ | hfinish := seqStep_cases s
  · exact absurd (by rw [h]) hne
  · obtain ⟨-, -, -, -, -, -, hact, -⟩ := runAct_frame a s
    exact absurd (by rw [h]; exact hact) hne
  · exact absurd (by rw [h]; rfl) hne
  · exact hfinish

/-- Settles O49: the step in which BUSY falls is a Finish. It leaves chip-select alone, and the idle state it leads to meets
the invariant too, so chip-select was deasserted before it. -/
theorem completionIsAtomic : Obligations.CompletionIsAtomic := by
  refine ⟨fun s hbusy hfalls => ?_, fun _ _ _ => rfl⟩
  obtain ⟨code, stage, hstep⟩ := seqStep_eq_finish_of_busy_falls hbusy hfalls
  have hcs (hinv : Inv s) : (seqStep s).cs = false := (inv_seqStep hinv).idle_cs hfalls
  rw [hstep] at hcs ⊢
  exact ⟨rfl, rfl, rfl, rfl, rfl, rfl, rfl, rfl, hcs⟩

end Sys2Proof.Machine
end

section
/-! PROOF. Reset, event counts and bounds (70_reset_and_hazards.md R290 to R311; O50, O57, O58). -/

namespace Sys2Proof.Machine

/-! ### The reset input -/

/-- Settles O50: a reset turn is the reset input, whose fields are the reset values or kept. -/
theorem resetInputAbortsAtOnce : Obligations.ResetInputAbortsAtOnce := by
  intro s r hs
  have hstep : step s = .next (resetInput { s with sched := r }) := by
    rw [step, hs]
    rfl
  exact ⟨_, hstep, resetState.1, rfl, rfl, rfl, rfl, rfl, fun _ => rfl, rfl, rfl, rfl, rfl, rfl⟩

/-! ### The counts of the procedures -/

/-- No event (R310). -/
theorem Counts_nil : Counts [] 0 0 0 0 := ⟨rfl, rfl, rfl, rfl⟩

/-- One transfer (R310). -/
theorem Counts_xfer (m a : Byte) : Counts [.xfer m a] 1 0 0 1 := ⟨rfl, rfl, rfl, rfl⟩

/-- The transfers of a frame are its only events between the ticks (R22). -/
theorem Counts_transfers {sent answers : List Byte} (h : sent.length = answers.length) :
    Counts (List.zipWith .xfer sent answers) answers.length 0 0 answers.length := by
  induction sent generalizing answers with
  | nil =>
    obtain rfl := List.eq_nil_of_length_eq_zero h.symm
    exact Counts_nil
  | cons m sent ih =>
    cases answers with
    | nil => cases h
    | cons a answers =>
      rw [List.length_cons, Nat.add_comm]
      exact Counts_append (Counts_xfer m a) (ih (Nat.succ.inj h))

/-- A chip-select frame has two ticks, and two events more for chip-select (R22, R310). -/
theorem Counts_frameEvents {sent answers : List Byte} (h : sent.length = answers.length) :
    Counts (frameEvents sent answers) answers.length 2 1 (answers.length + 4) := by
  have hopen : Counts [.csOn, .delay] 0 1 1 2 := ⟨rfl, rfl, rfl, rfl⟩
  have hclose : Counts [.delay, .csOff] 0 1 0 2 := ⟨rfl, rfl, rfl, rfl⟩
  rw [frameEvents]
  convert Counts_append (Counts_append hopen (Counts_transfers h)) hclose using 1 <;> omega

/-- `WriteFrame` with n command bytes (R164, R310). -/
theorem Counts_writeFrameEvents (p : Params) {n : Nat} {cmd answers : List Byte} (hcmd : cmd.length = n)
    (h : answers.length = n + 9) : Counts (writeFrameEvents p cmd answers) (n + 9) 2 1 (n + 13) := by
  rw [← h, show n + 13 = answers.length + 4 by omega]
  exact Counts_frameEvents (by simp [commandFrame, hcmd, h])

/-- `ReadFrame(n)` (R163, R310). -/
theorem Counts_readFrameEvents (p : Params) {n : Nat} {answers : List Byte} (h : answers.length = n + 1) :
    Counts (readFrameEvents p n answers) (n + 1) 2 1 (n + 5) := by
  rw [← h, show n + 5 = answers.length + 4 by omega]
  exact Counts_frameEvents (by simp [h])

/-- A poll stage that used up its budget (R190, R310). -/
theorem Counts_pollStage_none {p : Params} {b : Nat} {xs : List (Byte × Byte)} (h : PollOutcome p b xs none) :
    Counts (missedPollEvents p xs) (2 * b) (3 * b) b (7 * b) := h.2 ▸ Counts_missedPollEvents p xs

/-- A poll stage that read `P_READY` at an iteration k within its budget (R190, R310). -/
theorem Counts_pollStage_some {p : Params} {b : Nat} {xs : List (Byte × Byte)} {x : Byte × Byte}
    (h : PollOutcome p b xs (some x)) :
    ∃ k, 1 ≤ k ∧ k ≤ b ∧ Counts (missedPollEvents p xs ++ pollEvents p x) (2 * k) (3 * k - 1) k (7 * k - 1) := by
  refine ⟨xs.length + 1, Nat.le_add_left 1 _, h.2.1, ?_⟩
  convert Counts_append (Counts_missedPollEvents p xs) (Counts_pollEvents p x) using 1 <;> omega

/-- An exchange whose command frame `frame` has n command bytes, by how its gates end (R220, R310). -/
theorem ExchangeOutcome.counts {p : Params} {b n : Nat} {st : Byte} {e : ExchangeEnd} {frame : List Event}
    (h : ExchangeOutcome p b st e) (hframe : Counts frame (n + 9) 2 1 (n + 13)) :
    (e.code = .timeout ∧ e.stage = .poll1 ∧
      Counts (frame ++ e.evs) (n + 9 + 2 * b) (2 + 3 * b) (1 + b) (n + 13 + 7 * b)) ∨
    ∃ k1, 1 ≤ k1 ∧ k1 ≤ b ∧
      ((e.code = .nack ∧ e.stage = .ackCheck ∧
        Counts (frame ++ e.evs) (n + 16 + 2 * k1) (3 * k1 + 3) (k1 + 2) (n + 23 + 7 * k1)) ∨
      (e.code = .timeout ∧ e.stage = .poll2 ∧
        Counts (frame ++ e.evs) (n + 16 + 2 * k1 + 2 * b) (3 * k1 + 3 + 3 * b) (k1 + 2 + b)
          (n + 23 + 7 * k1 + 7 * b)) ∨
      ∃ k2, 1 ≤ k2 ∧ k2 ≤ b ∧ e.code = .ok ∧
        Counts (frame ++ e.evs) (n + 16 + 2 * (k1 + k2)) (3 * (k1 + k2) + 2) (k1 + k2 + 2)
          (n + 22 + 7 * (k1 + k2))) := by
  cases h with
  | timeout1 xs h1 => exact .inl ⟨rfl, rfl, Counts_append hframe (Counts_pollStage_none h1)⟩
  | nack xs x ack h1 hack =>
    obtain ⟨k1, hmin, hmax, hpoll1⟩ := Counts_pollStage_some h1
    refine .inr ⟨k1, hmin, hmax, .inl ⟨rfl, rfl, ?_⟩⟩
    convert Counts_append hframe (Counts_append hpoll1 (Counts_readFrameEvents p hack)) using 1 <;> omega
  | timeout2 xs x ack ys h1 hack _ h2 =>
    obtain ⟨k1, hmin, hmax, hpoll1⟩ := Counts_pollStage_some h1
    have hgates := Counts_append (Counts_append hpoll1 (Counts_readFrameEvents p hack)) (Counts_pollStage_none h2)
    refine .inr ⟨k1, hmin, hmax, .inr (.inl ⟨rfl, rfl, ?_⟩)⟩
    convert Counts_append hframe hgates using 1 <;> omega
  | ok xs x ack ys y h1 hack _ h2 =>
    obtain ⟨k1, hmin, hmax, hpoll1⟩ := Counts_pollStage_some h1
    obtain ⟨k2, hmin', hmax', hpoll2⟩ := Counts_pollStage_some h2
    have hgates := Counts_append (Counts_append hpoll1 (Counts_readFrameEvents p hack)) hpoll2
    rw [← List.append_assoc] at hgates
    refine .inr ⟨k1, hmin, hmax, .inr (.inr ⟨k2, hmin', hmax', rfl, ?_⟩)⟩
    convert Counts_append hframe hgates using 1 <;> omega

/-! ### The operations -/

/-- Settles O57: the events are those the outcome of each operation states, and the counts of its procedures add up. -/
theorem eventCountsPerOperation : Obligations.EventCountsPerOperation := by
  refine ⟨fun w s e he => ⟨_, operationTurn_of_error (s := accept w s) he, rfl, rfl⟩, fun i w s t hwf h => ?_⟩
  cases i with
  | bitrev v =>
    cases h
    exact ⟨[], (List.append_nil _).symm, Counts_nil⟩
  | xferWr v =>
    cases h
    exact ⟨_, rfl, Counts_xfer _ _⟩
  | xferRd =>
    cases h
    exact ⟨_, rfl, Counts_xfer _ _⟩
  | writeCmd n =>
    by_cases hn : 1 ≤ n ∧ n ≤ 254
    · rw [exec_writeCmd_eq, if_pos hn] at h
      cases h
      obtain ⟨cmd, answers, d, ix, hcmd, hanswers, -, -, -, -, hframe⟩ :=
        writeFrame_spec .cmdBuf n (by omega) (accept w s)
      exact ⟨_, by rw [hframe]; rfl, Counts_writeFrameEvents s.params hcmd hanswers⟩
    · rw [exec_writeCmd_eq, if_neg hn] at h
      cases h
      exact ⟨[], (List.append_nil _).symm, Counts_nil⟩
  | readData n =>
    by_cases hn : 1 ≤ n ∧ n ≤ 255
    · rw [exec_readData_eq, if_pos hn] at h
      cases h
      obtain ⟨answers, m, ix, hanswers, -, -, -, -, -, hframe⟩ := readFrame_spec n (by omega) (accept w s)
      exact ⟨_, by rw [hframe]; rfl, Counts_readFrameEvents s.params hanswers⟩
    · rw [exec_readData_eq, if_neg hn] at h
      cases h
      exact ⟨[], (List.append_nil _).symm, Counts_nil⟩
  | waitReady b =>
    obtain ⟨xs, hit, houtcome, -, hexec⟩ := waitReadyOutcome b w s (of_decide_eq_true hwf)
    rw [hexec] at h
    cases h
    refine ⟨pollStageEvents s.params xs hit, rfl, ?_⟩
    cases hit with
    | none => exact .inl ⟨rfl, Counts_pollStage_none houtcome⟩
    | some x => exact .inr ⟨rfl, Counts_pollStage_some houtcome⟩
  | checkAck =>
    obtain ⟨answers, hanswers, -, -, hexec⟩ := checkAckOutcome w s
    rw [hexec] at h
    cases h
    exact ⟨readFrameEvents s.params 6 answers, by simp [readFrameEvents, frameEvents],
      Counts_readFrameEvents s.params hanswers⟩
  | execute n b =>
    by_cases hn : 1 ≤ n ∧ n ≤ 254
    · have hb : b < 65536 := of_decide_eq_true (Bool.and_eq_true_iff.1 hwf).2
      obtain ⟨cmd, fa, e, d, hcmd, hfa, -, -, -, houtcome, -, hexec⟩ := executeOutcome n b w s hn.1 hn.2 hb
      rw [hexec] at h
      cases h
      exact ⟨_, List.append_assoc _ _ _, .inr (houtcome.counts (Counts_writeFrameEvents s.params hcmd hfa))⟩
    · rw [exec_execute_eq, if_neg hn] at h
      cases h
      exact ⟨[], (List.append_nil _).symm, .inl ⟨rfl, Counts_nil⟩⟩
  | getFw =>
    obtain ⟨fa, e, seq, u, hfa, houtcome, -, -, hexec, hfail, hok⟩ := getFwOutcome w s
    rw [hexec] at h
    cases h
    have hframe := Counts_writeFrameEvents s.params (List.length_singleton (a := s.params.fwOpcode)) hfa
    have hcounts := houtcome.counts hframe
    by_cases hcode : e.code = .ok
    · obtain ⟨resp, m, hresp, -, -, -, rfl⟩ := hok hcode
      obtain ⟨k1, hmin, hmax, k2, hmin', hmax', hgates⟩ := by simpa [hcode] using hcounts
      refine ⟨writeFrameEvents s.params [s.params.fwOpcode] fa ++ e.evs ++ readFrameEvents s.params 12 resp,
        by simp only [List.append_assoc], .inr ⟨k1, hmin, hmax, .inr (.inr ⟨k2, hmin', hmax', rfl, ?_⟩)⟩⟩
      convert Counts_append hgates (Counts_readFrameEvents s.params hresp) using 1 <;> omega
    · obtain ⟨-, rfl⟩ := hfail hcode
      exact ⟨_, List.append_assoc _ _ _, hcounts.imp_right fun ⟨k1, hmin, hmax, hgates⟩ =>
        ⟨k1, hmin, hmax, hgates.imp_right (Or.imp_right fun ⟨_, _, _, hok, _⟩ => absurd hok hcode)⟩⟩

/-- Settles O58: every row of O57 is within the bounds. -/
theorem exchangesAreBounded : Obligations.ExchangesAreBounded := by
  intro n b w s hn hb
  have hwf : (Instr.execute n b).wf = true := by simp [Instr.wf, hn, hb]
  obtain ⟨t, ht, -⟩ := exec_ends (.execute n b) (accept w s)
  obtain ⟨u, hu, -⟩ := exec_ends .getFw (accept w s)
  obtain ⟨evs, htrace, hrow⟩ := eventCountsPerOperation.2 (.execute n b) w s t hwf ht
  obtain ⟨evs', htrace', hrow'⟩ := eventCountsPerOperation.2 .getFw w s u rfl hu
  refine ⟨⟨t, evs, ht, htrace, ?_⟩, u, evs', hu, htrace', ?_⟩
  · obtain ⟨-, hx, hd, -⟩ | ⟨-, -, hx, hd, -⟩ | ⟨k1, -, hk1, ⟨-, -, hx, hd, -⟩ | ⟨-, -, hx, hd, -⟩ |
      ⟨k2, -, hk2, -, hx, hd, -⟩⟩ := hrow <;> omega
  · obtain ⟨-, -, hx, hd, -⟩ | ⟨k1, -, hk1, ⟨-, -, hx, hd, -⟩ | ⟨-, -, hx, hd, -⟩ |
      ⟨k2, -, hk2, -, hx, hd, -⟩⟩ := hrow' <;> omega

end Sys2Proof.Machine
end
